-- ==== Sys2Proof/Word.lean ====
section
/-! DEFINITION. The number types of the block (spec/00_scope.md R21): u8, u16 and the 32-bit request header word. -/

namespace Sys2Proof

/-- `u8` (R21). -/
abbrev Byte := BitVec 8

/-- `u16` (R21): the CRC register, the trailer and the `value` of a response. -/
abbrev Half := BitVec 16

/-- The request header word (spec/30_encoding.md R96). -/
abbrev Header := BitVec 32

end Sys2Proof
end

