-- ==== Sys2Proof/Syntax.lean ====
section
/-! DEFINITION. The two request ports, the request record, and the instructions: one constructor of `Instr` for each row of
spec/opcode_table.json. -/

namespace Sys2Proof

/-- The two request ports (spec/00_scope.md R19). -/
inductive Port where
  | poll
  | cmd
deriving DecidableEq, Repr, Inhabited

/-- A request as it stands on a port: the 32-bit header word and the data bytes that follow it
(spec/30_encoding.md R95, R96). -/
structure Request where
  header : Header
  data : List Byte
deriving DecidableEq, Repr, Inhabited

/-- The instructions. The first nine are the request operations and the reserved row (spec/30_encoding.md R97).
The other sixteen are the wire command bytes of R102: each is the request that the row's syntax names, XCHG, XCHG_ACK or
XCHG_ECHO with that command byte (notes/assumptions/13.md). `d` is the request's data, `c` its command byte. -/
inductive Instr where
  /-- CRC_INIT, spec/41_crc.md R136 -/
  | crcInit
  /-- CRC_BYTE, spec/41_crc.md R137 -/
  | crcByte (b : Byte)
  /-- CRC16, spec/41_crc.md R138 -/
  | crc16 (d : List Byte)
  /-- ENCODE, spec/42_encoder.md R151 -/
  | encode (c : Byte) (d : List Byte)
  /-- PARSE, spec/43_decoder.md R170 -/
  | parse (d : List Byte)
  /-- XCHG, spec/44_serializer.md R200 -/
  | xchg (c : Byte) (d : List Byte)
  /-- XCHG_ACK, spec/44_serializer.md R205 -/
  | xchgAck (c : Byte) (d : List Byte)
  /-- XCHG_ECHO, spec/44_serializer.md R207 -/
  | xchgEcho (c : Byte) (d : List Byte)
  /-- RESERVED_OP, spec/60_exceptions.md R239: a header with OP 8 to 15, all its bits kept -/
  | reservedOp (h : Header) (d : List Byte)
  /-- STATUS_REQ 0x11, sent by XCHG -/
  | statusReq (d : List Byte)
  /-- RESET 0x40, sent by XCHG_ACK -/
  | reset (d : List Byte)
  /-- STACK_1 0x41, sent by XCHG_ACK -/
  | stack1 (d : List Byte)
  /-- STACK_2 0x42, sent by XCHG -/
  | stack2 (d : List Byte)
  /-- RETURN 0x43, sent by XCHG_ACK -/
  | returnBill (d : List Byte)
  /-- HOLD 0x44, sent by XCHG -/
  | hold (d : List Byte)
  /-- WAIT 0x45, sent by XCHG -/
  | wait (d : List Byte)
  /-- ACK 0x50, sent by XCHG -/
  | ack (d : List Byte)
  /-- GET_VERSION 0x88, sent by XCHG -/
  | getVersion (d : List Byte)
  /-- SET_DENOM 0xC0, sent by XCHG_ECHO -/
  | setDenom (d : List Byte)
  /-- SET_SECURITY 0xC1, sent by XCHG_ECHO -/
  | setSecurity (d : List Byte)
  /-- SET_INHIBIT 0xC3, sent by XCHG_ECHO -/
  | setInhibit (d : List Byte)
  /-- SET_DIRECTION 0xC4, sent by XCHG_ECHO -/
  | setDirection (d : List Byte)
  /-- SET_OPT_FUNC 0xC5, sent by XCHG_ECHO -/
  | setOptFunc (d : List Byte)
  /-- SET_BAR_FUNC 0xC6, sent by XCHG_ECHO -/
  | setBarFunc (d : List Byte)
  /-- SET_BAR_INHIBIT 0xC7, sent by XCHG_ECHO -/
  | setBarInhibit (d : List Byte)
deriving DecidableEq, Repr, Inhabited

end Sys2Proof
end

