-- ==== Sys2Proof/WellFormed.lean ====
section
/-! DEFINITION. Which instructions a request can carry: the data count fits the 8-bit field N, a reserved row has a reserved
OP and as many data bytes as its header says, and a base form does not take a command byte that has a row of its own. -/

namespace Sys2Proof

/-- The command bytes that have a row sent by XCHG (spec/opcode_table.json, `sent_by`). -/
def xchgNames : List Byte := [0x11, 0x42, 0x44, 0x45, 0x50, 0x88]

/-- The command bytes that have a row sent by XCHG_ACK. -/
def ackNames : List Byte := [0x40, 0x41, 0x43]

/-- The command bytes that have a row sent by XCHG_ECHO. -/
def echoNames : List Byte := [0xC0, 0xC1, 0xC3, 0xC4, 0xC5, 0xC6, 0xC7]

/-- N is a u8 (spec/30_encoding.md R95): at most 255 data bytes. -/
def countFits (d : List Byte) : Bool := decide (d.length ≤ 255)

/-- Well-formed instructions: those that a request encodes under exactly one name (notes/assumptions/13.md). -/
def Instr.wellFormed : Instr → Bool
  | .crcInit => true
  | .crcByte _ => true
  | .crc16 d => countFits d
  | .encode _ d => countFits d
  | .parse d => countFits d
  | .xchg c d => countFits d && !xchgNames.contains c
  | .xchgAck c d => countFits d && !ackNames.contains c
  | .xchgEcho c d => countFits d && !echoNames.contains c
  | .reservedOp h d => h.getLsbD 3 && decide (d.length = (h.extractLsb' 16 8).toNat)
  | .statusReq d => countFits d
  | .reset d => countFits d
  | .stack1 d => countFits d
  | .stack2 d => countFits d
  | .returnBill d => countFits d
  | .hold d => countFits d
  | .wait d => countFits d
  | .ack d => countFits d
  | .getVersion d => countFits d
  | .setDenom d => countFits d
  | .setSecurity d => countFits d
  | .setInhibit d => countFits d
  | .setDirection d => countFits d
  | .setOptFunc d => countFits d
  | .setBarFunc d => countFits d
  | .setBarInhibit d => countFits d

end Sys2Proof
end

