-- ==== Sys2Proof/Decode.lean ====
section
/-! DEFINITION. Decoding a request to an instruction, total and rejecting by name, and encoding a well-formed instruction as
a request (spec/30_encoding.md R95 to R99). -/

namespace Sys2Proof

/-- `OP`, bits 3:0 of the header (R96). -/
def Request.op (r : Request) : BitVec 4 := r.header.extractLsb' 0 4

/-- `RSV0`, bits 7:4 (R96). -/
def Request.rsv0 (r : Request) : BitVec 4 := r.header.extractLsb' 4 4

/-- `CMD`, bits 15:8 (R96). -/
def Request.cmd (r : Request) : Byte := r.header.extractLsb' 8 8

/-- `N`, bits 23:16 (R96). -/
def Request.n (r : Request) : Byte := r.header.extractLsb' 16 8

/-- `RSV1`, bits 31:24 (R96). -/
def Request.rsv1 (r : Request) : Byte := r.header.extractLsb' 24 8

/-- A request has exactly N data bytes (R95). -/
def Request.countOk (r : Request) : Bool := decide (r.data.length = r.n.toNat)

/-- Why a request decodes to no instruction. All but `dataCount` are the illegal headers of R99 with an OP below 8. -/
inductive DecodeError where
  /-- the data bytes are not N in number: no request at all (R95) -/
  | dataCount
  /-- `RSV0` or `RSV1` is not 0 (R99) -/
  | reservedBits
  /-- `CMD` is not 0 where R98 says it must be -/
  | cmdNotZero
  /-- `N` is not 0 where R98 says it must be -/
  | countNotZero
deriving DecidableEq, Repr

/-- An XCHG of command byte `c`, under the name of its own row where it has one (notes/assumptions/13.md). -/
def nameXchg (c : Byte) (d : List Byte) : Instr :=
  if c = 0x11 then .statusReq d
  else if c = 0x42 then .stack2 d
  else if c = 0x44 then .hold d
  else if c = 0x45 then .wait d
  else if c = 0x50 then .ack d
  else if c = 0x88 then .getVersion d
  else .xchg c d

/-- An XCHG_ACK of command byte `c`, under the name of its own row where it has one. -/
def nameAck (c : Byte) (d : List Byte) : Instr :=
  if c = 0x40 then .reset d
  else if c = 0x41 then .stack1 d
  else if c = 0x43 then .returnBill d
  else .xchgAck c d

/-- An XCHG_ECHO of command byte `c`, under the name of its own row where it has one. -/
def nameEcho (c : Byte) (d : List Byte) : Instr :=
  if c = 0xC0 then .setDenom d
  else if c = 0xC1 then .setSecurity d
  else if c = 0xC3 then .setInhibit d
  else if c = 0xC4 then .setDirection d
  else if c = 0xC5 then .setOptFunc d
  else if c = 0xC6 then .setBarFunc d
  else if c = 0xC7 then .setBarInhibit d
  else .xchgEcho c d

/-- The operations of R97 with the must-be-zero fields of R98, for a header whose reserved bits are 0. -/
def decodeLegal (r : Request) : Except DecodeError Instr :=
  match r.op.toNat with
  | 0 => if r.cmd ≠ 0 then .error .cmdNotZero else if r.n ≠ 0 then .error .countNotZero else .ok .crcInit
  | 1 => if r.n ≠ 0 then .error .countNotZero else .ok (.crcByte r.cmd)
  | 2 => if r.cmd ≠ 0 then .error .cmdNotZero else .ok (.crc16 r.data)
  | 3 => .ok (.encode r.cmd r.data)
  | 4 => if r.cmd ≠ 0 then .error .cmdNotZero else .ok (.parse r.data)
  | 5 => .ok (nameXchg r.cmd r.data)
  | 6 => .ok (nameAck r.cmd r.data)
  | 7 => .ok (nameEcho r.cmd r.data)
  | _ => .ok (.reservedOp r.header r.data)

/-- The decoder of requests (R95 to R99). An OP of 8 to 15 is the row RESERVED_OP whatever its other bits. -/
def decode (r : Request) : Except DecodeError Instr :=
  if r.countOk = false then .error .dataCount
  else if r.op.getLsbD 3 then .ok (.reservedOp r.header r.data)
  else if r.rsv0 ≠ 0 ∨ r.rsv1 ≠ 0 then .error .reservedBits
  else decodeLegal r

/-- The header word of R96: `OP | (CMD << 8) | (N << 16)`. -/
def makeHeader (op : BitVec 4) (c n : Byte) : Header :=
  op.setWidth 32 ||| (c.setWidth 32 <<< 8) ||| (n.setWidth 32 <<< 16)

/-- A request with operation `op`, command byte `c` and data `d`. -/
def makeRequest (op : BitVec 4) (c : Byte) (d : List Byte) : Request :=
  ⟨makeHeader op c (BitVec.ofNat 8 d.length), d⟩

/-- The encoder: the request of a well-formed instruction (R97, R107, R108). -/
def encode : Instr → Request
  | .crcInit => makeRequest 0 0 []
  | .crcByte b => makeRequest 1 b []
  | .crc16 d => makeRequest 2 0 d
  | .encode c d => makeRequest 3 c d
  | .parse d => makeRequest 4 0 d
  | .xchg c d => makeRequest 5 c d
  | .xchgAck c d => makeRequest 6 c d
  | .xchgEcho c d => makeRequest 7 c d
  | .reservedOp h d => ⟨h, d⟩
  | .statusReq d => makeRequest 5 0x11 d
  | .reset d => makeRequest 6 0x40 d
  | .stack1 d => makeRequest 6 0x41 d
  | .stack2 d => makeRequest 5 0x42 d
  | .returnBill d => makeRequest 6 0x43 d
  | .hold d => makeRequest 5 0x44 d
  | .wait d => makeRequest 5 0x45 d
  | .ack d => makeRequest 5 0x50 d
  | .getVersion d => makeRequest 5 0x88 d
  | .setDenom d => makeRequest 7 0xC0 d
  | .setSecurity d => makeRequest 7 0xC1 d
  | .setInhibit d => makeRequest 7 0xC3 d
  | .setDirection d => makeRequest 7 0xC4 d
  | .setOptFunc d => makeRequest 7 0xC5 d
  | .setBarFunc d => makeRequest 7 0xC6 d
  | .setBarInhibit d => makeRequest 7 0xC7 d

/-- The request that a row of R102 stands for, with empty data: the row's syntax in spec/opcode_table.json. -/
def wireRequest (c : Byte) : Option Request :=
  if xchgNames.contains c then some (makeRequest 5 c [])
  else if ackNames.contains c then some (makeRequest 6 c [])
  else if echoNames.contains c then some (makeRequest 7 c [])
  else none

/-- The request whose bits are `w`: the header word in bits 31:0, then its N data bytes, the first lowest. -/
def headerRequest (w : Nat) : Request :=
  let h : Header := BitVec.ofNat 32 w
  ⟨h, (List.range (h.extractLsb' 16 8).toNat).map (fun k => BitVec.ofNat 8 (w >>> (32 + 8 * k)))⟩

/-- The request of a table word (notes/assumptions/14.md). A word of one byte that is a command byte of R102 is that row; any
other word is a request header, the bits above it 0. -/
def requestOfWord (nbits w : Nat) : Request :=
  let v := w % 2 ^ nbits
  if nbits ≤ 8 then (wireRequest (BitVec.ofNat 8 v)).getD (headerRequest v) else headerRequest v

/-- The instruction the decoder reads from a table word. -/
def decodeTableWord (nbits w : Nat) : Option Instr :=
  match decode (requestOfWord nbits w) with
  | .ok i => some i
  | .error _ => none

end Sys2Proof
end

