-- ==== Sys2Proof/Config.lean ====
section
/-! DEFINITION. What is fixed for the block: the parameters of spec/00_scope.md section 3, the CRC table ROM, the wire
vocabulary, the inputs that the host, the device and the scheduler of the agents give, and the free values (constants with no
body, about which nothing can be proved). -/

namespace Sys2Proof.Config

/-- `P_SYNC` (R7). -/
abbrev sync : Byte := 0xFC

/-- `P_NOOP` (R8). -/
abbrev noop : Byte := 0x00

/-- `P_ACK` (R9). -/
abbrev ack : Byte := 0x50

/-- `P_STATUS_REQ` (R10). -/
abbrev statusReq : Byte := 0x11

/-- `P_OVERHEAD` (R11). -/
abbrev overhead : Nat := 5

/-- `P_FRAME_MAX` (R12). -/
abbrev frameMax : Nat := 255

/-- `P_DATA_MAX` (R12). -/
abbrev dataMax : Nat := 250

/-- `P_CRC_POLY_R`, the polynomial 0x1021 reflected (R13). -/
abbrev crcPolyR : Half := 0x8408

/-- `P_CRC_INIT` (R13). -/
abbrev crcInit : Half := 0x0000

/-- Entries 0x00 to 0x1F of the CRC table (spec/41_crc.md R132). -/
def romRows0 : List Half :=
  [0x0000, 0x1189, 0x2312, 0x329B, 0x4624, 0x57AD, 0x6536, 0x74BF,
   0x8C48, 0x9DC1, 0xAF5A, 0xBED3, 0xCA6C, 0xDBE5, 0xE97E, 0xF8F7,
   0x1081, 0x0108, 0x3393, 0x221A, 0x56A5, 0x472C, 0x75B7, 0x643E,
   0x9CC9, 0x8D40, 0xBFDB, 0xAE52, 0xDAED, 0xCB64, 0xF9FF, 0xE876]

/-- Entries 0x20 to 0x3F of the CRC table (spec/41_crc.md R132). -/
def romRows1 : List Half :=
  [0x2102, 0x308B, 0x0210, 0x1399, 0x6726, 0x76AF, 0x4434, 0x55BD,
   0xAD4A, 0xBCC3, 0x8E58, 0x9FD1, 0xEB6E, 0xFAE7, 0xC87C, 0xD9F5,
   0x3183, 0x200A, 0x1291, 0x0318, 0x77A7, 0x662E, 0x54B5, 0x453C,
   0xBDCB, 0xAC42, 0x9ED9, 0x8F50, 0xFBEF, 0xEA66, 0xD8FD, 0xC974]

/-- Entries 0x40 to 0x5F of the CRC table (spec/41_crc.md R132). -/
def romRows2 : List Half :=
  [0x4204, 0x538D, 0x6116, 0x709F, 0x0420, 0x15A9, 0x2732, 0x36BB,
   0xCE4C, 0xDFC5, 0xED5E, 0xFCD7, 0x8868, 0x99E1, 0xAB7A, 0xBAF3,
   0x5285, 0x430C, 0x7197, 0x601E, 0x14A1, 0x0528, 0x37B3, 0x263A,
   0xDECD, 0xCF44, 0xFDDF, 0xEC56, 0x98E9, 0x8960, 0xBBFB, 0xAA72]

/-- Entries 0x60 to 0x7F of the CRC table (spec/41_crc.md R132). -/
def romRows3 : List Half :=
  [0x6306, 0x728F, 0x4014, 0x519D, 0x2522, 0x34AB, 0x0630, 0x17B9,
   0xEF4E, 0xFEC7, 0xCC5C, 0xDDD5, 0xA96A, 0xB8E3, 0x8A78, 0x9BF1,
   0x7387, 0x620E, 0x5095, 0x411C, 0x35A3, 0x242A, 0x16B1, 0x0738,
   0xFFCF, 0xEE46, 0xDCDD, 0xCD54, 0xB9EB, 0xA862, 0x9AF9, 0x8B70]

/-- Entries 0x80 to 0x9F of the CRC table (spec/41_crc.md R132). -/
def romRows4 : List Half :=
  [0x8408, 0x9581, 0xA71A, 0xB693, 0xC22C, 0xD3A5, 0xE13E, 0xF0B7,
   0x0840, 0x19C9, 0x2B52, 0x3ADB, 0x4E64, 0x5FED, 0x6D76, 0x7CFF,
   0x9489, 0x8500, 0xB79B, 0xA612, 0xD2AD, 0xC324, 0xF1BF, 0xE036,
   0x18C1, 0x0948, 0x3BD3, 0x2A5A, 0x5EE5, 0x4F6C, 0x7DF7, 0x6C7E]

/-- Entries 0xA0 to 0xBF of the CRC table (spec/41_crc.md R132). -/
def romRows5 : List Half :=
  [0xA50A, 0xB483, 0x8618, 0x9791, 0xE32E, 0xF2A7, 0xC03C, 0xD1B5,
   0x2942, 0x38CB, 0x0A50, 0x1BD9, 0x6F66, 0x7EEF, 0x4C74, 0x5DFD,
   0xB58B, 0xA402, 0x9699, 0x8710, 0xF3AF, 0xE226, 0xD0BD, 0xC134,
   0x39C3, 0x284A, 0x1AD1, 0x0B58, 0x7FE7, 0x6E6E, 0x5CF5, 0x4D7C]

/-- Entries 0xC0 to 0xDF of the CRC table (spec/41_crc.md R132). -/
def romRows6 : List Half :=
  [0xC60C, 0xD785, 0xE51E, 0xF497, 0x8028, 0x91A1, 0xA33A, 0xB2B3,
   0x4A44, 0x5BCD, 0x6956, 0x78DF, 0x0C60, 0x1DE9, 0x2F72, 0x3EFB,
   0xD68D, 0xC704, 0xF59F, 0xE416, 0x90A9, 0x8120, 0xB3BB, 0xA232,
   0x5AC5, 0x4B4C, 0x79D7, 0x685E, 0x1CE1, 0x0D68, 0x3FF3, 0x2E7A]

/-- Entries 0xE0 to 0xFF of the CRC table (spec/41_crc.md R132). -/
def romRows7 : List Half :=
  [0xE70E, 0xF687, 0xC41C, 0xD595, 0xA12A, 0xB0A3, 0x8238, 0x93B1,
   0x6B46, 0x7ACF, 0x4854, 0x59DD, 0x2D62, 0x3CEB, 0x0E70, 0x1FF9,
   0xF78F, 0xE606, 0xD49D, 0xC514, 0xB1AB, 0xA022, 0x92B9, 0x8330,
   0x7BC7, 0x6A4E, 0x58D5, 0x495C, 0x3DE3, 0x2C6A, 0x1EF1, 0x0F78]

/-- The CRC table ROM, 256 entries of 16 bits, fixed at manufacture (spec/20_memory.md R61, spec/41_crc.md R132). -/
def rom : List Half :=
  romRows0 ++ romRows1 ++ romRows2 ++ romRows3 ++ romRows4 ++ romRows5 ++ romRows6 ++ romRows7

/-- The families of status bytes in spec/30_encoding.md R104. No rule of the block reads them (R105). -/
inductive StatusFamily where
  | normal
  | powerUp
  | error
  | ack
  | none
deriving DecidableEq, Repr

/-- The status vocabulary of spec/30_encoding.md R104: code, family and name. -/
def statusVocabulary : List (Byte × StatusFamily × String) :=
  [(0x11, .normal, "enable/idle"), (0x12, .normal, "accepting"), (0x13, .normal, "escrow"), (0x14, .normal, "stacking"),
   (0x15, .normal, "vend-valid"), (0x16, .normal, "stacked"), (0x17, .normal, "rejecting"), (0x18, .normal, "returning"),
   (0x19, .normal, "holding"), (0x1A, .normal, "inhibit/disable"), (0x1B, .normal, "initialize"),
   (0x40, .powerUp, "normal (power-up)"), (0x41, .powerUp, "bill-in-acceptor"), (0x42, .powerUp, "bill-in-stacker"),
   (0x43, .error, "stacker full"), (0x44, .error, "stacker open"), (0x45, .error, "acceptor jam"),
   (0x46, .error, "stacker jam"), (0x47, .error, "pause"), (0x48, .error, "cheated"), (0x49, .error, "failure"),
   (0x4A, .error, "comm error"), (0x4B, .error, "invalid command"), (0x50, .ack, "ACK"),
   (0x00, .none, "no response / read timeout")]

/-- The settings of the line's parity (R15). -/
inductive Parity where
  | even
  | none
deriving DecidableEq, Repr, Inhabited

/-- One host write to a field of the `CONFIG` record (spec/10_state.md R46). Numbers are as the host writes them: a value
outside the field's legal set has no transition (93_implementation_defined.md U9). -/
inductive Write where
  | tRead (n : Nat)
  | baud (n : Nat)
  | dataBits (n : Nat)
  | parity (p : Parity)
  | stopBits (n : Nat)
  | maxAckAttempts (n : Nat)
  | echo (c v : Byte)
  | flushAll (b : Bool)
deriving DecidableEq, Repr, Inhabited

/-- One step of one agent (spec/44_serializer.md R190): which agent moves, and the choice the spec leaves to it. -/
inductive Event where
  /-- the sequencer of port `p` moves; `timeout` is the draw of spec/20_memory.md R64 -/
  | port (p : Port) (timeout : Bool)
  /-- the arbiter grants the lock to port `p`, if it may (spec/44_serializer.md R195) -/
  | grant (p : Port)
  /-- the device agent appends a byte to RXFIFO (spec/20_memory.md R66) -/
  | device (b : Byte)
  /-- the host presents a request on port `p` (spec/10_state.md R31) -/
  | present (p : Port) (r : Request)
  /-- the host writes RUNNING (spec/10_state.md R43) -/
  | setRunning (b : Bool)
  /-- the host writes CONFIG (spec/10_state.md R46) -/
  | setConfig (w : Write)
  /-- the host applies reset (spec/70_reset_and_hazards.md R270) -/
  | reset
deriving DecidableEq, Repr, Inhabited

/-- FREE VALUE: the agent step that follows when no input is listed (notes/assumptions/2.md). -/
opaque freeEvent : Nat → Event

/-- FREE VALUE: what RXFIFO holds at the first reset, any byte sequence (93_implementation_defined.md U4,
notes/assumptions/9.md). -/
opaque rxAtReset : List Byte

/-- FREE VALUE: `P_T_READ` less one unit; the parameter is positive (R14, notes/assumptions/10.md). -/
opaque tReadPred : Nat

/-- FREE VALUE: `P_STOP_BITS` (R15, notes/assumptions/10.md). -/
opaque stopBits : Nat

/-- FREE VALUE: `P_MAX_ACK_ATTEMPTS` less one; the parameter is at least 1 (R16, notes/assumptions/10.md). -/
opaque maxAckPred : Nat

end Sys2Proof.Config
end

