-- ==== Sys2Proof/Machine/State.lean ====
section
/-! DEFINITION. The state of the block as plain data (spec/10_state.md), the stops of a step, and the state after reset. -/

namespace Sys2Proof.Machine

/-- The result codes of spec/60_exceptions.md R230; the reserved values 12 to 15 are never produced (U3). -/
inductive ResultCode where
  | ok
  | noResponse
  | noop
  | syncErr
  | truncated
  | lenErr
  | crcErr
  | encErr
  | ackErr
  | retryExhausted
  | cancelled
  | illegalOp
deriving DecidableEq, Repr

/-- The read of a decode that came back short (spec/60_exceptions.md R230, R234). -/
inductive Stage where
  | len
  | cmd
  | data
  | crc
deriving DecidableEq, Repr

/-- The evidence an error records, by result code (spec/60_exceptions.md R230). -/
inductive Detail where
  | none
  /-- SYNC_ERR `{byte}` -/
  | byte (b : Byte)
  /-- TRUNCATED `{stage, got}` -/
  | short (stage : Stage) (got : Nat)
  /-- LEN_ERR `{length}` -/
  | length (l : Byte)
  /-- CRC_ERR `{received, computed}` -/
  | crc (received computed : Half)
  /-- ENC_ERR `{n}` -/
  | count (n : Nat)
  /-- ACK_ERR `{cmd, got_code, got_status, got_data}` -/
  | echo (cmd : Byte) (gotCode : ResultCode) (gotStatus : Option Byte) (gotData : List Byte)
  /-- RETRY_EXHAUSTED `{last}`; its `attempts` is the field of `Info` -/
  | last (code : Option ResultCode)
deriving DecidableEq, Repr

/-- The `info` record of a response (spec/30_encoding.md R100, R101, spec/60_exceptions.md R230); a field the response does
not have is `none`. -/
structure Info where
  detail : Detail := .none
  consumed : Option Nat := none
  flushed : Option Nat := none
  attempts : Option Nat := none
deriving DecidableEq, Repr

/-- A response (spec/30_encoding.md R100); the defaults are those of fields an operation does not set. -/
structure Response where
  code : ResultCode
  status : Option Byte := none
  value : Half := 0
  data : List Byte := []
  info : Info := {}
deriving DecidableEq, Repr

/-- `PHASE` (spec/10_state.md R35). DONE carries the response that is being posted (notes/assumptions/6.md). -/
inductive Phase where
  | idle
  | run
  | waitGrant
  | flush
  | tx
  | rx
  | done (r : Response)
deriving DecidableEq, Repr

/-- `DSTATE` (spec/10_state.md R37). -/
inductive DState where
  | idle
  | sync
  | len
  | cmd
  | data
  | crc
  | check
deriving DecidableEq, Repr

/-- The kinds of diagnostic events (spec/60_exceptions.md R254). -/
inductive DiagKind where
  | unexpectedBytes
  | syncLoss
deriving DecidableEq, Repr

/-- An event of `DIAG` (spec/10_state.md R47). -/
structure DiagEvent where
  kind : DiagKind
  port : Port
  info : List Byte
deriving DecidableEq, Repr

/-- The registers of one port (spec/10_state.md R31 to R40). The last three fields are the model's own: variables that the
spec's pseudocode keeps between the steps of one operation (notes/assumptions/23.md). -/
structure PortState where
  /-- `REQ`, R31; `none` is EMPTY -/
  req : Option Request
  /-- the request latched at acceptance, spec/44_serializer.md R191; `none` while no request is in progress -/
  latch : Option Request
  /-- `BUSY`, R32 -/
  busy : Bool
  /-- `RSP`, R33; `none` is NONE -/
  rsp : Option Response
  /-- `CRC`, R34 -/
  crc : Half
  /-- `PHASE`, R35 -/
  phase : Phase
  /-- `TXBUF`, R36 -/
  txbuf : List Byte
  /-- `TXLEN`, R36 -/
  txlen : Byte
  /-- `DSTATE`, R37 -/
  dstate : DState
  /-- `DLEN`, R38 -/
  dlen : Byte
  /-- `DCMD`, R38 -/
  dcmd : Byte
  /-- `DDATA`, R38 -/
  ddata : List Byte
  /-- `DCRC`, R38 -/
  dcrc : Half
  /-- `ATTEMPTS`, R39 -/
  attempts : Nat
  /-- `PARSE_IN`, R40 -/
  parseIn : List Byte
  /-- `PARSE_POS`, R40 -/
  parsePos : Nat
  /-- the bytes the RxRead in progress has taken, `got` of spec/20_memory.md R64 -/
  got : List Byte
  /-- the bytes the exchange in progress has drained, `flushed` of spec/44_serializer.md R200 -/
  flushed : Nat
  /-- the outcome code of the last unacknowledged attempt, `last` of spec/44_serializer.md R205 -/
  last : Option ResultCode
deriving DecidableEq, Repr

/-- The two supported line rates (spec/10_state.md R46). -/
inductive Baud where
  | b9600
  | b19200
deriving DecidableEq, Repr

/-- The `CONFIG` record (spec/10_state.md R46). `DATA_BITS` has the one legal value 8. `echo` lists where the function
`ECHO` differs from the identity (notes/assumptions/12.md). -/
structure ConfigRecord where
  tRead : Nat
  baud : Baud
  dataBits : Nat
  parity : Config.Parity
  stopBits : Nat
  maxAckAttempts : Nat
  echo : List Host.Cell
  flushAll : Bool
deriving DecidableEq, Repr

/-- The state of the block and of the channel. The last five fields are the model's own. -/
structure State where
  /-- the registers of port POLL -/
  poll : PortState
  /-- the registers of port CMD -/
  cmd : PortState
  /-- `LOCK_OWNER`, spec/10_state.md R42; `none` is NONE -/
  lockOwner : Option Port
  /-- `RUNNING`, R43 -/
  running : Bool
  /-- `CONFIG`, R46 -/
  config : ConfigRecord
  /-- `DIAG`, R47, the oldest event first -/
  diag : List DiagEvent
  /-- `RXFIFO`, spec/20_memory.md R62, the head first -/
  rxfifo : List Byte
  /-- `TXHIST`, spec/20_memory.md R63, the oldest byte first -/
  txhist : List Byte
  /-- the port whose sequencer moves (notes/assumptions/8.md) -/
  cur : Port
  /-- the timeout draw of this step (spec/20_memory.md R64, notes/assumptions/8.md) -/
  draw : Bool
  /-- the agent steps to come, the next first (notes/assumptions/1.md) -/
  inputs : List Config.Event
  /-- the counter `Config.freeEvent` is applied to (notes/assumptions/2.md) -/
  tick : Nat
  /-- `RUNNING` as it stood at the last grant: the value that the exchange granted then samples
  (spec/44_serializer.md R199, spec/70_reset_and_hazards.md R285, notes/assumptions/18.md) -/
  sampled : Bool
deriving DecidableEq, Repr

/-- Why a step stops as stuck. Both are safe: no state that a run from reset reaches gives one (notes/assumptions/21.md). -/
inductive Fault where
  /-- raised by a meaning whose port is in a phase that its operation never enters; safe -/
  | phaseNotOfOperation
  /-- raised by a port step when BUSY is 1 and no instruction is latched; safe -/
  | nothingLatched
deriving DecidableEq, Repr

/-- Why a step is refused. All are safe: the spec has no transition there. -/
inductive Refusal where
  /-- raised by `exec` for an instruction that has no meaning yet; safe -/
  | notModelled (mnemonic : String)
  /-- raised by a host input that presents a request while REQ is not EMPTY or BUSY is 1 (spec/10_state.md R31); safe -/
  | portNotFree
  /-- raised by a request whose data bytes are not N in number (spec/30_encoding.md R95); safe -/
  | notARequest
  /-- raised by a host write to CONFIG while a port has BUSY = 1 (spec/10_state.md R46, U8); safe -/
  | configWhileBusy
  /-- raised by a host write of a value outside the field's legal set (spec/10_state.md R46, U9); safe -/
  | configNotLegal
deriving DecidableEq, Repr

/-- The registers of a port after reset (spec/70_reset_and_hazards.md R270). -/
def PortState.reset : PortState where
  req := none
  latch := none
  busy := false
  rsp := none
  crc := 0
  phase := .idle
  txbuf := []
  txlen := 0
  dstate := .idle
  dlen := 0
  dcmd := 0
  ddata := []
  dcrc := 0
  attempts := 0
  parseIn := []
  parsePos := 0
  got := []
  flushed := 0
  last := none

/-- `CONFIG` after reset (spec/10_state.md R46): the OPEN fields are parameters (notes/assumptions/10.md). -/
def ConfigRecord.reset : ConfigRecord where
  tRead := Config.tReadPred + 1
  baud := .b9600
  dataBits := 8
  parity := .even
  stopBits := Config.stopBits
  maxAckAttempts := Config.maxAckPred + 1
  echo := []
  flushAll := false

/-- The state after the first reset, when the connection opens (spec/70_reset_and_hazards.md R270). -/
def State.reset : State where
  poll := .reset
  cmd := .reset
  lockOwner := none
  running := true
  config := .reset
  diag := []
  rxfifo := Config.rxAtReset
  txhist := []
  cur := .cmd
  draw := false
  inputs := []
  tick := 0
  sampled := false

/-- The outcome of a step of this machine. -/
abbrev Result := Host.Outcome State Fault Refusal

end Sys2Proof.Machine
end

