-- ==== Sys2Proof/Machine/Ops.lean ====
section
/-! DEFINITION. The named operations over the registers: port access, byte order, the CRC functions, the lock, the transport
primitives, the ECHO table, and the completion of an operation, which stands where an instruction set takes an exception. -/

namespace Sys2Proof.Machine

/-! ### Ports -/

/-- The registers of port `p` (spec/00_scope.md R23, `x[p]`). -/
def State.port (s : State) (p : Port) : PortState :=
  match p with
  | .poll => s.poll
  | .cmd => s.cmd

/-- Replace the registers of port `p`. -/
def State.setPort (s : State) (p : Port) (x : PortState) : State :=
  match p with
  | .poll => { s with poll := x }
  | .cmd => { s with cmd := x }

/-- Change the registers of port `p` by `f`. -/
def State.upd (s : State) (p : Port) (f : PortState → PortState) : State :=
  s.setPort p (f (s.port p))

/-- `x[p].PHASE <- ph` -/
def State.setPhase (s : State) (p : Port) (ph : Phase) : State :=
  s.upd p (fun x => { x with phase := ph })

/-- `p ∈ WAITING` (spec/10_state.md R44): derived from PHASE. -/
def State.isWaiting (s : State) (p : Port) : Bool :=
  match (s.port p).phase with
  | .waitGrant => true
  | _ => false

/-! ### Byte order -/

/-- `v[7:0]`, the trailer byte sent first (spec/20_memory.md R70). -/
def loByte (v : Half) : Byte := v.extractLsb' 0 8

/-- `v[15:8]`, the trailer byte sent second (R70). -/
def hiByte (v : Half) : Byte := v.extractLsb' 8 8

/-- `lo | (hi << 8)` (R70). -/
def halfOf (lo hi : Byte) : Half := hi ++ lo

/-! ### CRC -/

/-- `MemRead(ROM, i, 1)` (spec/20_memory.md R61). -/
def romRead (i : Byte) : Half := Config.rom.getD i.toNat 0

/-- One shift of the bit-serial form (spec/41_crc.md R131). -/
def crcShift (c : Half) : Half :=
  if c.getLsbD 0 then (c >>> 1) ^^^ Config.crcPolyR else c >>> 1

/-- `crc_bit_step(c, b)` (R131), the definition of the CRC that the table is derived from. -/
def crcBitStep (c : Half) (b : Byte) : Half :=
  crcShift (crcShift (crcShift (crcShift (crcShift (crcShift (crcShift (crcShift (c ^^^ b.setWidth 16))))))))

/-- `crc_step(c, b)` (R133), the datapath of one byte. -/
def crcStep (c : Half) (b : Byte) : Half :=
  (c >>> 8) ^^^ romRead ((c ^^^ b.setWidth 16).extractLsb' 0 8)

/-- `crc_step` over a byte sequence, from the register value `c`. -/
def crcFrom (c : Half) : List Byte → Half
  | [] => c
  | b :: m => crcFrom (crcStep c b) m

/-- `crc16(m)` (R135): no final XOR. -/
def crc16 (m : List Byte) : Half := crcFrom Config.crcInit m

/-! ### Frames -/

/-- The frame of command byte `c` and payload `d` without its trailer (spec/30_encoding.md R90). -/
def frameBody (c : Byte) (d : List Byte) : List Byte :=
  Config.sync :: BitVec.ofNat 8 (Config.overhead + d.length) :: c :: d

/-- The frame and its CRC (spec/42_encoder.md R150), or `none` where the encoder raises ENC_ERR. -/
def encodeFrame (c : Byte) (d : List Byte) : Option (List Byte × Half) :=
  if d.length + Config.overhead > Config.frameMax then none
  else
    let v := crc16 (frameBody c d)
    some (frameBody c d ++ [loByte v, hiByte v], v)

/-- What the encoder writes on success: `TXBUF` and `TXLEN` (R150). -/
def loadFrame (p : Port) (f : List Byte) (s : State) : State :=
  s.upd p (fun x => { x with txbuf := f, txlen := BitVec.ofNat 8 f.length })

/-! ### The lock -/

/-- Release (spec/44_serializer.md R196): only by the owner. -/
def releaseLock (p : Port) (s : State) : State :=
  { s with lockOwner := if s.lockOwner = some p then none else s.lockOwner }

/-- Grant (R195): an atomic test-and-set. The exchange samples the value of RUNNING current at its own grant
(spec/70_reset_and_hazards.md R285), which is kept for it. A grant that may not happen changes nothing. -/
def grantLock (p : Port) (s : State) : State :=
  if s.lockOwner = none ∧ s.isWaiting p = true then { s with lockOwner := some p, sampled := s.running } else s

/-! ### Completion -/

/-- The value of a result code (spec/60_exceptions.md R230). -/
def ResultCode.value : ResultCode → BitVec 4
  | .ok => 0
  | .noResponse => 1
  | .noop => 2
  | .syncErr => 3
  | .truncated => 4
  | .lenErr => 5
  | .crcErr => 6
  | .encErr => 7
  | .ackErr => 8
  | .retryExhausted => 9
  | .cancelled => 10
  | .illegalOp => 11

/-- Which result codes are errors (R230). -/
def ResultCode.isError : ResultCode → Bool
  | .ok => false
  | .noResponse => false
  | .noop => false
  | _ => true

/-- Completion (spec/00_scope.md R25, spec/44_serializer.md R192): the response is posted, the port becomes idle and gives
back the lock if it holds it, all in one step. The block has no trap: every error ends here (spec/60_exceptions.md R244). -/
def complete (p : Port) (r : Response) (s : State) : State :=
  releaseLock p (s.upd p (fun x => { x with rsp := some r, phase := .idle, busy := false, latch := none }))

/-- The operation has decided its response, which the port's next step posts: `PHASE <- DONE` (spec/10_state.md R35). -/
def finish (p : Port) (r : Response) (s : State) : State :=
  s.setPhase p (.done r)

/-- The completion of an illegal request (spec/60_exceptions.md R239). -/
def completeIllegal (p : Port) (s : State) : State :=
  complete p { code := .illegalOp } s

/-- The response of ENC_ERR (spec/60_exceptions.md R237). -/
def encErrResponse (n : Nat) : Response :=
  { code := .encErr, info := { detail := .count n } }

/-! ### Transport primitives and diagnostics -/

/-- `Diag(kind, info)` (spec/00_scope.md R24, spec/10_state.md R47). -/
def appendDiag (e : DiagEvent) (s : State) : State :=
  { s with diag := s.diag ++ [e] }

/-- `TxWrite(s)` (spec/20_memory.md R65). -/
def txWrite (f : List Byte) (s : State) : State :=
  { s with txhist := s.txhist ++ f }

/-- `RXFIFO <- []`, the effect of `RxDrain()` (spec/20_memory.md R67); what it returns is `RXFIFO` before. -/
def rxDrain (s : State) : State :=
  { s with rxfifo := [] }

/-- The device agent appends a byte (spec/20_memory.md R66). -/
def deviceSend (b : Byte) (s : State) : State :=
  { s with rxfifo := s.rxfifo ++ [b] }

/-! ### The ECHO function of CONFIG -/

/-- `CONFIG.ECHO(c)`: the listed exception, else the identity (spec/00_scope.md R17). -/
def echoRead (t : List Host.Cell) (c : Byte) : Byte :=
  match t with
  | [] => c
  | (k, v) :: rest => if k = c.toNat then v else echoRead rest c

/-- The table without an entry for key `k`. -/
def echoErase (k : Nat) : List Host.Cell → List Host.Cell
  | [] => []
  | e :: rest => if e.1 = k then echoErase k rest else e :: echoErase k rest

/-- The table with an entry `(k, v)` put in its place, for a key not in it. -/
def echoInsert (k : Nat) (v : Byte) : List Host.Cell → List Host.Cell
  | [] => [(k, v)]
  | e :: rest => if k < e.1 then (k, v) :: e :: rest else e :: echoInsert k v rest

/-- The table of a function that takes `c` to `v` and is otherwise as `t`: writing the identity removes the entry. -/
def echoWrite (c v : Byte) (t : List Host.Cell) : List Host.Cell :=
  if v = c then echoErase c.toNat t else echoInsert c.toNat v (echoErase c.toNat t)

/-- The keys rise strictly, stay above `lo`, are u8 values, and no entry is the identity's. -/
def echoWfFrom (lo : Nat) : List Host.Cell → Bool
  | [] => true
  | e :: rest => decide (lo ≤ e.1) && decide (e.1 < 256) && decide (e.2.toNat ≠ e.1) && echoWfFrom (e.1 + 1) rest

/-- The canonical form of the ECHO table. -/
def echoWf (t : List Host.Cell) : Bool := echoWfFrom 0 t

end Sys2Proof.Machine
end

