-- ==== Sys2Proof/Machine/Operands.lean ====
section
/-! DEFINITION. The operand forms: what an instruction asks of the channel, and the responses its outcomes give. The block
has no condition flags (91_not_in_source.md N-ST-2), so there is no flag computation. -/

namespace Sys2Proof.Machine

/-- The operations that perform exchanges (spec/30_encoding.md R97). -/
inductive ExchangeKind where
  | plain
  | untilAck
  | echo
deriving DecidableEq, Repr

/-- The kind, command byte and payload of an instruction that performs exchanges; `none` for one that takes no lock. -/
def exchangeOperands : Instr → Option (ExchangeKind × Byte × List Byte)
  | .crcInit => none
  | .crcByte _ => none
  | .crc16 _ => none
  | .encode _ _ => none
  | .parse _ => none
  | .reservedOp _ _ => none
  | .xchg c d => some (.plain, c, d)
  | .xchgAck c d => some (.untilAck, c, d)
  | .xchgEcho c d => some (.echo, c, d)
  | .statusReq d => some (.plain, 0x11, d)
  | .reset d => some (.untilAck, 0x40, d)
  | .stack1 d => some (.untilAck, 0x41, d)
  | .stack2 d => some (.plain, 0x42, d)
  | .returnBill d => some (.untilAck, 0x43, d)
  | .hold d => some (.plain, 0x44, d)
  | .wait d => some (.plain, 0x45, d)
  | .ack d => some (.plain, 0x50, d)
  | .getVersion d => some (.plain, 0x88, d)
  | .setDenom d => some (.echo, 0xC0, d)
  | .setSecurity d => some (.echo, 0xC1, d)
  | .setInhibit d => some (.echo, 0xC3, d)
  | .setDirection d => some (.echo, 0xC4, d)
  | .setOptFunc d => some (.echo, 0xC5, d)
  | .setBarFunc d => some (.echo, 0xC6, d)
  | .setBarInhibit d => some (.echo, 0xC7, d)

/-- The response of a lock-free operation that returns a u16 (spec/30_encoding.md R101). -/
def okValue (v : Half) : Response := { code := .ok, value := v }

/-- The response of CANCELLED for XCHG and XCHG_ECHO (spec/60_exceptions.md R230, 90_conflicts.md C11). -/
def cancelledFlushed : Response := { code := .cancelled, info := { flushed := some 0 } }

/-- The response of CANCELLED for XCHG_ACK (spec/60_exceptions.md R230). -/
def cancelledAttempts (n : Nat) : Response := { code := .cancelled, info := { attempts := some n } }

/-- The response of RETRY_EXHAUSTED (spec/60_exceptions.md R240). -/
def exhaustedResponse (n : Nat) (last : Option ResultCode) : Response :=
  { code := .retryExhausted, info := { detail := .last last, attempts := some n } }

end Sys2Proof.Machine
end

