-- ==== Sys2Proof/Machine/Decoder.lean ====
section
/-! DEFINITION. The frame decoder (spec/43_decoder.md): its sequence of reads, its outcomes, and its run over the bytes of a
PARSE request. -/

namespace Sys2Proof.Machine

/-- The seven outcomes of a decode, each with what it records (R160). -/
inductive DecodeOutcome where
  | ok (status : Byte) (data : List Byte)
  | noResponse
  | noop
  | syncErr (b : Byte)
  | truncated (stage : Stage) (got : Nat)
  | lenErr (l : Byte)
  | crcErr (received computed : Half)
deriving DecidableEq, Repr

/-- The result code of an outcome (R160, spec/60_exceptions.md R230). -/
def DecodeOutcome.code : DecodeOutcome → ResultCode
  | .ok _ _ => .ok
  | .noResponse => .noResponse
  | .noop => .noop
  | .syncErr _ => .syncErr
  | .truncated _ _ => .truncated
  | .lenErr _ => .lenErr
  | .crcErr _ _ => .crcErr

/-- `status` of an outcome (R160). -/
def DecodeOutcome.status : DecodeOutcome → Option Byte
  | .ok st _ => some st
  | .noop => some Config.noop
  | _ => none

/-- `data` of an outcome: none but OK returns a payload (R160). -/
def DecodeOutcome.data : DecodeOutcome → List Byte
  | .ok _ d => d
  | _ => []

/-- What an outcome records (R160). -/
def DecodeOutcome.detail : DecodeOutcome → Detail
  | .syncErr b => .byte b
  | .truncated st n => .short st n
  | .lenErr l => .length l
  | .crcErr r c => .crc r c
  | _ => .none

/-- The response of an outcome, with the counts that accompany it (spec/60_exceptions.md R230). -/
def DecodeOutcome.response (o : DecodeOutcome) (consumed flushed attempts : Option Nat) : Response :=
  { code := o.code, status := o.status, data := o.data
    info := { detail := o.detail, consumed := consumed, flushed := flushed, attempts := attempts } }

/-- How many bytes the decoder's next read asks for (R161, spec/20_memory.md R74); a state that reads nothing asks for 0. -/
def readSize (x : PortState) : Nat :=
  match x.dstate with
  | .idle => 0
  | .sync => 1
  | .len => 1
  | .cmd => 1
  | .data => x.dlen.toNat - Config.overhead
  | .crc => 2
  | .check => 0

/-- `end R(...)`: the decoder returns to D_IDLE (R161). -/
def endDecode (x : PortState) (o : DecodeOutcome) : PortState × Option DecodeOutcome :=
  ({ x with dstate := .idle }, some o)

/-- The check state (R168): the outcome of a frame that has been read whole. -/
def checkOutcome (x : PortState) : DecodeOutcome :=
  if crc16 (Config.sync :: x.dlen :: x.dcmd :: x.ddata) = x.dcrc then .ok x.dcmd x.ddata
  else .crcErr x.dcrc (crc16 (Config.sync :: x.dlen :: x.dcmd :: x.ddata))

/-- One state of the decoder, given the bytes `r` that its read returned (R161 to R168): it moves on, or it ends the decode
with an outcome. -/
def decoderTake (r : List Byte) (x : PortState) : PortState × Option DecodeOutcome :=
  match x.dstate with
  | .idle => ({ x with dstate := .sync }, none)
  | .sync =>
    match r with
    | [] => endDecode x .noResponse
    | b :: _ =>
      if b = Config.noop then endDecode x .noop
      else if b ≠ Config.sync then endDecode x (.syncErr b)
      else ({ x with dstate := .len }, none)
  | .len =>
    match r with
    | [] => endDecode x (.truncated .len 0)
    | l :: _ =>
      if l.toNat < Config.overhead then endDecode { x with dlen := l } (.lenErr l)
      else ({ x with dlen := l, dstate := .cmd }, none)
  | .cmd =>
    match r with
    | [] => endDecode x (.truncated .cmd 0)
    | c :: _ => ({ x with dcmd := c, dstate := .data }, none)
  | .data =>
    if r.length < x.dlen.toNat - Config.overhead then endDecode x (.truncated .data r.length)
    else ({ x with ddata := r, dstate := .crc }, none)
  | .crc =>
    match r with
    | lo :: hi :: _ => ({ x with dcrc := halfOf lo hi, dstate := .check }, none)
    | _ => endDecode x (.truncated .crc r.length)
  | .check => endDecode x (checkOutcome x)

/-- What `parse_read(n)` returns: the next `n` bytes of PARSE_IN, or as many as are left (R170). -/
def parseBytes (n : Nat) (x : PortState) : List Byte :=
  (x.parseIn.drop x.parsePos).take n

/-- The decoder over PARSE_IN, at most `k` reads and then the check (R161, R170). -/
def parseLoop : Nat → PortState → PortState × DecodeOutcome
  | 0, x => ({ x with dstate := .idle }, checkOutcome x)
  | k + 1, x =>
    let r := parseBytes (readSize x) x
    match decoderTake r { x with parsePos := x.parsePos + r.length } with
    | (x', some o) => (x', o)
    | (x', none) => parseLoop k x'

/-- `decode_frame(p, parse_read, on_wire = false)` from the start of the request's bytes: five reads at most (R161, R170). -/
def parseRun (d : List Byte) (x : PortState) : PortState × DecodeOutcome :=
  parseLoop 5 { x with parseIn := d, parsePos := 0, dstate := .sync }

end Sys2Proof.Machine
end

