-- ==== Sys2Proof/Machine/Exchange.lean ====
section
/-! DEFINITION. The steps that operations are made of: the lock-free operation, and the exchange under the lock
(spec/44_serializer.md R191, R199 to R207). -/

namespace Sys2Proof.Machine

/-- A lock-free operation of the moving port (R191): it starts with `PHASE <- RUN`, runs in one step, and posts its response
in the next. -/
def lockFree (body : Port → State → State) (s : State) : Result :=
  match (s.port s.cur).phase with
  | .idle => .next (s.setPhase s.cur .run)
  | .run => .next (body s.cur s)
  | .done r => .next (complete s.cur r s)
  | _ => .fault .phaseNotOfOperation

/-- The first lines of `exchange` (R200): the frame is built and the port waits for the lock; ENC_ERR ends here. -/
def beginExchange (p : Port) (c : Byte) (d : List Byte) (s : State) : State :=
  match encodeFrame c d with
  | none => finish p (encErrResponse d.length) s
  | some (f, _) => (loadFrame p f s).setPhase p .waitGrant

/-- The sample of RUNNING, the value current at the grant (R199, R200, spec/70_reset_and_hazards.md R285): 0 completes
CANCELLED and gives the lock back. -/
def sampleStep (p : Port) (cancelled : Response) (s : State) : State :=
  if s.sampled then s.upd p (fun x => { x with phase := .flush, flushed := 0 })
  else complete p cancelled s

/-- Whether the exchange of command byte `c` flushes (R201). -/
def flushes (c : Byte) (s : State) : Bool :=
  c == Config.statusReq || s.config.flushAll

/-- The flush itself (R201): drain, count, and log what was found. -/
def flushBytes (p : Port) (s : State) : State :=
  let drained := s.rxfifo
  let s1 := (rxDrain s).upd p (fun x => { x with flushed := drained.length })
  if drained = [] then s1 else appendDiag ⟨.unexpectedBytes, p, drained⟩ s1

/-- Phase FLUSH (R200, R201). -/
def flushStep (p : Port) (c : Byte) (s : State) : State :=
  (if flushes c s then flushBytes p s else s).setPhase p .tx

/-- Phase TX (R200): the whole frame in one step, then the decoder starts. -/
def txStep (p : Port) (s : State) : State :=
  let x := s.port p
  (txWrite (x.txbuf.take x.txlen.toNat) s).upd p
    (fun x => { x with phase := .rx, dstate := .sync, got := [] })

/-- A wire decode that ends SYNC_ERR is logged (spec/43_decoder.md R162). -/
def noteSyncLoss (p : Port) (o : DecodeOutcome) (s : State) : State :=
  match o with
  | .syncErr b => appendDiag ⟨.syncLoss, p, [b]⟩ s
  | _ => s

/-- The decoder takes what its read returned, and hands an outcome to the operation. -/
def deliverRead (ending : Port → DecodeOutcome → State → State) (p : Port) (s : State) : State :=
  let x := s.port p
  match decoderTake x.got { x with got := [] } with
  | (x', none) => s.setPort p x'
  | (x', some o) => ending p o (noteSyncLoss p o (s.setPort p x'))

/-- Phase RX (R200): one step of `RxRead` (spec/20_memory.md R64). A read that has its bytes returns; else it takes a byte;
else, with RXFIFO empty, it times out if this step's draw says so, and waits if not. -/
def rxStep (ending : Port → DecodeOutcome → State → State) (p : Port) (s : State) : State :=
  let x := s.port p
  if readSize x ≤ x.got.length then deliverRead ending p s
  else
    match s.rxfifo with
    | b :: rest => { s with rxfifo := rest }.setPort p { x with got := x.got ++ [b] }
    | [] => if s.draw then deliverRead ending p s else s

/-- An operation that performs exchanges, one step of the moving port: `start` runs at acceptance, `cancelled` is the response
of a sample that reads 0, and `ending` takes the outcome of the decode (R200). A port that waits for the lock stays as it is. -/
def exchangeOp (c : Byte) (start : Port → State → State) (cancelled : PortState → Response)
    (ending : Port → DecodeOutcome → State → State) (s : State) : Result :=
  match (s.port s.cur).phase with
  | .idle => .next (start s.cur s)
  | .waitGrant =>
    .next (if s.lockOwner = some s.cur then sampleStep s.cur (cancelled (s.port s.cur)) s else s)
  | .flush => .next (flushStep s.cur c s)
  | .tx => .next (txStep s.cur s)
  | .rx => .next (rxStep ending s.cur s)
  | .done r => .next (complete s.cur r s)
  | .run => .fault .phaseNotOfOperation

/-! ### XCHG -/

/-- XCHG completes with the decode outcome and the count flushed (R200). -/
def xchgEnding (p : Port) (o : DecodeOutcome) (s : State) : State :=
  finish p (o.response none (some (s.port p).flushed) none) s

/-- XCHG of command byte `c` and payload `d` (R200). -/
def runXchg (c : Byte) (d : List Byte) (s : State) : Result :=
  exchangeOp c (fun p => beginExchange p c d) (fun _ => cancelledFlushed) xchgEnding s

/-! ### XCHG_ACK -/

/-- The head of the retry loop (R205): out of attempts, or one more exchange. -/
def ackLoop (c : Byte) (d : List Byte) (p : Port) (s : State) : State :=
  let x := s.port p
  if x.attempts = s.config.maxAckAttempts then complete p (exhaustedResponse x.attempts x.last) s
  else beginExchange p c d s

/-- The start of XCHG_ACK (R205): ENC_ERR before any attempt, else the counter is zeroed and the loop entered. -/
def ackStart (c : Byte) (d : List Byte) (p : Port) (s : State) : State :=
  if d.length > Config.dataMax then finish p (encErrResponse d.length) s
  else ackLoop c d p (s.upd p (fun x => { x with attempts := 0, last := none }))

/-- An attempt is acknowledged iff its outcome is OK with status 0x50 (R205, D17). -/
def isAck : DecodeOutcome → Bool
  | .ok st _ => st == Config.ack
  | _ => false

/-- The end of an attempt (R205): counted; an ACK completes the operation, any other outcome gives the lock back and goes
round the loop. -/
def ackEnding (c : Byte) (d : List Byte) (p : Port) (o : DecodeOutcome) (s : State) : State :=
  let s1 := s.upd p (fun x => { x with attempts := x.attempts + 1 })
  let x := s1.port p
  if isAck o then finish p (o.response none (some x.flushed) (some x.attempts)) s1
  else ackLoop c d p (releaseLock p (s1.upd p (fun x => { x with last := some o.code })))

/-- XCHG_ACK of command byte `c` and payload `d` (R205). -/
def runXchgAck (c : Byte) (d : List Byte) (s : State) : Result :=
  exchangeOp c (ackStart c d) (fun x => cancelledAttempts x.attempts) (ackEnding c d) s

/-! ### XCHG_ECHO -/

/-- Whether the outcome is the echo that was asked for (R207). -/
def isEcho (c : Byte) (d : List Byte) (o : DecodeOutcome) (s : State) : Bool :=
  match o with
  | .ok st r => st == echoRead s.config.echo c && r == d
  | _ => false

/-- The response of ACK_ERR (R207, spec/60_exceptions.md R238). -/
def ackErrResponse (c : Byte) (o : DecodeOutcome) : Response :=
  { code := .ackErr, info := { detail := .echo c o.code o.status o.data } }

/-- The end of XCHG_ECHO's exchange (R207): decode errors pass through, the echo completes OK, any other answer is ACK_ERR. -/
def echoEnding (c : Byte) (d : List Byte) (p : Port) (o : DecodeOutcome) (s : State) : State :=
  if o.code.isError || isEcho c d o s then finish p (o.response none (some (s.port p).flushed) none) s
  else finish p (ackErrResponse c o) s

/-- XCHG_ECHO of command byte `c` and payload `d` (R207). -/
def runXchgEcho (c : Byte) (d : List Byte) (s : State) : Result :=
  exchangeOp c (fun p => beginExchange p c d) (fun _ => cancelledFlushed) (echoEnding c d) s

end Sys2Proof.Machine
end

