-- ==== Sys2Proof/Machine/Codec.lean ====
section
/-! DEFINITION. The meanings of ENCODE (spec/42_encoder.md R151), PARSE (spec/43_decoder.md R170) and the reserved operations
(spec/60_exceptions.md R239). -/

namespace Sys2Proof.Machine

/-- The body of ENCODE (R151): the frame and its CRC, or ENC_ERR. -/
def encodeBody (c : Byte) (d : List Byte) (p : Port) (s : State) : State :=
  match encodeFrame c d with
  | none => finish p (encErrResponse d.length) s
  | some (f, v) => finish p { code := .ok, value := v, data := f } (loadFrame p f s)

/-- ENCODE (R151). -/
def execEncode (c : Byte) (d : List Byte) (s : State) : Result :=
  lockFree (encodeBody c d) s

/-- The body of PARSE (R170): the decoder over the request's bytes. -/
def parseBody (d : List Byte) (p : Port) (s : State) : State :=
  let run := parseRun d (s.port p)
  finish p (run.2.response (some run.1.parsePos) none none) (s.setPort p run.1)

/-- PARSE (R170). -/
def execParse (d : List Byte) (s : State) : Result :=
  lockFree (parseBody d) s

/-- RESERVED_OP (R239): completes ILLEGAL_OP at once, whatever its header and data. -/
def execReservedOp (_h : Header) (_d : List Byte) (s : State) : Result :=
  .next (completeIllegal s.cur s)

end Sys2Proof.Machine
end

