-- ==== Sys2Proof/Machine/Crc.lean ====
section
/-! DEFINITION. The meanings of the CRC engine's operations (spec/41_crc.md R136 to R138). -/

namespace Sys2Proof.Machine

/-- `x[p].CRC <- v; complete OK(value = v)`. -/
def writeCrc (p : Port) (v : Half) (s : State) : State :=
  finish p (okValue v) (s.upd p (fun x => { x with crc := v }))

/-- CRC_INIT (R136). -/
def execCrcInit (s : State) : Result :=
  lockFree (fun p s => writeCrc p Config.crcInit s) s

/-- CRC_BYTE (R137). -/
def execCrcByte (b : Byte) (s : State) : Result :=
  lockFree (fun p s => writeCrc p (crcStep (s.port p).crc b) s) s

/-- CRC16 (R138). -/
def execCrc16 (d : List Byte) (s : State) : Result :=
  lockFree (fun p s => writeCrc p (crc16 d) s) s

end Sys2Proof.Machine
end

