-- ==== Sys2Proof/Machine/Wire.lean ====
section
/-! DEFINITION. The meanings of the three exchange operations (spec/44_serializer.md R200, R205, R207) and of the sixteen wire
command rows (spec/30_encoding.md R102): each row is the exchange that its syntax names, with its command byte. -/

namespace Sys2Proof.Machine

/-- XCHG (R200). -/
def execXchg (c : Byte) (d : List Byte) (s : State) : Result := runXchg c d s

/-- XCHG_ACK (R205). -/
def execXchgAck (c : Byte) (d : List Byte) (s : State) : Result := runXchgAck c d s

/-- XCHG_ECHO (R207). -/
def execXchgEcho (c : Byte) (d : List Byte) (s : State) : Result := runXchgEcho c d s

/-- STATUS_REQ, `XCHG` of 0x11 (R102). -/
def execStatusReq (d : List Byte) (s : State) : Result := runXchg 0x11 d s

/-- RESET, `XCHG_ACK` of 0x40 (R102). -/
def execReset (d : List Byte) (s : State) : Result := runXchgAck 0x40 d s

/-- STACK_1, `XCHG_ACK` of 0x41 (R102). -/
def execStack1 (d : List Byte) (s : State) : Result := runXchgAck 0x41 d s

/-- STACK_2, `XCHG` of 0x42 (R102). -/
def execStack2 (d : List Byte) (s : State) : Result := runXchg 0x42 d s

/-- RETURN, `XCHG_ACK` of 0x43 (R102). -/
def execReturnBill (d : List Byte) (s : State) : Result := runXchgAck 0x43 d s

/-- HOLD, `XCHG` of 0x44 (R102). -/
def execHold (d : List Byte) (s : State) : Result := runXchg 0x44 d s

/-- WAIT, `XCHG` of 0x45 (R102). -/
def execWait (d : List Byte) (s : State) : Result := runXchg 0x45 d s

/-- ACK, `XCHG` of 0x50 (R102). -/
def execAck (d : List Byte) (s : State) : Result := runXchg 0x50 d s

/-- GET_VERSION, `XCHG` of 0x88 (R102). -/
def execGetVersion (d : List Byte) (s : State) : Result := runXchg 0x88 d s

/-- SET_DENOM, `XCHG_ECHO` of 0xC0 (R102). -/
def execSetDenom (d : List Byte) (s : State) : Result := runXchgEcho 0xC0 d s

/-- SET_SECURITY, `XCHG_ECHO` of 0xC1 (R102). -/
def execSetSecurity (d : List Byte) (s : State) : Result := runXchgEcho 0xC1 d s

/-- SET_INHIBIT, `XCHG_ECHO` of 0xC3 (R102). -/
def execSetInhibit (d : List Byte) (s : State) : Result := runXchgEcho 0xC3 d s

/-- SET_DIRECTION, `XCHG_ECHO` of 0xC4 (R102). -/
def execSetDirection (d : List Byte) (s : State) : Result := runXchgEcho 0xC4 d s

/-- SET_OPT_FUNC, `XCHG_ECHO` of 0xC5 (R102). -/
def execSetOptFunc (d : List Byte) (s : State) : Result := runXchgEcho 0xC5 d s

/-- SET_BAR_FUNC, `XCHG_ECHO` of 0xC6 (R102). -/
def execSetBarFunc (d : List Byte) (s : State) : Result := runXchgEcho 0xC6 d s

/-- SET_BAR_INHIBIT, `XCHG_ECHO` of 0xC7 (R102). -/
def execSetBarInhibit (d : List Byte) (s : State) : Result := runXchgEcho 0xC7 d s

end Sys2Proof.Machine
end

