-- ==== Sys2Proof/Machine/Dispatch.lean ====
section
/-! DEFINITION. The meaning of every instruction: one step of the port that moves, on the instruction it has latched. -/

namespace Sys2Proof.Machine

def exec (i : Instr) (s : State) : Host.Outcome State Fault Refusal :=
  match i with
  | .crcInit => Sys2Proof.Machine.execCrcInit s
  | .crcByte b => Sys2Proof.Machine.execCrcByte b s
  | .crc16 d => Sys2Proof.Machine.execCrc16 d s
  | .encode c d => Sys2Proof.Machine.execEncode c d s
  | .parse d => Sys2Proof.Machine.execParse d s
  | .xchg c d => Sys2Proof.Machine.execXchg c d s
  | .xchgAck c d => Sys2Proof.Machine.execXchgAck c d s
  | .xchgEcho c d => Sys2Proof.Machine.execXchgEcho c d s
  | .reservedOp h d => Sys2Proof.Machine.execReservedOp h d s
  | .statusReq d => Sys2Proof.Machine.execStatusReq d s
  | .reset d => Sys2Proof.Machine.execReset d s
  | .stack1 d => Sys2Proof.Machine.execStack1 d s
  | .stack2 d => Sys2Proof.Machine.execStack2 d s
  | .returnBill d => Sys2Proof.Machine.execReturnBill d s
  | .hold d => Sys2Proof.Machine.execHold d s
  | .wait d => Sys2Proof.Machine.execWait d s
  | .ack d => Sys2Proof.Machine.execAck d s
  | .getVersion d => Sys2Proof.Machine.execGetVersion d s
  | .setDenom d => Sys2Proof.Machine.execSetDenom d s
  | .setSecurity d => Sys2Proof.Machine.execSetSecurity d s
  | .setInhibit d => Sys2Proof.Machine.execSetInhibit d s
  | .setDirection d => Sys2Proof.Machine.execSetDirection d s
  | .setOptFunc d => Sys2Proof.Machine.execSetOptFunc d s
  | .setBarFunc d => Sys2Proof.Machine.execSetBarFunc d s
  | .setBarInhibit d => Sys2Proof.Machine.execSetBarInhibit d s

end Sys2Proof.Machine
end

