-- ==== Sys2Proof/Machine/Agents.lean ====
section
/-! DEFINITION. The agents (spec/44_serializer.md R190): the sequencer of a port, the arbiter, the device and the host, and
which of them moves next. -/

namespace Sys2Proof.Machine

/-! ### The sequencer of a port -/

/-- Acceptance (spec/44_serializer.md R191): BUSY is set, the request latched and REQ emptied, in one step. -/
def acceptRequest (p : Port) (r : Request) (s : State) : State :=
  s.upd p (fun x => { x with busy := true, latch := some r, req := none })

/-- The moving port runs the request it has accepted: its instruction, or ILLEGAL_OP at once for an illegal header
(spec/30_encoding.md R99, spec/44_serializer.md R191). -/
def runRequest (p : Port) (r : Request) (s : State) : Result :=
  match decode r with
  | .ok i => exec i s
  | .error .dataCount => .refused .notARequest
  | .error _ => .next (completeIllegal p s)

/-- One step of the sequencer of port `p`: a busy port goes on with the request it has latched, a free port accepts the
request presented to it, and a free port without a request has nothing to do. -/
def portStep (p : Port) (s : State) : Result :=
  let x := s.port p
  if x.busy then
    match x.latch with
    | some r => runRequest p r s
    | none => .fault .nothingLatched
  else
    match x.req with
    | some r => runRequest p r (acceptRequest p r s)
    | none => .next s

/-! ### The host -/

/-- The host presents a request (spec/10_state.md R31). -/
def hostPresent (p : Port) (r : Request) (s : State) : Result :=
  let x := s.port p
  if x.req.isSome || x.busy then .refused .portNotFree
  else if r.countOk then .next (s.upd p (fun x => { x with req := some r }))
  else .refused .notARequest

/-- A host write of one field of CONFIG, or `none` for a value outside the field's legal set (spec/10_state.md R46). -/
def writeConfig (w : Config.Write) (c : ConfigRecord) : Option ConfigRecord :=
  match w with
  | .tRead n => if 0 < n then some { c with tRead := n } else none
  | .baud n =>
    if n = 9600 then some { c with baud := .b9600 } else if n = 19200 then some { c with baud := .b19200 } else none
  | .dataBits n => if n = 8 then some { c with dataBits := n } else none
  | .parity p => some { c with parity := p }
  | .stopBits n => some { c with stopBits := n }
  | .maxAckAttempts n => if 0 < n then some { c with maxAckAttempts := n } else none
  | .echo a v => some { c with echo := echoWrite a v c.echo }
  | .flushAll b => some { c with flushAll := b }

/-- The host writes CONFIG, which it may do only while both ports are idle (R46, spec/70_reset_and_hazards.md R286). -/
def hostConfig (w : Config.Write) (s : State) : Result :=
  if s.poll.busy || s.cmd.busy then .refused .configWhileBusy
  else
    match writeConfig w s.config with
    | some c => .next { s with config := c }
    | none => .refused .configNotLegal

/-- The host applies reset (spec/70_reset_and_hazards.md R270, R271): every register takes its reset value and RXFIFO is not
cleared. The model's own list of inputs goes on. -/
def hostReset (s : State) : State :=
  { State.reset with rxfifo := s.rxfifo, inputs := s.inputs, tick := s.tick }

/-! ### One step of one agent -/

/-- The step of the agent that moves. -/
def agentStep (e : Config.Event) (s : State) : Result :=
  match e with
  | .port p timeout => portStep p { s with cur := p, draw := timeout }
  | .grant p => .next (grantLock p s)
  | .device b => .next (deviceSend b s)
  | .present p r => hostPresent p r s
  | .setRunning b => .next { s with running := b }
  | .setConfig w => hostConfig w s
  | .reset => .next (hostReset s)

/-- Which agent moves next: the first input listed, or a free choice when none is (notes/assumptions/1.md, 2.md). -/
def nextEvent (s : State) : Config.Event :=
  match s.inputs with
  | e :: _ => e
  | [] => Config.freeEvent s.tick

/-- The state once that choice has been taken off the list, or the counter of free choices moved on. -/
def afterChoice (s : State) : State :=
  match s.inputs with
  | _ :: rest => { s with inputs := rest }
  | [] => { s with tick := s.tick + 1 }

/-- One step of the machine. -/
def agentsStep (s : State) : Result :=
  agentStep (nextEvent s) (afterChoice s)

/-- A request standing on port CMD, the port of a request that names none (spec/30_encoding.md R107), which is free, and whose
sequencer moves next. -/
def presentNext (r : Request) (s : State) : State :=
  let s1 := s.upd .cmd (fun x => { x with req := some r, latch := none, busy := false, phase := .idle })
  { s1 with inputs := .port .cmd false :: s1.inputs }

end Sys2Proof.Machine
end

