-- ==== Sys2Proof/Machine/Step.lean ====
section
/-! DEFINITION. One step of the machine, and the state in which its next step runs a given table word. -/

namespace Sys2Proof.Machine

/-- One step of the agent that moves next (spec/44_serializer.md R190). -/
def step (s : State) : Host.Outcome State Fault Refusal :=
  agentsStep s

/-- The request of a table word, presented on port CMD with that port's sequencer to move next (notes/assumptions/14.md). -/
def State.withFetchWord (s : State) (nbits w : Nat) : State :=
  presentNext (requestOfWord nbits w) s

end Sys2Proof.Machine
end

