-- ==== Sys2Proof/Safety.lean ====
section
/-! DEFINITION. What counts as a good state, in the terms the statements use: the sequencers and the lock agree, the buffers
and the decoder agree, the configuration is legal, and the retry count is below its bound. -/

namespace Sys2Proof.Machine

/-- Instructions that take no lock (spec/44_serializer.md R191): the five of CRC engine, encoder and decoder. -/
def lockFreeInstr : Instr → Bool
  | .crcInit => true
  | .crcByte _ => true
  | .crc16 _ => true
  | .encode _ _ => true
  | .parse _ => true
  | _ => false

/-- Instructions that perform exchanges: XCHG, XCHG_ACK, XCHG_ECHO and the sixteen wire command rows. -/
def exchangeInstr (i : Instr) : Bool := (exchangeOperands i).isSome

/-- The phases in which the channel is touched (spec/44_serializer.md R197). -/
def Phase.onChannel : Phase → Bool
  | .flush => true
  | .tx => true
  | .rx => true
  | _ => false

/-- The phases in which a port may hold the lock: from the grant to the completion (R194). -/
def Phase.mayHoldLock : Phase → Bool
  | .idle => false
  | .run => false
  | _ => true

/-- The phases of an exchange before its outcome is known. -/
def Phase.inExchange : Phase → Bool
  | .waitGrant => true
  | .flush => true
  | .tx => true
  | .rx => true
  | _ => false

/-- The phases that the operation of instruction `i` enters while its port is busy (spec/10_state.md R35). -/
def phaseFits (i : Instr) (ph : Phase) : Bool :=
  match ph with
  | .idle => false
  | .run => lockFreeInstr i
  | .done _ => lockFreeInstr i || exchangeInstr i
  | _ => exchangeInstr i

/-- A free port is idle with nothing latched; a busy port has latched an instruction and is in one of its phases. -/
def PortSequenced (x : PortState) : Prop :=
  (x.busy = false → x.phase = .idle ∧ x.latch = none) ∧
  (x.busy = true → ∃ r i, x.latch = some r ∧ decode r = .ok i ∧ phaseFits i x.phase = true)

/-- A port that touches the channel owns the lock and was granted it while RUNNING was 1, and the owner is between its grant
and its completion (spec/44_serializer.md R194, R197, R199). A lock-free operation never owns it. -/
def PortLocked (s : State) (p : Port) : Prop :=
  ((s.port p).phase.onChannel = true → s.lockOwner = some p ∧ s.sampled = true) ∧
  (s.lockOwner = some p → (s.port p).phase.mayHoldLock = true ∧
    ∀ r i, (s.port p).latch = some r → decode r = .ok i → exchangeInstr i = true)

/-- The sequencers and the lock agree. -/
def SequencerInv (s : State) : Prop :=
  (∀ p, PortSequenced (s.port p)) ∧ ∀ p, PortLocked s p

/-- The exchange of port `p` is past its sample point with RUNNING = 1 and its outcome is not known yet: it owns the lock, and
was granted it while RUNNING was 1 (spec/44_serializer.md R199, R209, spec/70_reset_and_hazards.md R285). -/
def Admitted (s : State) (p : Port) : Prop :=
  s.lockOwner = some p ∧ s.sampled = true ∧ ((s.port p).phase = .waitGrant ∨ (s.port p).phase.onChannel = true)

/-- The buffers hold what their lengths say, and the decoder is idle but in phase RX (spec/10_state.md R36 to R40,
spec/43_decoder.md R161 to R167). -/
def BuffersOk (x : PortState) : Prop :=
  x.txbuf.length = x.txlen.toNat ∧
  x.ddata.length ≤ Config.dataMax ∧
  x.parsePos ≤ x.parseIn.length ∧ x.parseIn.length ≤ 255 ∧
  (x.phase ≠ .rx → x.dstate = .idle) ∧
  x.got.length ≤ readSize x ∧
  (x.dstate = .cmd ∨ x.dstate = .data ∨ x.dstate = .crc ∨ x.dstate = .check → Config.overhead ≤ x.dlen.toNat) ∧
  (x.dstate = .crc ∨ x.dstate = .check → x.ddata.length + Config.overhead = x.dlen.toNat)

/-- The buffers of both ports are as they should be. -/
def BuffersInv (s : State) : Prop := ∀ p, BuffersOk (s.port p)

/-- Every field of CONFIG has a legal value (spec/10_state.md R46). -/
def ConfigInv (s : State) : Prop :=
  0 < s.config.tRead ∧ s.config.dataBits = 8 ∧ 0 < s.config.maxAckAttempts ∧ echoWf s.config.echo = true

/-- An XCHG_ACK that is performing an exchange has made fewer attempts than its bound (spec/10_state.md R39). -/
def AttemptsInv (s : State) : Prop :=
  ∀ p r i c d, (s.port p).latch = some r → decode r = .ok i → exchangeOperands i = some (.untilAck, c, d) →
    (s.port p).phase.inExchange = true → (s.port p).attempts < s.config.maxAckAttempts

/-- The registers of a port once its response is posted (spec/44_serializer.md R192). -/
def posted (r : Response) (x : PortState) : PortState :=
  { x with rsp := some r, phase := .idle, busy := false, latch := none }

/-- The whole frame of command byte `c` and payload `d` (spec/30_encoding.md R90). -/
def wholeFrame (c : Byte) (d : List Byte) : List Byte :=
  frameBody c d ++ [loByte (crc16 (frameBody c d)), hiByte (crc16 (frameBody c d))]

/-- The decoder's registers once it has read the whole frame of status `st` and payload `r` and ended
(spec/43_decoder.md R163 to R168). -/
def frameTaken (st : Byte) (r : List Byte) (x : PortState) : PortState :=
  { x with dstate := .idle, dlen := BitVec.ofNat 8 (r.length + 5), dcmd := st, ddata := r
           dcrc := crc16 (frameBody st r), got := [] }

/-- The illegal requests of spec/30_encoding.md R99, by the fields of R98. -/
def illegalRequest (r : Request) : Prop :=
  8 ≤ r.op.toNat ∨ r.rsv0 ≠ 0 ∨ r.rsv1 ≠ 0 ∨
  (r.op = 0 ∧ (r.cmd ≠ 0 ∨ r.n ≠ 0)) ∨ (r.op = 1 ∧ r.n ≠ 0) ∨ (r.op = 2 ∧ r.cmd ≠ 0) ∨ (r.op = 4 ∧ r.cmd ≠ 0)

/-- The response CANCELLED of an exchange operation of kind `k` on port registers `x` (spec/60_exceptions.md R230). -/
def cancelledOf (k : ExchangeKind) (x : PortState) : Response :=
  match k with
  | .plain => cancelledFlushed
  | .untilAck => cancelledAttempts x.attempts
  | .echo => cancelledFlushed

/-- The port is at the start of the RX phase, with the decoder in D_SYNC and nothing read (spec/44_serializer.md R200). -/
def atReceive (x : PortState) : Prop := x.phase = .rx ∧ x.dstate = .sync ∧ x.got = []

/-- The decoder's registers of `x'` put into port registers `x`, with the decode over and no byte of a read held: what a wire
decode leaves when a decode over the same bytes leaves `x'`. -/
def decoded (x' x : PortState) : PortState :=
  { x with dstate := .idle, dlen := x'.dlen, dcmd := x'.dcmd, ddata := x'.ddata, dcrc := x'.dcrc, got := [] }

/-- The outcomes that a read's timeout gives (spec/43_decoder.md R162 to R167). -/
def DecodeOutcome.waits : DecodeOutcome → Bool
  | .noResponse => true
  | .truncated _ _ => true
  | _ => false

/-- What a wire decode of port `p` that ends with outcome `o` appends to DIAG (spec/43_decoder.md R162). -/
def syncLossOf (p : Port) : DecodeOutcome → List DiagEvent
  | .syncErr b => [⟨.syncLoss, p, [b]⟩]
  | _ => []

/-- The state once the moving port's wire decode has ended with outcome `o`, when PARSE of the bytes waiting leaves `x'`: the
bytes PARSE consumes are gone from RXFIFO, SYNC_LOSS is logged, and the decoder's registers are those of `x'`. -/
def afterDecode (x' : PortState) (o : DecodeOutcome) (s : State) : State :=
  { s with rxfifo := s.rxfifo.drop x'.parsePos, diag := s.diag ++ syncLossOf s.cur o }.upd s.cur (decoded x')

/-- The state in which the sequencer of port `p` takes its step, once the choice of the agent has been made. -/
def moving (p : Port) (timeout : Bool) (s : State) : State :=
  { afterChoice s with cur := p, draw := timeout }

/-- `n` steps of the moving port on one instruction, with no other agent in between. -/
def execTimes (i : Instr) : Nat → State → Result
  | 0, s => .next s
  | n + 1, s =>
    match exec i s with
    | .next s' => execTimes i n s'
    | .fault f => .fault f
    | .refused r => .refused r

end Sys2Proof.Machine
end

