-- ==== Sys2Proof/Certificates/Slice0/Obligations.lean ====
section
/-! DEFINITION. The statements about the model. Each docstring names the rules of spec/ it rests on. The exchange instructions
are XCHG, XCHG_ACK, XCHG_ECHO, STATUS_REQ, RESET, STACK_1, STACK_2, RETURN, HOLD, WAIT, ACK, GET_VERSION, SET_DENOM,
SET_SECURITY, SET_INHIBIT, SET_DIRECTION, SET_OPT_FUNC, SET_BAR_FUNC and SET_BAR_INHIBIT: a statement over every `i` with
`exchangeOperands i = some (k, c, d)` is about each of these nineteen. The lock-free instructions are CRC_INIT, CRC_BYTE, CRC16,
ENCODE and PARSE. -/

open Sys2Proof Sys2Proof.Machine

/-! ### Requests and instructions -/

/-- spec/30_encoding.md R95 to R98: decoding the encoding of a well-formed instruction gives it back. -/
def Obligations.DecodeOfEncodeIsTheInstruction : Prop :=
  ∀ i : Instr, i.wellFormed = true → decode (encode i) = .ok i

/-- spec/30_encoding.md R99 (every header word is one operation or illegal): a request that decodes has one reading, a
well-formed instruction, and encoding it gives the request back. The choice of name is the model's, notes/assumptions/13.md. -/
def Obligations.EncodeOfDecodeIsTheRequest : Prop :=
  ∀ (r : Request) (i : Instr), decode r = .ok i → encode i = r ∧ i.wellFormed = true

/-- spec/30_encoding.md R98, R99: the requests that decode to none of the eight operations are the illegal ones. -/
def Obligations.IllegalRequestsAreThoseOfTheRule : Prop :=
  ∀ r : Request, r.countOk = true →
    ((∀ i, decode r = .ok i → ∃ h d, i = .reservedOp h d) ↔ illegalRequest r)

/-- spec/60_exceptions.md R239: an illegal request completes ILLEGAL_OP in the step that accepts it, and nothing else changes:
no other register of the port, not the other port, the lock, RUNNING, CONFIG, DIAG or the channel. -/
def Obligations.IllegalRequestWritesOnlyItsResponse : Prop :=
  ∀ (s : State) (p : Port) (b : Bool) (r : Request), SequencerInv s → nextEvent s = .port p b →
    (s.port p).busy = false → (s.port p).req = some r → r.countOk = true → illegalRequest r →
    step s = .next ((moving p b s).upd p
      (fun x => { x with req := none, rsp := some { code := .illegalOp }, phase := .idle, busy := false, latch := none }))

/-- spec/60_exceptions.md R239, the row RESERVED_OP: its own effect is the completion ILLEGAL_OP, whatever its bits. -/
def Obligations.ReservedOpCompletesIllegal : Prop :=
  ∀ (h : Header) (d : List Byte) (s : State), s.lockOwner ≠ some s.cur →
    exec (.reservedOp h d) s = .next (s.upd s.cur (posted { code := .illegalOp }))

/-- spec/30_encoding.md R97, R107, R102: words written out from the tables decode to their instructions. -/
def Obligations.WrittenWordsDecode : Prop :=
  decode ⟨0x00000000, []⟩ = .ok .crcInit ∧
  decode ⟨0x0000FC01, []⟩ = .ok (.crcByte 0xFC) ∧
  decode ⟨0x00020002, [0x12, 0x34]⟩ = .ok (.crc16 [0x12, 0x34]) ∧
  decode ⟨0x00011303, [0x63]⟩ = .ok (.encode 0x13 [0x63]) ∧
  decode ⟨0x00020004, [0xFC, 0x05]⟩ = .ok (.parse [0xFC, 0x05]) ∧
  decode ⟨0x00009905, []⟩ = .ok (.xchg 0x99 []) ∧
  decode ⟨0x00001105, []⟩ = .ok (.statusReq []) ∧
  decode ⟨0x00004006, []⟩ = .ok (.reset []) ∧
  decode ⟨0x0002C007, [0, 0]⟩ = .ok (.setDenom [0, 0]) ∧
  decode ⟨0x0000000F, []⟩ = .ok (.reservedOp 0x0000000F [])

/-! ### A step runs the decoded instruction -/

/-- spec/44_serializer.md R190, R191: the step of a busy port runs the instruction it has latched, on the state in which the
choice of the agent and its draw have been made. -/
def Obligations.StepOfBusyPortRunsLatchedInstruction : Prop :=
  ∀ (s : State) (p : Port) (b : Bool) (r : Request) (i : Instr), nextEvent s = .port p b →
    (s.port p).busy = true → (s.port p).latch = some r → decode r = .ok i →
    step s = exec i (moving p b s)

/-- spec/44_serializer.md R191: the step of a free port accepts the request presented to it (BUSY set, latched, REQ emptied)
and runs its instruction. -/
def Obligations.StepOfFreePortAcceptsAndRuns : Prop :=
  ∀ (s : State) (p : Port) (b : Bool) (r : Request) (i : Instr), nextEvent s = .port p b →
    (s.port p).busy = false → (s.port p).req = some r → decode r = .ok i →
    step s = exec i ((moving p b s).upd p (fun x => { x with busy := true, latch := some r, req := none }))

/-- The model's own fetch interface (notes/assumptions/14.md): the step after `withFetchWord` accepts and runs the instruction
that the decoder reads from the word, on port CMD, from any state. -/
def Obligations.FetchWordRunsItsInstruction : Prop :=
  ∀ (s : State) (nbits w : Nat) (i : Instr), decodeTableWord nbits w = some i →
    step (s.withFetchWord nbits w) =
      exec i ({ s with cur := .cmd, draw := false }.upd .cmd
        (fun x => { x with busy := true, latch := some (requestOfWord nbits w), req := none, phase := .idle }))

/-! ### The CRC engine -/

/-- spec/41_crc.md R132: every entry of the table ROM is the bit-serial step of its index from 0. -/
def Obligations.CrcTableIsBitSerial : Prop :=
  ∀ i : Byte, romRead i = crcBitStep 0x0000 i

/-- spec/41_crc.md R133: the table step, and its equality with the bit-serial step for all inputs. -/
def Obligations.CrcTableStepIsBitSerialStep : Prop :=
  ∀ (c : Half) (b : Byte),
    crcStep c b = (c >>> 8) ^^^ romRead ((c ^^^ b.setWidth 16).extractLsb' 0 8) ∧ crcStep c b = crcBitStep c b

/-- spec/41_crc.md R139 (2), (3): appending two bytes to a message gives residue 0 iff they are its CRC, low byte first. -/
def Obligations.CrcResidueIsZeroIffTrailerMatches : Prop :=
  ∀ (m : List Byte) (lo hi : Byte), crc16 (m ++ [lo, hi]) = 0 ↔ halfOf lo hi = crc16 m

/-- spec/41_crc.md R139 (4): the CRC is linear over GF(2) on sequences of one length. -/
def Obligations.CrcIsLinear : Prop :=
  ∀ a b : List Byte, a.length = b.length → crc16 (List.zipWith (· ^^^ ·) a b) = crc16 a ^^^ crc16 b

/-- spec/41_crc.md R139 (5): a change of exactly one byte changes the CRC. -/
def Obligations.CrcDetectsSingleByteChange : Prop :=
  ∀ (m : List Byte) (k : Nat) (b : Byte), (h : k < m.length) → b ≠ m[k] → crc16 (m.set k b) ≠ crc16 m

/-- spec/41_crc.md R136: CRC_INIT clears the port's accumulator and answers 0; nothing else changes.
The choice of the phase DONE after RUN, and so of three steps from acceptance to response, is
the model's, notes/assumptions/6.md. -/
def Obligations.CrcInitClearsTheAccumulator : Prop :=
  ∀ s : State,
    ((s.port s.cur).phase = .run →
      exec .crcInit s = .next (s.upd s.cur (fun x => { x with crc := 0, phase := .done (okValue 0) }))) ∧
    ((s.port s.cur).phase = .idle → s.lockOwner ≠ some s.cur →
      execTimes .crcInit 3 s = .next (s.upd s.cur (fun x => { posted (okValue 0) x with crc := 0 })))

/-- spec/41_crc.md R137: CRC_BYTE folds its byte into the port's accumulator by the bit-serial step of R131 and answers the new
value; nothing else changes. The choice of the phase DONE after RUN, and so of three steps from acceptance to response, is
the model's, notes/assumptions/6.md. -/
def Obligations.CrcByteFoldsOneByte : Prop :=
  ∀ (s : State) (b : Byte),
    let v := crcBitStep (s.port s.cur).crc b
    ((s.port s.cur).phase = .run →
      exec (.crcByte b) s = .next (s.upd s.cur (fun x => { x with crc := v, phase := .done (okValue v) }))) ∧
    ((s.port s.cur).phase = .idle → s.lockOwner ≠ some s.cur →
      execTimes (.crcByte b) 3 s = .next (s.upd s.cur (fun x => { posted (okValue v) x with crc := v })))

/-- spec/41_crc.md R138, R135: CRC16 leaves and answers the bit-serial CRC of its data from 0; nothing else
changes. The choice of the phase DONE after RUN, and so of three steps from acceptance to response, is
the model's, notes/assumptions/6.md. -/
def Obligations.Crc16ChecksumsItsData : Prop :=
  ∀ (s : State) (d : List Byte),
    let v := d.foldl crcBitStep 0
    ((s.port s.cur).phase = .run →
      exec (.crc16 d) s = .next (s.upd s.cur (fun x => { x with crc := v, phase := .done (okValue v) }))) ∧
    ((s.port s.cur).phase = .idle → s.lockOwner ≠ some s.cur →
      execTimes (.crc16 d) 3 s = .next (s.upd s.cur (fun x => { posted (okValue v) x with crc := v })))

/-- spec/44_serializer.md R191: a lock-free instruction starts with `PHASE <- RUN` and nothing else. -/
def Obligations.LockFreeInstructionStartsInRun : Prop :=
  ∀ (i : Instr) (s : State), lockFreeInstr i = true → (s.port s.cur).phase = .idle →
    exec i s = .next (s.upd s.cur (fun x => { x with phase := .run }))

/-! ### Encoder and decoder -/

/-- spec/42_encoder.md R150, R151: ENCODE of at most 250 bytes loads and answers the frame and its CRC; nothing else changes,
spec/44_serializer.md R192. The choice of the phase DONE after RUN, and so of three steps from acceptance to response, is
the model's, notes/assumptions/6.md. -/
def Obligations.EncodeBuildsTheFrame : Prop :=
  ∀ (s : State) (c : Byte) (d : List Byte), d.length ≤ 250 →
    let v := crc16 ([0xFC, BitVec.ofNat 8 (5 + d.length), c] ++ d)
    let f := [0xFC, BitVec.ofNat 8 (5 + d.length), c] ++ d ++ [v.extractLsb' 0 8, v.extractLsb' 8 8]
    let r : Response := { code := .ok, value := v, data := f }
    ((s.port s.cur).phase = .run →
      exec (.encode c d) s = .next (s.upd s.cur
        (fun x => { x with txbuf := f, txlen := BitVec.ofNat 8 (5 + d.length), phase := .done r }))) ∧
    ((s.port s.cur).phase = .idle → s.lockOwner ≠ some s.cur →
      execTimes (.encode c d) 3 s = .next (s.upd s.cur
        (fun x => { posted r x with txbuf := f, txlen := BitVec.ofNat 8 (5 + d.length) })))

/-- spec/42_encoder.md R152: every frame the encoder produces is valid. -/
def Obligations.EncodedFrameIsValid : Prop :=
  ∀ (c : Byte) (d f : List Byte) (v : Half), encodeFrame c d = some (f, v) →
    f.head? = some 0xFC ∧ f[1]? = some (BitVec.ofNat 8 f.length) ∧ f.length = 5 + d.length ∧ f.length ≤ 255 ∧
    f.drop (5 + d.length - 2) =
      [(crc16 (f.take (5 + d.length - 2))).extractLsb' 0 8, (crc16 (f.take (5 + d.length - 2))).extractLsb' 8 8] ∧
    crc16 f = 0x0000

/-- spec/42_encoder.md R153: for every command byte and payload of at most 250 bytes, PARSE of the encoded frame, whatever
follows it, completes OK with the command byte, the payload and the frame's length consumed, in some number of steps. -/
def Obligations.ParseOfEncodedFrameRoundTrips : Prop :=
  ∀ (c : Byte) (d : List Byte), d.length ≤ 250 → ∃ f v, encodeFrame c d = some (f, v) ∧
    ∀ (rest : List Byte) (s : State), (s.port s.cur).phase = .idle → s.lockOwner ≠ some s.cur →
      ∃ n t, execTimes (.parse (f ++ rest)) n s = .next t ∧
        (t.port s.cur).rsp =
          some { code := .ok, status := some c, data := d, info := { consumed := some (5 + d.length) } } ∧
        (t.port s.cur).busy = false ∧ (t.port s.cur).phase = .idle

/-- spec/43_decoder.md R160 to R169: the outcome of a PARSE, the bytes it consumes, and what it leaves in DLEN, DCMD, DDATA and
DCRC, by the bytes it is given. -/
def Obligations.ParseOutcomeIsDecidedByItsBytes : Prop :=
  ∀ (x : PortState) (b l c : Byte) (d k rest : List Byte) (lo hi : Byte),
    let run := fun m => ((parseRun m x).2, (parseRun m x).1.parsePos)
    let regs := fun m =>
      ((parseRun m x).1.dlen, (parseRun m x).1.dcmd, (parseRun m x).1.ddata, (parseRun m x).1.dcrc)
    (run [] = (.noResponse, 0) ∧ regs [] = (x.dlen, x.dcmd, x.ddata, x.dcrc)) ∧
    (run (0x00 :: rest) = (.noop, 1) ∧ regs (0x00 :: rest) = (x.dlen, x.dcmd, x.ddata, x.dcrc)) ∧
    (b ≠ 0x00 → b ≠ 0xFC →
      run (b :: rest) = (.syncErr b, 1) ∧ regs (b :: rest) = (x.dlen, x.dcmd, x.ddata, x.dcrc)) ∧
    (run [0xFC] = (.truncated .len 0, 1) ∧ regs [0xFC] = (x.dlen, x.dcmd, x.ddata, x.dcrc)) ∧
    (l.toNat < 5 →
      run (0xFC :: l :: rest) = (.lenErr l, 2) ∧ regs (0xFC :: l :: rest) = (l, x.dcmd, x.ddata, x.dcrc)) ∧
    (5 ≤ l.toNat → run [0xFC, l] = (.truncated .cmd 0, 2) ∧ regs [0xFC, l] = (l, x.dcmd, x.ddata, x.dcrc)) ∧
    (5 ≤ l.toNat → d.length < l.toNat - 5 →
      run (0xFC :: l :: c :: d) = (.truncated .data d.length, 3 + d.length) ∧
      regs (0xFC :: l :: c :: d) = (l, c, x.ddata, x.dcrc)) ∧
    (5 ≤ l.toNat → d.length = l.toNat - 5 → k.length < 2 →
      run (0xFC :: l :: c :: (d ++ k)) = (.truncated .crc k.length, 3 + d.length + k.length) ∧
      regs (0xFC :: l :: c :: (d ++ k)) = (l, c, d, x.dcrc)) ∧
    (5 ≤ l.toNat → d.length = l.toNat - 5 →
      run (0xFC :: l :: c :: (d ++ lo :: hi :: rest)) =
        (if crc16 (0xFC :: l :: c :: d) = halfOf lo hi then .ok c d
         else .crcErr (halfOf lo hi) (crc16 (0xFC :: l :: c :: d)), l.toNat) ∧
      regs (0xFC :: l :: c :: (d ++ lo :: hi :: rest)) = (l, c, d, halfOf lo hi))

/-- spec/43_decoder.md R170: PARSE completes on any data with the decoder's outcome and the count consumed; it writes PARSE's and
the decoder's registers and nothing else; the values it leaves in DLEN, DCMD, DDATA and DCRC, those of `x'`, are the subject of
ParseOutcomeIsDecidedByItsBytes. One step for all its reads is the model's choice, notes/assumptions/19.md, and so are the phase
DONE after RUN and the three steps, notes/assumptions/6.md. -/
def Obligations.ParseCompletesOnAnyData : Prop :=
  ∀ (s : State) (d : List Byte),
    let x' := (parseRun d (s.port s.cur)).1
    let o := (parseRun d (s.port s.cur)).2
    let r : Response := { code := o.code, status := o.status, data := o.data
                          info := { detail := o.detail, consumed := some x'.parsePos } }
    x'.parseIn = d ∧ x'.parsePos ≤ d.length ∧ x'.dstate = .idle ∧
    x' = { s.port s.cur with
      parseIn := d, parsePos := x'.parsePos, dstate := .idle, dlen := x'.dlen, dcmd := x'.dcmd, ddata := x'.ddata
      dcrc := x'.dcrc } ∧
    ((s.port s.cur).phase = .run →
      exec (.parse d) s = .next (s.setPort s.cur { x' with phase := .done r })) ∧
    ((s.port s.cur).phase = .idle → s.lockOwner ≠ some s.cur →
      ∃ t, execTimes (.parse d) 3 s = .next t ∧ t = s.setPort s.cur (posted r x'))

/-- spec/43_decoder.md R171 (a): a change of one byte of a frame's COMMAND, DATA or trailer gives CRC_ERR. -/
def Obligations.CorruptedByteGivesCrcError : Prop :=
  ∀ (x : PortState) (c : Byte) (d f : List Byte) (v : Half) (k : Nat) (b : Byte), encodeFrame c d = some (f, v) →
    2 ≤ k → (h : k < f.length) → b ≠ f[k] → ∃ received computed, (parseRun (f.set k b) x).2 = .crcErr received computed

/-! ### The phases of an exchange -/

/-- spec/44_serializer.md R200, R205: an exchange instruction with at most 250 bytes starts by building its frame, and its port
waits for the lock; XCHG_ACK also zeroes its counter. -/
def Obligations.ExchangeStartsByBuildingItsFrame : Prop :=
  ∀ (i : Instr) (k : ExchangeKind) (c : Byte) (d : List Byte) (s : State), exchangeOperands i = some (k, c, d) →
    d.length ≤ 250 → 0 < s.config.maxAckAttempts → (s.port s.cur).phase = .idle →
    exec i s = .next (s.upd s.cur (fun x =>
      { x with txbuf := wholeFrame c d, txlen := BitVec.ofNat 8 (d.length + 5), phase := .waitGrant
               attempts := if k = .untilAck then 0 else x.attempts
               last := if k = .untilAck then none else x.last }))

/-- spec/60_exceptions.md R237: a payload of more than 250 bytes gives ENC_ERR with its count, before any lock, sample or
channel access, and has no effect but the response: for the exchange instructions and for ENCODE. That the info is the count
alone is the model's reading, notes/assumptions/16.md, and the numbers of steps its choice, notes/assumptions/6.md. -/
def Obligations.OversizedPayloadGivesOnlyEncErr : Prop :=
  (∀ (i : Instr) (k : ExchangeKind) (c : Byte) (d : List Byte) (s : State), exchangeOperands i = some (k, c, d) →
    250 < d.length → (s.port s.cur).phase = .idle → s.lockOwner ≠ some s.cur →
    execTimes i 2 s =
      .next (s.upd s.cur (posted { code := .encErr, info := { detail := .count d.length } }))) ∧
  (∀ (c : Byte) (d : List Byte) (s : State), 250 < d.length → (s.port s.cur).phase = .idle →
    s.lockOwner ≠ some s.cur →
    execTimes (.encode c d) 3 s =
      .next (s.upd s.cur (posted { code := .encErr, info := { detail := .count d.length } })))

/-- spec/44_serializer.md R200 (`wait until LOCK_OWNER = p`): a port that waits and does not own the lock stays as it is. -/
def Obligations.WaitingPortStaysAsItIs : Prop :=
  ∀ (i : Instr) (s : State), exchangeInstr i = true → (s.port s.cur).phase = .waitGrant →
    s.lockOwner ≠ some s.cur → exec i s = .next s

/-- spec/44_serializer.md R199, spec/60_exceptions.md R241, spec/70_reset_and_hazards.md R285: a sample that reads RUNNING = 0,
the value at the port's grant (kept in the model's field `sampled`, notes/assumptions/18.md), completes CANCELLED and frees the
lock in one step, without touching the channel. -/
def Obligations.SampleOfZeroCancels : Prop :=
  ∀ (i : Instr) (k : ExchangeKind) (c : Byte) (d : List Byte) (s : State), exchangeOperands i = some (k, c, d) →
    (s.port s.cur).phase = .waitGrant → s.lockOwner = some s.cur → s.sampled = false →
    exec i s =
      .next ({ s with lockOwner := none }.upd s.cur (posted (cancelledOf k (s.port s.cur))))

/-- spec/44_serializer.md R199, R200, spec/70_reset_and_hazards.md R285: a sample that reads RUNNING = 1, the value at the
port's grant (kept in the model's field `sampled`, notes/assumptions/18.md), goes on to the flush, with nothing flushed yet. -/
def Obligations.SampleOfOneGoesToFlush : Prop :=
  ∀ (i : Instr) (s : State), exchangeInstr i = true → (s.port s.cur).phase = .waitGrant →
    s.lockOwner = some s.cur → s.sampled = true →
    exec i s = .next (s.upd s.cur (fun x => { x with phase := .flush, flushed := 0 }))

/-- spec/44_serializer.md R201: a status request, or any exchange when FLUSH_ALL is true, empties RXFIFO, counts the bytes and
logs them if there were any; any other exchange leaves the channel alone. -/
def Obligations.FlushDrainsForStatusRequests : Prop :=
  ∀ (i : Instr) (k : ExchangeKind) (c : Byte) (d : List Byte) (s : State), exchangeOperands i = some (k, c, d) →
    (s.port s.cur).phase = .flush →
    (c = 0x11 ∨ s.config.flushAll = true →
      exec i s = .next ({ s with rxfifo := [], diag := s.diag ++ (if s.rxfifo = [] then [] else
          [DiagEvent.mk .unexpectedBytes s.cur s.rxfifo]) }.upd s.cur
        (fun x => { x with phase := .tx, flushed := s.rxfifo.length }))) ∧
    (c ≠ 0x11 → s.config.flushAll = false →
      exec i s = .next (s.upd s.cur (fun x => { x with phase := .tx })))

/-- spec/44_serializer.md R200, spec/20_memory.md R65: the TX phase appends the whole frame to TXHIST in one step, and the
decoder starts. That this same step sets PHASE RX and DSTATE D_SYNC is the model's choice, notes/assumptions/24.md. -/
def Obligations.FrameIsWrittenWhole : Prop :=
  ∀ (i : Instr) (s : State), exchangeInstr i = true → (s.port s.cur).phase = .tx →
    (s.port s.cur).txbuf.length = (s.port s.cur).txlen.toNat →
    exec i s = .next ({ s with txhist := s.txhist ++ (s.port s.cur).txbuf }.upd s.cur
      (fun x => { x with phase := .rx, dstate := .sync, got := [] }))

/-- spec/20_memory.md R64: a read that lacks bytes takes the head of RXFIFO; with RXFIFO empty and no timeout it waits. -/
def Obligations.ReadTakesTheHeadOrWaits : Prop :=
  ∀ (i : Instr) (s : State), exchangeInstr i = true → (s.port s.cur).phase = .rx →
    (s.port s.cur).got.length < readSize (s.port s.cur) →
    (∀ b rest, s.rxfifo = b :: rest →
      exec i s = .next ({ s with rxfifo := rest }.upd s.cur (fun x => { x with got := x.got ++ [b] }))) ∧
    (s.rxfifo = [] → s.draw = false → exec i s = .next s)

/-- spec/44_serializer.md R192: completion is one step that posts the response, makes the port idle and free, and gives back the
lock if the port owns it. That an instruction in phase DONE ends so is the model's use of DONE, notes/assumptions/6.md. -/
def Obligations.CompletionPostsAndReleases : Prop :=
  (∀ (p : Port) (r : Response) (s : State),
    complete p r s = { s with lockOwner := if s.lockOwner = some p then none else s.lockOwner }.upd p
      (fun x => { x with rsp := some r, phase := .idle, busy := false, latch := none })) ∧
  (∀ (i : Instr) (s : State) (r : Response), (lockFreeInstr i = true ∨ exchangeInstr i = true) →
    (s.port s.cur).phase = .done r → exec i s = .next (complete s.cur r s))

/-! ### Whole receptions -/

/-- spec/44_serializer.md R200, spec/43_decoder.md R161, R168: XCHG and its rows (STATUS_REQ, STACK_2, HOLD, WAIT, ACK,
GET_VERSION), with a whole valid frame waiting at the start of RX, complete OK with its status and payload, leave the bytes after
it, and free the lock. -/
def Obligations.XchgReturnsTheFrameReceived : Prop :=
  ∀ (i : Instr) (c : Byte) (d : List Byte) (s : State) (st : Byte) (r rest : List Byte),
    exchangeOperands i = some (.plain, c, d) → atReceive (s.port s.cur) → r.length ≤ 250 →
    s.rxfifo = wholeFrame st r ++ rest →
    ∃ n, execTimes i n s = .next (complete s.cur
      { code := .ok, status := some st, data := r, info := { flushed := some (s.port s.cur).flushed } }
      ({ s with rxfifo := rest }.upd s.cur (frameTaken st r)))

/-- spec/44_serializer.md R205: XCHG_ACK and its rows (RESET, STACK_1, RETURN) complete OK on an ACK frame, whatever its payload,
with the attempt counted. -/
def Obligations.XchgAckCompletesOnAck : Prop :=
  ∀ (i : Instr) (c : Byte) (d : List Byte) (s : State) (r rest : List Byte),
    exchangeOperands i = some (.untilAck, c, d) → atReceive (s.port s.cur) → r.length ≤ 250 →
    s.rxfifo = wholeFrame 0x50 r ++ rest →
    ∃ n, execTimes i n s = .next (complete s.cur
      { code := .ok, status := some 0x50, data := r
        info := { flushed := some (s.port s.cur).flushed, attempts := some ((s.port s.cur).attempts + 1) } }
      ({ s with rxfifo := rest }.upd s.cur
        (fun x => { frameTaken 0x50 r x with attempts := x.attempts + 1 })))

/-- spec/44_serializer.md R205 (D18): on every outcome `o` other than an ACK (another frame, NO_RESPONSE, NOOP, SYNC_ERR,
TRUNCATED, LEN_ERR, CRC_ERR), with attempts left, XCHG_ACK and its rows give back the lock and wait for the next attempt, with
the same frame. The outcome is that of PARSE on the bytes waiting in RXFIFO, with nothing more from the device; the timeouts it
takes are drawn, and an outcome that takes none is reached whatever is drawn. -/
def Obligations.XchgAckRetriesOnEveryOtherOutcome : Prop :=
  ∀ (i : Instr) (c : Byte) (d : List Byte) (s : State) (x' : PortState) (o : DecodeOutcome),
    exchangeOperands i = some (.untilAck, c, d) → d.length ≤ 250 → atReceive (s.port s.cur) →
    parseRun s.rxfifo (s.port s.cur) = (x', o) → (s.draw = true ∨ o.waits = false) → (∀ r, o ≠ .ok 0x50 r) →
    (s.port s.cur).attempts + 1 ≠ s.config.maxAckAttempts →
    ∃ n, execTimes i n s = .next ({ s with
        rxfifo := s.rxfifo.drop x'.parsePos, diag := s.diag ++ syncLossOf s.cur o
        lockOwner := if s.lockOwner = some s.cur then none else s.lockOwner }.upd s.cur
      (fun x => { decoded x' x with
        attempts := x.attempts + 1, last := some o.code, txbuf := wholeFrame c d
        txlen := BitVec.ofNat 8 (d.length + 5), phase := .waitGrant }))

/-- spec/60_exceptions.md R240: an attempt that ends with any outcome `o` other than an ACK when it is the last one completes
RETRY_EXHAUSTED with the count and the code of `o`, and frees the lock. The outcome is that of PARSE on the bytes waiting, as
above. A silent last attempt does so in one step: that RETRY_EXHAUSTED does not pass through DONE is the model's choice,
notes/assumptions/6.md; that its info has no flushed count is the model's reading, notes/assumptions/17.md. -/
def Obligations.LastAttemptExhaustsRetries : Prop :=
  ∀ (i : Instr) (c : Byte) (d : List Byte) (s : State) (x' : PortState) (o : DecodeOutcome),
    exchangeOperands i = some (.untilAck, c, d) → atReceive (s.port s.cur) →
    parseRun s.rxfifo (s.port s.cur) = (x', o) → (s.draw = true ∨ o.waits = false) → (∀ r, o ≠ .ok 0x50 r) →
    (s.port s.cur).attempts + 1 = s.config.maxAckAttempts →
    ∃ n, (s.rxfifo = [] → n = 1) ∧ execTimes i n s = .next ({ s with
        rxfifo := s.rxfifo.drop x'.parsePos, diag := s.diag ++ syncLossOf s.cur o
        lockOwner := if s.lockOwner = some s.cur then none else s.lockOwner }.upd s.cur
      (fun x => posted
        { code := .retryExhausted
          info := { detail := .last (some o.code), attempts := some s.config.maxAckAttempts } }
        { decoded x' x with attempts := x.attempts + 1, last := some o.code }))

/-- spec/44_serializer.md R207: XCHG_ECHO and its rows (the seven SET commands) complete OK when the frame is the echo asked
for. -/
def Obligations.XchgEchoAcceptsTheEcho : Prop :=
  ∀ (i : Instr) (c : Byte) (d : List Byte) (s : State) (rest : List Byte),
    exchangeOperands i = some (.echo, c, d) → atReceive (s.port s.cur) → d.length ≤ 250 →
    s.rxfifo = wholeFrame (echoRead s.config.echo c) d ++ rest →
    ∃ n, execTimes i n s = .next (complete s.cur
      { code := .ok, status := some (echoRead s.config.echo c), data := d
        info := { flushed := some (s.port s.cur).flushed } }
      ({ s with rxfifo := rest }.upd s.cur (frameTaken (echoRead s.config.echo c) d)))

/-- spec/44_serializer.md R207, spec/60_exceptions.md R238: any other frame completes ACK_ERR with the SET command byte and what
was received. That its info has no flushed count is the model's reading, notes/assumptions/17.md. -/
def Obligations.XchgEchoRejectsAnotherFrame : Prop :=
  ∀ (i : Instr) (c : Byte) (d : List Byte) (s : State) (st : Byte) (r rest : List Byte),
    exchangeOperands i = some (.echo, c, d) → atReceive (s.port s.cur) → r.length ≤ 250 →
    (st ≠ echoRead s.config.echo c ∨ r ≠ d) → s.rxfifo = wholeFrame st r ++ rest →
    ∃ n, execTimes i n s = .next (complete s.cur
      { code := .ackErr, info := { detail := .echo c .ok (some st) r } }
      ({ s with rxfifo := rest }.upd s.cur (frameTaken st r)))

/-- spec/43_decoder.md R162 (a), spec/44_serializer.md R207: when the first read times out, XCHG and its rows answer NO_RESPONSE,
and XCHG_ECHO and its rows answer ACK_ERR of NO_RESPONSE (for XCHG_ACK and its rows see the two statements on its attempts).
That the response waits in phase DONE is the model's choice, notes/assumptions/6.md, and that ACK_ERR has no flushed count its
reading, notes/assumptions/17.md. -/
def Obligations.SilentDeviceGivesNoResponse : Prop :=
  ∀ (i : Instr) (k : ExchangeKind) (c : Byte) (d : List Byte) (s : State), exchangeOperands i = some (k, c, d) →
    atReceive (s.port s.cur) → s.rxfifo = [] → s.draw = true →
    (k = .plain → exec i s = .next (s.upd s.cur (fun x => { x with
      dstate := .idle
      phase := .done { code := .noResponse, info := { flushed := some x.flushed } } }))) ∧
    (k = .echo → exec i s = .next (s.upd s.cur (fun x => { x with
      dstate := .idle
      phase := .done { code := .ackErr, info := { detail := .echo c .noResponse none [] } } })))

/-- spec/43_decoder.md R162 (c), spec/60_exceptions.md R233: a first byte that is neither 0x00 nor 0xFC ends XCHG and XCHG_ECHO
and their rows SYNC_ERR with that byte, consumes it alone, and is logged as SYNC_LOSS (for XCHG_ACK and its rows see the two
statements on its attempts). The two steps to phase DONE are the model's choice, notes/assumptions/6.md. -/
def Obligations.WrongFirstByteIsSyncErrorAndLogged : Prop :=
  ∀ (i : Instr) (k : ExchangeKind) (c : Byte) (d : List Byte) (s : State) (b : Byte) (rest : List Byte),
    exchangeOperands i = some (k, c, d) → k ≠ .untilAck → atReceive (s.port s.cur) →
    s.rxfifo = b :: rest → b ≠ 0x00 → b ≠ 0xFC →
    execTimes i 2 s = .next ({ s with
        rxfifo := rest, diag := s.diag ++ [DiagEvent.mk .syncLoss s.cur [b]] }.upd s.cur
      (fun x => { x with
        dstate := .idle
        phase := .done { code := .syncErr, info := { detail := .byte b, flushed := some x.flushed } } }))

/-- spec/43_decoder.md R161, spec/20_memory.md R64, spec/44_serializer.md R200, R205, R207: with nothing more from the device from
the start of RX, the wire decode ends with the outcome `o` that PARSE gives on the bytes waiting in RXFIFO, whichever of the
seven it is, takes as many bytes as PARSE consumes, leaves the decoder's registers as PARSE does, and logs SYNC_LOSS exactly for
SYNC_ERR. XCHG and its rows answer `o`; XCHG_ECHO and its rows pass a decode error through, accept the echo, and answer ACK_ERR
to everything else; XCHG_ACK and its rows answer an ACK (their other outcomes are the two statements on its attempts). The
timeouts are drawn where `o` takes one. That the response waits in phase DONE is the model's choice, notes/assumptions/6.md, and
that ACK_ERR has no flushed count its reading, notes/assumptions/17.md. -/
def Obligations.WireDecodeAgreesWithParse : Prop :=
  ∀ (i : Instr) (k : ExchangeKind) (c : Byte) (d : List Byte) (s : State) (x' : PortState) (o : DecodeOutcome),
    exchangeOperands i = some (k, c, d) → atReceive (s.port s.cur) →
    parseRun s.rxfifo (s.port s.cur) = (x', o) → (s.draw = true ∨ o.waits = false) →
    (k = .plain → ∃ n, execTimes i n s = .next ((afterDecode x' o s).upd s.cur (fun x => { x with
      phase := .done { code := o.code, status := o.status, data := o.data
                       info := { detail := o.detail, flushed := some x.flushed } } }))) ∧
    (k = .echo → ∃ n, execTimes i n s = .next ((afterDecode x' o s).upd s.cur (fun x => { x with
      phase := .done (
        if o.code ∈ [.syncErr, .truncated, .lenErr, .crcErr] ∨ o = .ok (echoRead s.config.echo c) d then
          { code := o.code, status := o.status, data := o.data
            info := { detail := o.detail, flushed := some x.flushed } }
        else { code := .ackErr, info := { detail := .echo c o.code o.status o.data } }) }))) ∧
    (k = .untilAck → ∀ r, o = .ok 0x50 r →
      ∃ n, execTimes i n s = .next ((afterDecode x' o s).upd s.cur (fun x => { x with
        attempts := x.attempts + 1
        phase := .done { code := .ok, status := some 0x50, data := r
                         info := { flushed := some x.flushed, attempts := some (x.attempts + 1) } } })))

/-! ### The whole machine -/

/-- spec/70_reset_and_hazards.md R270: a host reset is one step that sets every register the table names to its reset value and
leaves RXFIFO. The OPEN fields of CONFIG are not stated: their values are the model's (notes/assumptions/10.md). -/
def Obligations.ResetGivesTheStatedValues : Prop :=
  ∀ s : State, nextEvent s = .reset → ∃ t, step s = .next t ∧
    (∀ p, (t.port p).req = none ∧ (t.port p).busy = false ∧ (t.port p).rsp = none ∧ (t.port p).crc = 0x0000 ∧
      (t.port p).phase = .idle ∧ (t.port p).txbuf = [] ∧ (t.port p).txlen = 0 ∧ (t.port p).dstate = .idle ∧
      (t.port p).dlen = 0 ∧ (t.port p).dcmd = 0 ∧ (t.port p).ddata = [] ∧ (t.port p).dcrc = 0 ∧
      (t.port p).attempts = 0 ∧ (t.port p).parseIn = [] ∧ (t.port p).parsePos = 0 ∧ t.isWaiting p = false) ∧
    t.lockOwner = none ∧ t.running = true ∧ t.config.baud = .b9600 ∧ t.config.dataBits = 8 ∧
    t.config.parity = .even ∧ (∀ c, echoRead t.config.echo c = c) ∧ t.config.flushAll = false ∧
    t.diag = [] ∧ t.txhist = [] ∧ t.rxfifo = s.rxfifo

/-- The invariants of the model hold after reset. -/
def Obligations.ResetStateIsGood : Prop :=
  SequencerInv State.reset ∧ BuffersInv State.reset ∧ ConfigInv State.reset ∧ AttemptsInv State.reset

/-- spec/44_serializer.md R194 to R198, spec/10_state.md R32, R35, R42: every step keeps the sequencers and the lock in
agreement: a port on the channel owns the lock and was granted it while RUNNING was 1, so the two ports are never both on it. -/
def Obligations.StepKeepsSequencersAndLock : Prop :=
  ∀ s s' : State, SequencerInv s → step s = .next s' → SequencerInv s'

/-- spec/10_state.md R36 to R40, spec/43_decoder.md R161 to R167: every step keeps the buffers and the decoder in agreement. The
clause that DSTATE is D_IDLE in every phase but RX, so also in RUN of a PARSE, is the model's choice, notes/assumptions/19.md. -/
def Obligations.StepKeepsBuffers : Prop :=
  ∀ s s' : State, SequencerInv s → BuffersInv s → step s = .next s' → BuffersInv s'

/-- spec/10_state.md R46: every step keeps CONFIG legal, and the ECHO table in its canonical form. -/
def Obligations.StepKeepsConfigLegal : Prop :=
  ∀ s s' : State, ConfigInv s → step s = .next s' → ConfigInv s'

/-- spec/10_state.md R39, spec/44_serializer.md R205: every step keeps an XCHG_ACK in an attempt below its bound. -/
def Obligations.StepKeepsAttemptsBelowBound : Prop :=
  ∀ s s' : State, SequencerInv s → ConfigInv s → AttemptsInv s → step s = .next s' → AttemptsInv s'

/-- spec/44_serializer.md R198, spec/60_exceptions.md R244: where the sequencers and the lock agree, no step is stuck. -/
def Obligations.SequencedMachineIsNeverStuck : Prop :=
  ∀ (s : State) (f : Fault), SequencerInv s → step s ≠ .fault f

/-- spec/44_serializer.md R199, R209, spec/70_reset_and_hazards.md R285: while RUNNING is 0 no exchange is admitted to the channel,
though it be granted the lock: an exchange that is past its sample point with 1 after a step was so before it, and only such an
exchange, of which there is at most one, is in FLUSH, TX or RX after the step. -/
def Obligations.NoExchangeEntersChannelWhileNotRunning : Prop :=
  ∀ (s s' : State) (p : Port), SequencerInv s → s.running = false → step s = .next s' →
    (Admitted s' p → Admitted s p) ∧ ((s'.port p).phase.onChannel = true → Admitted s p) ∧
    (∀ q, Admitted s p → Admitted s q → p = q)

/-- spec/44_serializer.md R197: bytes enter TXHIST and leave RXFIFO only by a step of the port that owns the lock, in phase TX, or
in phase FLUSH or RX; the device only appends, and reset empties TXHIST. -/
def Obligations.ChannelIsTouchedOnlyByTheLockOwner : Prop :=
  ∀ s s' : State, SequencerInv s → step s = .next s' →
    (s'.txhist ≠ s.txhist →
      (nextEvent s = .reset ∧ s'.txhist = []) ∨
      (∃ p b, nextEvent s = .port p b ∧ s.lockOwner = some p ∧ (s.port p).phase = .tx ∧
        s'.txhist = s.txhist ++ (s.port p).txbuf.take (s.port p).txlen.toNat)) ∧
    (s'.rxfifo ≠ s.rxfifo →
      (∃ b, nextEvent s = .device b ∧ s'.rxfifo = s.rxfifo ++ [b]) ∨
      (∃ p b, nextEvent s = .port p b ∧ s.lockOwner = some p ∧
        (((s.port p).phase = .flush ∧ s'.rxfifo = []) ∨ ((s.port p).phase = .rx ∧ s'.rxfifo = s.rxfifo.tail))))

/-- spec/10_state.md R42, spec/44_serializer.md R195, R196, spec/70_reset_and_hazards.md R285: the lock changes only by a grant of a
free lock to a waiting port, by a step of its owner that frees it, or by reset; and the sample of RUNNING (the model's field
`sampled`, notes/assumptions/18.md) only by a grant, to the value of RUNNING at it, or by reset. -/
def Obligations.LockChangesOnlyByGrantAndRelease : Prop :=
  ∀ s s' : State, step s = .next s' →
    (s'.lockOwner = s.lockOwner ∨
      (∃ p, nextEvent s = .grant p ∧ s.lockOwner = none ∧ (s.port p).phase = .waitGrant ∧ s'.lockOwner = some p) ∨
      (∃ p b, nextEvent s = .port p b ∧ s.lockOwner = some p ∧ s'.lockOwner = none) ∨
      (nextEvent s = .reset ∧ s'.lockOwner = none)) ∧
    (s'.sampled = s.sampled ∨
      (∃ p, nextEvent s = .grant p ∧ s.lockOwner = none ∧ s'.lockOwner = some p ∧ s'.sampled = s.running) ∨
      nextEvent s = .reset)

/-- spec/44_serializer.md R195, spec/70_reset_and_hazards.md R285: the arbiter may grant a free lock to any waiting port, whichever
it is, and a grant changes nothing but the owner and the sample of RUNNING that the exchange goes by (the model's field
`sampled`, notes/assumptions/18.md). -/
def Obligations.GrantGivesAFreeLockToAnyWaitingPort : Prop :=
  ∀ (s : State) (p : Port), nextEvent s = .grant p →
    (s.lockOwner = none → (s.port p).phase = .waitGrant →
      step s = .next { afterChoice s with lockOwner := some p, sampled := s.running }) ∧
    (s.lockOwner ≠ none ∨ (s.port p).phase ≠ .waitGrant → step s = .next (afterChoice s))

/-- spec/10_state.md R34: a port's accumulator is written only by CRC_INIT, CRC_BYTE and CRC16 of that port, and by reset. -/
def Obligations.CrcIsWrittenOnlyByCrcOperations : Prop :=
  ∀ (s s' : State) (p : Port), SequencerInv s → step s = .next s' → (s'.port p).crc ≠ (s.port p).crc →
    nextEvent s = .reset ∨
    (∃ b r, nextEvent s = .port p b ∧ (s.port p).latch = some r ∧ (s.port p).phase = .run ∧
      (decode r = .ok .crcInit ∨ (∃ v, decode r = .ok (.crcByte v)) ∨ (∃ d, decode r = .ok (.crc16 d))))

/-- spec/10_state.md R41, spec/44_serializer.md R203: a step of one port's sequencer leaves the other port, RUNNING and CONFIG as
they were, whatever its outcome. -/
def Obligations.PortStepLeavesTheOtherPort : Prop :=
  ∀ (s s' : State) (p q : Port) (b : Bool), nextEvent s = .port p b → step s = .next s' → q ≠ p →
    s'.port q = s.port q ∧ s'.running = s.running ∧ s'.config = s.config

/-- spec/10_state.md R43, R46, spec/60_exceptions.md R250: RUNNING and CONFIG change only by the host's writes, CONFIG only while
both ports have BUSY = 0, and by reset. -/
def Obligations.RunningAndConfigAreTheHosts : Prop :=
  ∀ s s' : State, step s = .next s' →
    (s'.running ≠ s.running → nextEvent s = .reset ∨ nextEvent s = .setRunning s'.running) ∧
    (s'.config ≠ s.config → nextEvent s = .reset ∨
      (∃ w, nextEvent s = .setConfig w ∧ s.poll.busy = false ∧ s.cmd.busy = false ∧
        writeConfig w s.config = some s'.config))

/-- spec/10_state.md R31, R43, R46, spec/20_memory.md R66: a byte of the device is appended to RXFIFO, a request presented to a
free port stands in its REQ, a host write of RUNNING sets it, a host write of a legal value to a field of CONFIG while both
ports are free sets that field, and a write of a value outside the legal set is refused (U9); each changes nothing else. That
ECHO is written at one command byte at a time is the model's choice, notes/assumptions/12.md, that every STOP_BITS is taken is
notes/assumptions/11.md, and that an illegal value is answered with a refusal is notes/assumptions/4.md. -/
def Obligations.InputsOfDeviceAndHostWriteOnlyTheirOwn : Prop :=
  ∀ s : State,
    (∀ b, nextEvent s = .device b → step s = .next { afterChoice s with rxfifo := s.rxfifo ++ [b] }) ∧
    (∀ p r, nextEvent s = .present p r → (s.port p).req = none → (s.port p).busy = false → r.countOk = true →
      step s = .next ((afterChoice s).upd p (fun x => { x with req := some r }))) ∧
    (∀ b, nextEvent s = .setRunning b → step s = .next { afterChoice s with running := b }) ∧
    (s.poll.busy = false → s.cmd.busy = false →
      let become := fun c => step s = .next { afterChoice s with config := c }
      (∀ n, nextEvent s = .setConfig (.tRead n) →
        if 0 < n then become { s.config with tRead := n } else step s = .refused .configNotLegal) ∧
      (∀ n, nextEvent s = .setConfig (.baud n) →
        if n = 9600 then become { s.config with baud := .b9600 }
        else if n = 19200 then become { s.config with baud := .b19200 } else step s = .refused .configNotLegal) ∧
      (∀ n, nextEvent s = .setConfig (.dataBits n) →
        if n = 8 then become { s.config with dataBits := 8 } else step s = .refused .configNotLegal) ∧
      (∀ v, nextEvent s = .setConfig (.parity v) → become { s.config with parity := v }) ∧
      (∀ n, nextEvent s = .setConfig (.stopBits n) → become { s.config with stopBits := n }) ∧
      (∀ n, nextEvent s = .setConfig (.maxAckAttempts n) →
        if 1 ≤ n then become { s.config with maxAckAttempts := n } else step s = .refused .configNotLegal) ∧
      (∀ v, nextEvent s = .setConfig (.flushAll v) → become { s.config with flushAll := v }) ∧
      (∀ c v, nextEvent s = .setConfig (.echo c v) →
        ∃ t, become { s.config with echo := t } ∧
          ∀ a, echoRead t a = if a = c then v else echoRead s.config.echo a))

/-- spec/10_state.md R46, spec/70_reset_and_hazards.md R286, U8: a host write to CONFIG while a port is busy has no transition. -/
def Obligations.ConfigWriteWhileBusyIsRefused : Prop :=
  ∀ (s : State) (w : Config.Write), nextEvent s = .setConfig w → (s.poll.busy = true ∨ s.cmd.busy = true) →
    step s = .refused .configWhileBusy

/-- spec/10_state.md R47, spec/60_exceptions.md R254: DIAG only grows, by one event at a time of the two kinds, from the flush and
from the decoder on the wire; reset empties it. -/
def Obligations.DiagOnlyGrowsByTheTwoKinds : Prop :=
  ∀ s s' : State, step s = .next s' →
    s'.diag = s.diag ∨ (nextEvent s = .reset ∧ s'.diag = []) ∨
    (∃ p b e, nextEvent s = .port p b ∧ s'.diag = s.diag ++ [e] ∧ e.port = p ∧
      ((e.kind = .unexpectedBytes ∧ (s.port p).phase = .flush ∧ e.info = s.rxfifo ∧ s.rxfifo ≠ []) ∨
       (e.kind = .syncLoss ∧ (s.port p).phase = .rx ∧ (s.port p).dstate = .sync ∧
        ∃ v, e.info = [v] ∧ v ≠ 0x00 ∧ v ≠ 0xFC)))

/-- spec/20_memory.md R81: a lock-free instruction reads only its own port's registers, and writes nothing else: two states that
agree on the moving port's registers give the same registers of it. -/
def Obligations.LockFreeSeesOnlyItsOwnPort : Prop :=
  ∀ (i : Instr) (s t s' : State), lockFreeInstr i = true → s.lockOwner ≠ some s.cur → t.lockOwner ≠ some t.cur →
    s.port s.cur = t.port t.cur → exec i s = .next s' →
    s' = s.setPort s.cur (s'.port s.cur) ∧ exec i t = .next (t.setPort t.cur (s'.port s.cur))
end

