-- ==== Sys2Proof/Laws/Decode.lean ====
section
/-! SUPPORT. Each field of a header word that the encoder makes is the field it was given (spec/30_encoding.md R96). -/

namespace Sys2Proof

theorem getLsbD_above {w : Nat} (x : BitVec w) {k : Nat} (h : w ≤ k) : x.getLsbD k = false := BitVec.getLsbD_of_ge x k h

@[simp] theorem makeHeader_op (op : BitVec 4) (c n : Byte) : (makeHeader op c n).extractLsb' 0 4 = op := by
  ext i hi
  simp [makeHeader, show i < 8 by omega, show i < 16 by omega, show i < 32 by omega, BitVec.getLsbD_eq_getElem hi]

@[simp] theorem makeHeader_rsv0 (op : BitVec 4) (c n : Byte) : (makeHeader op c n).extractLsb' 4 4 = 0 := by
  ext i hi
  simp [makeHeader, show 4 + i < 8 by omega, show 4 + i < 16 by omega, show 4 + i < 32 by omega]

@[simp] theorem makeHeader_cmd (op : BitVec 4) (c n : Byte) : (makeHeader op c n).extractLsb' 8 8 = c := by
  ext i hi
  simp [makeHeader, getLsbD_above op (show 4 ≤ 8 + i by omega), show 8 + i < 16 by omega, show 8 + i < 32 by omega,
    BitVec.getLsbD_eq_getElem hi]

@[simp] theorem makeHeader_n (op : BitVec 4) (c n : Byte) : (makeHeader op c n).extractLsb' 16 8 = n := by
  ext i hi
  simp [makeHeader, getLsbD_above op (show 4 ≤ 16 + i by omega), getLsbD_above c (show 8 ≤ 16 + i - 8 by omega),
    show 16 + i < 32 by omega, BitVec.getLsbD_eq_getElem hi]

@[simp] theorem makeHeader_rsv1 (op : BitVec 4) (c n : Byte) : (makeHeader op c n).extractLsb' 24 8 = 0 := by
  ext i hi
  simp [makeHeader, getLsbD_above op (show 4 ≤ 24 + i by omega), getLsbD_above c (show 8 ≤ 24 + i - 8 by omega),
    getLsbD_above n (show 8 ≤ 24 + i - 16 by omega)]

/-- The fields of the request that the encoder makes of at most 255 data bytes, which is a request. -/
theorem makeRequest_fields (op : BitVec 4) (c : Byte) {d : List Byte} (h : d.length ≤ 255) :
    (makeRequest op c d).op = op ∧ (makeRequest op c d).rsv0 = 0 ∧ (makeRequest op c d).cmd = c ∧
    (makeRequest op c d).n = BitVec.ofNat 8 d.length ∧ (makeRequest op c d).rsv1 = 0 ∧
    (makeRequest op c d).countOk = true := by
  refine ⟨makeHeader_op .., makeHeader_rsv0 .., makeHeader_cmd .., makeHeader_n .., makeHeader_rsv1 .., ?_⟩
  simp only [Request.countOk, Request.n, makeRequest, makeHeader_n, decide_eq_true_eq, BitVec.toNat_ofNat]
  omega

end Sys2Proof
end

