-- ==== Sys2Proof/Laws/Echo.lean ====
section
/-! SUPPORT. The ECHO table of CONFIG (spec/10_state.md R46): a write is read back, leaves every other argument alone, and
keeps the table in its one canonical form. -/

namespace Sys2Proof.Machine

theorem echoRead_erase (c : Byte) (t : List Host.Cell) (a : Byte) :
    echoRead (echoErase c.toNat t) a = if a = c then a else echoRead t a := by
  induction t with
  | nil => simp [echoErase, echoRead]
  | cons e rest ih =>
    obtain ⟨k, v⟩ := e
    by_cases hk : k = c.toNat
    · simp only [echoErase, hk, if_true]
      rw [ih]
      by_cases ha : a = c
      · simp [ha]
      · have : ¬ c.toNat = a.toNat := fun h => ha (BitVec.eq_of_toNat_eq h.symm)
        simp [ha, echoRead, this]
    · simp only [echoErase, hk, if_false, echoRead]
      rw [ih]
      by_cases hka : k = a.toNat
      · have : a ≠ c := fun h => hk (h ▸ hka)
        simp [hka, this]
      · simp only [hka, if_false]

theorem echoRead_insert (c v : Byte) (t : List Host.Cell) (ht : ∀ e ∈ t, e.1 ≠ c.toNat) (a : Byte) :
    echoRead (echoInsert c.toNat v t) a = if a = c then v else echoRead t a := by
  have key : ∀ t', echoRead ((c.toNat, v) :: t') a = if a = c then v else echoRead t' a := by
    intro t'
    by_cases ha : a = c
    · simp [echoRead, ha]
    · have : ¬ c.toNat = a.toNat := fun h => ha (BitVec.eq_of_toNat_eq h.symm)
      simp [echoRead, ha, this]
  induction t with
  | nil => exact key []
  | cons e rest ih =>
    unfold echoInsert
    split
    · exact key _
    · obtain ⟨k, w⟩ := e
      have hk : k ≠ c.toNat := ht _ (List.mem_cons_self ..)
      simp only [echoRead]
      rw [ih (fun e he => ht e (List.mem_cons_of_mem _ he))]
      by_cases hka : k = a.toNat
      · have : a ≠ c := fun h => hk (h ▸ hka)
        simp [hka, this]
      · simp only [hka, if_false]

theorem echoErase_no_key (k : Nat) (t : List Host.Cell) : ∀ e ∈ echoErase k t, e.1 ≠ k := by
  induction t with
  | nil => simp [echoErase]
  | cons e rest ih =>
    unfold echoErase
    split
    · exact ih
    · intro e' he'
      rcases List.mem_cons.mp he' with rfl | h
      · assumption
      · exact ih _ h

/-- A write to ECHO at `c` is read back at `c` and changes no other argument. -/
theorem echoRead_write (c v : Byte) (t : List Host.Cell) (a : Byte) :
    echoRead (echoWrite c v t) a = if a = c then v else echoRead t a := by
  unfold echoWrite
  split
  · rename_i h
    rw [echoRead_erase]
    by_cases ha : a = c <;> simp [ha, h]
  · rw [echoRead_insert _ _ _ (echoErase_no_key _ _), echoRead_erase]
    by_cases ha : a = c <;> simp [ha]

theorem echoWfFrom_cons {lo k : Nat} {v : Byte} {t : List Host.Cell} :
    echoWfFrom lo ((k, v) :: t) = true ↔ lo ≤ k ∧ k < 256 ∧ v.toNat ≠ k ∧ echoWfFrom (k + 1) t = true := by
  simp [echoWfFrom, and_assoc]

theorem echoWfFrom_mono {lo lo' : Nat} (h : lo' ≤ lo) {t : List Host.Cell} (ht : echoWfFrom lo t = true) :
    echoWfFrom lo' t = true := by
  cases t with
  | nil => rfl
  | cons e rest =>
    obtain ⟨k, v⟩ := e
    rw [echoWfFrom_cons] at ht ⊢
    exact ⟨h.trans ht.1, ht.2⟩

theorem echoErase_wf (k : Nat) {lo : Nat} {t : List Host.Cell} (ht : echoWfFrom lo t = true) :
    echoWfFrom lo (echoErase k t) = true := by
  induction t generalizing lo with
  | nil => rfl
  | cons e rest ih =>
    obtain ⟨j, v⟩ := e
    rw [echoWfFrom_cons] at ht
    unfold echoErase
    split
    · exact ih (echoWfFrom_mono (by omega) ht.2.2.2)
    · rw [echoWfFrom_cons]
      exact ⟨ht.1, ht.2.1, ht.2.2.1, ih ht.2.2.2⟩

theorem echoInsert_wf {k lo : Nat} {v : Byte} {t : List Host.Cell} (hk : k < 256) (hv : v.toNat ≠ k) (hlo : lo ≤ k)
    (hn : ∀ e ∈ t, e.1 ≠ k) (ht : echoWfFrom lo t = true) : echoWfFrom lo (echoInsert k v t) = true := by
  induction t generalizing lo with
  | nil => exact echoWfFrom_cons.mpr ⟨hlo, hk, hv, rfl⟩
  | cons e rest ih =>
    obtain ⟨j, w⟩ := e
    rw [echoWfFrom_cons] at ht
    have hj : j ≠ k := hn _ (List.mem_cons_self ..)
    unfold echoInsert
    split
    · rename_i h
      exact echoWfFrom_cons.mpr ⟨hlo, hk, hv, echoWfFrom_cons.mpr ⟨h, ht.2⟩⟩
    · rename_i h
      simp only at h
      exact echoWfFrom_cons.mpr ⟨ht.1, ht.2.1, ht.2.2.1,
        ih (by omega) (fun e he => hn e (List.mem_cons_of_mem _ he)) ht.2.2.2⟩

/-- Every write keeps the table canonical. -/
theorem echoWrite_wf (c v : Byte) {t : List Host.Cell} (ht : echoWf t = true) : echoWf (echoWrite c v t) = true := by
  unfold echoWrite
  split
  · exact echoErase_wf _ ht
  · rename_i h
    exact echoInsert_wf c.isLt (fun e => h (BitVec.eq_of_toNat_eq e)) (Nat.zero_le _) (echoErase_no_key _ _)
      (echoErase_wf _ ht)

/-- The table of the identity, which reset gives, is canonical. -/
theorem echoWf_nil : echoWf [] = true := rfl

/-- Canonical tables of the same function are the same table: the head of a canonical table is read back. -/
theorem echoRead_head {k : Nat} {v : Byte} {t : List Host.Cell} (h : echoWf ((k, v) :: t) = true) :
    echoRead ((k, v) :: t) (BitVec.ofNat 8 k) = v ∧ v ≠ BitVec.ofNat 8 k := by
  obtain ⟨_, hk, hv, _⟩ := echoWfFrom_cons.mp h
  have hmod : (BitVec.ofNat 8 k).toNat = k := by simp; omega
  exact ⟨by simp [echoRead]; omega, fun e => hv (by rw [e, hmod])⟩

end Sys2Proof.Machine
end

