-- ==== Sys2Proof/Laws/State.lean ====
section
/-! SUPPORT. Reading a port after writing a port, and the fields that writing a port leaves alone. -/

namespace Sys2Proof.Machine

@[simp] theorem State.port_setPort (s : State) (p : Port) (x : PortState) : (s.setPort p x).port p = x := by
  cases p <;> rfl

theorem State.port_setPort_ne (s : State) {p q : Port} (x : PortState) (h : q ≠ p) :
    (s.setPort p x).port q = s.port q := by
  cases p <;> cases q <;> first | rfl | exact absurd rfl h

@[simp] theorem State.setPort_setPort (s : State) (p : Port) (x y : PortState) :
    (s.setPort p x).setPort p y = s.setPort p y := by
  cases p <;> rfl

@[simp] theorem State.setPort_port (s : State) (p : Port) : s.setPort p (s.port p) = s := by
  cases p <;> rfl

@[simp] theorem State.setPort_lockOwner (s : State) (p : Port) (x : PortState) :
    (s.setPort p x).lockOwner = s.lockOwner := by cases p <;> rfl

@[simp] theorem State.setPort_running (s : State) (p : Port) (x : PortState) :
    (s.setPort p x).running = s.running := by cases p <;> rfl

@[simp] theorem State.setPort_config (s : State) (p : Port) (x : PortState) :
    (s.setPort p x).config = s.config := by cases p <;> rfl

@[simp] theorem State.setPort_diag (s : State) (p : Port) (x : PortState) :
    (s.setPort p x).diag = s.diag := by cases p <;> rfl

@[simp] theorem State.setPort_rxfifo (s : State) (p : Port) (x : PortState) :
    (s.setPort p x).rxfifo = s.rxfifo := by cases p <;> rfl

@[simp] theorem State.setPort_txhist (s : State) (p : Port) (x : PortState) :
    (s.setPort p x).txhist = s.txhist := by cases p <;> rfl

@[simp] theorem State.setPort_cur (s : State) (p : Port) (x : PortState) :
    (s.setPort p x).cur = s.cur := by cases p <;> rfl

@[simp] theorem State.setPort_draw (s : State) (p : Port) (x : PortState) :
    (s.setPort p x).draw = s.draw := by cases p <;> rfl

@[simp] theorem State.setPort_inputs (s : State) (p : Port) (x : PortState) :
    (s.setPort p x).inputs = s.inputs := by cases p <;> rfl

@[simp] theorem State.setPort_tick (s : State) (p : Port) (x : PortState) :
    (s.setPort p x).tick = s.tick := by cases p <;> rfl

@[simp] theorem State.setPort_sampled (s : State) (p : Port) (x : PortState) :
    (s.setPort p x).sampled = s.sampled := by cases p <;> rfl

/-! A change of a shared field leaves the ports alone. -/

@[simp] theorem State.port_lockOwner (s : State) (p : Port) (l : Option Port) :
    ({ s with lockOwner := l } : State).port p = s.port p := by cases p <;> rfl

@[simp] theorem State.port_running (s : State) (p : Port) (b : Bool) :
    ({ s with running := b } : State).port p = s.port p := by cases p <;> rfl

@[simp] theorem State.port_config (s : State) (p : Port) (c : ConfigRecord) :
    ({ s with config := c } : State).port p = s.port p := by cases p <;> rfl

@[simp] theorem State.port_diag (s : State) (p : Port) (l : List DiagEvent) :
    ({ s with diag := l } : State).port p = s.port p := by cases p <;> rfl

@[simp] theorem State.port_rxfifo (s : State) (p : Port) (l : List Byte) :
    ({ s with rxfifo := l } : State).port p = s.port p := by cases p <;> rfl

@[simp] theorem State.port_txhist (s : State) (p : Port) (l : List Byte) :
    ({ s with txhist := l } : State).port p = s.port p := by cases p <;> rfl

@[simp] theorem State.port_cur_draw (s : State) (p q : Port) (b : Bool) :
    ({ s with cur := q, draw := b } : State).port p = s.port p := by cases p <;> rfl

@[simp] theorem State.port_inputs (s : State) (p : Port) (l : List Config.Event) :
    ({ s with inputs := l } : State).port p = s.port p := by cases p <;> rfl

@[simp] theorem State.port_tick (s : State) (p : Port) (n : Nat) :
    ({ s with tick := n } : State).port p = s.port p := by cases p <;> rfl

@[simp] theorem State.port_sampled (s : State) (p : Port) (b : Bool) :
    ({ s with sampled := b } : State).port p = s.port p := by cases p <;> rfl

/-- Any change of the shared fields leaves the ports alone. -/
@[simp] theorem State.port_shared (s : State) (p : Port) (l : Option Port) (r : Bool) (c : ConfigRecord)
    (d : List DiagEvent) (rx tx : List Byte) (cu : Port) (dr : Bool) (i : List Config.Event) (t : Nat)
    (sa : Bool) :
    (State.mk s.poll s.cmd l r c d rx tx cu dr i t sa).port p = s.port p := by cases p <;> rfl

/-- A write of a port's registers moves out of a change of the shared fields. -/
@[simp] theorem State.shared_setPort (s : State) (p : Port) (x : PortState) (l : Option Port) (r : Bool)
    (c : ConfigRecord) (d : List DiagEvent) (rx tx : List Byte) (cu : Port) (dr : Bool) (i : List Config.Event) (t : Nat)
    (sa : Bool) :
    State.mk (s.setPort p x).poll (s.setPort p x).cmd l r c d rx tx cu dr i t sa =
      (State.mk s.poll s.cmd l r c d rx tx cu dr i t sa).setPort p x := by cases p <;> rfl

@[simp] theorem State.shared_upd (s : State) (p : Port) (f : PortState → PortState) (l : Option Port) (r : Bool)
    (c : ConfigRecord) (d : List DiagEvent) (rx tx : List Byte) (cu : Port) (dr : Bool) (i : List Config.Event) (t : Nat)
    (sa : Bool) :
    State.mk (s.upd p f).poll (s.upd p f).cmd l r c d rx tx cu dr i t sa =
      (State.mk s.poll s.cmd l r c d rx tx cu dr i t sa).upd p f := by cases p <;> rfl

/-! `upd` and `setPhase` are writes of a port. -/

@[simp] theorem State.setPhase_eq (s : State) (p : Port) (ph : Phase) :
    s.setPhase p ph = s.upd p (fun x => { x with phase := ph }) := rfl

@[simp] theorem State.upd_upd (s : State) (p : Port) (f g : PortState → PortState) :
    (s.upd p f).upd p g = s.upd p (fun x => g (f x)) := by cases p <;> rfl

@[simp] theorem State.port_upd (s : State) (p : Port) (f : PortState → PortState) :
    (s.upd p f).port p = f (s.port p) := State.port_setPort ..

theorem State.port_upd_ne (s : State) {p q : Port} (f : PortState → PortState) (h : q ≠ p) :
    (s.upd p f).port q = s.port q := State.port_setPort_ne _ _ h

@[simp] theorem State.upd_lockOwner (s : State) (p : Port) (f : PortState → PortState) :
    (s.upd p f).lockOwner = s.lockOwner := State.setPort_lockOwner ..

@[simp] theorem State.upd_running (s : State) (p : Port) (f : PortState → PortState) :
    (s.upd p f).running = s.running := State.setPort_running ..

@[simp] theorem State.upd_config (s : State) (p : Port) (f : PortState → PortState) :
    (s.upd p f).config = s.config := State.setPort_config ..

@[simp] theorem State.upd_diag (s : State) (p : Port) (f : PortState → PortState) :
    (s.upd p f).diag = s.diag := State.setPort_diag ..

@[simp] theorem State.upd_rxfifo (s : State) (p : Port) (f : PortState → PortState) :
    (s.upd p f).rxfifo = s.rxfifo := State.setPort_rxfifo ..

@[simp] theorem State.upd_txhist (s : State) (p : Port) (f : PortState → PortState) :
    (s.upd p f).txhist = s.txhist := State.setPort_txhist ..

@[simp] theorem State.upd_cur (s : State) (p : Port) (f : PortState → PortState) :
    (s.upd p f).cur = s.cur := State.setPort_cur ..

@[simp] theorem State.upd_draw (s : State) (p : Port) (f : PortState → PortState) :
    (s.upd p f).draw = s.draw := State.setPort_draw ..

@[simp] theorem State.upd_inputs (s : State) (p : Port) (f : PortState → PortState) :
    (s.upd p f).inputs = s.inputs := State.setPort_inputs ..

@[simp] theorem State.upd_tick (s : State) (p : Port) (f : PortState → PortState) :
    (s.upd p f).tick = s.tick := State.setPort_tick ..

@[simp] theorem State.upd_sampled (s : State) (p : Port) (f : PortState → PortState) :
    (s.upd p f).sampled = s.sampled := State.setPort_sampled ..

end Sys2Proof.Machine
end

