-- ==== Sys2Proof/Laws/Ops.lean ====
section
/-! SUPPORT. What each shared operation can do, said once: the completion, the lock, the frame, the flush, the write, the
read. -/

namespace Sys2Proof.Machine

/-! ### The lock -/

@[simp] theorem releaseLock_port (p q : Port) (s : State) : (releaseLock p s).port q = s.port q := by cases q <;> rfl

@[simp] theorem releaseLock_fields (p : Port) (s : State) :
    (releaseLock p s).running = s.running ∧ (releaseLock p s).config = s.config ∧ (releaseLock p s).diag = s.diag ∧
    (releaseLock p s).rxfifo = s.rxfifo ∧ (releaseLock p s).txhist = s.txhist ∧ (releaseLock p s).cur = s.cur ∧
    (releaseLock p s).draw = s.draw ∧ (releaseLock p s).inputs = s.inputs ∧ (releaseLock p s).tick = s.tick ∧
    (releaseLock p s).sampled = s.sampled :=
  ⟨rfl, rfl, rfl, rfl, rfl, rfl, rfl, rfl, rfl, rfl⟩

theorem releaseLock_lockOwner (p : Port) (s : State) :
    (releaseLock p s).lockOwner = if s.lockOwner = some p then none else s.lockOwner := rfl

theorem releaseLock_of_not_owner {p : Port} {s : State} (h : s.lockOwner ≠ some p) : releaseLock p s = s := by
  simp [releaseLock, h]

@[simp] theorem grantLock_port (p q : Port) (s : State) : (grantLock p s).port q = s.port q := by
  unfold grantLock
  split <;> cases q <;> rfl

/-- A grant sets the owner of a free lock to a waiting port and keeps its sample of RUNNING, or changes nothing. -/
theorem grantLock_cases (p : Port) (s : State) :
    (s.lockOwner = none ∧ s.isWaiting p = true ∧ grantLock p s = { s with lockOwner := some p, sampled := s.running }) ∨
    grantLock p s = s := by
  unfold grantLock
  split
  · exact .inl ⟨(‹_ ∧ _›).1, (‹_ ∧ _›).2, rfl⟩
  · exact .inr rfl

theorem isWaiting_iff (s : State) (p : Port) : s.isWaiting p = true ↔ (s.port p).phase = .waitGrant := by
  unfold State.isWaiting
  split <;> simp_all

/-! ### Completion -/

@[simp] theorem complete_port (p : Port) (r : Response) (s : State) :
    (complete p r s).port p =
      { s.port p with rsp := some r, phase := .idle, busy := false, latch := none } := by simp [complete]

theorem complete_port_ne {p q : Port} (r : Response) (s : State) (h : q ≠ p) :
    (complete p r s).port q = s.port q := by simp [complete, State.port_upd_ne _ _ h]

theorem complete_lockOwner (p : Port) (r : Response) (s : State) :
    (complete p r s).lockOwner = if s.lockOwner = some p then none else s.lockOwner := by
  simp [complete, releaseLock_lockOwner]

@[simp] theorem complete_fields (p : Port) (r : Response) (s : State) :
    (complete p r s).running = s.running ∧ (complete p r s).config = s.config ∧ (complete p r s).diag = s.diag ∧
    (complete p r s).rxfifo = s.rxfifo ∧ (complete p r s).txhist = s.txhist ∧ (complete p r s).cur = s.cur ∧
    (complete p r s).draw = s.draw ∧ (complete p r s).inputs = s.inputs ∧ (complete p r s).tick = s.tick ∧
    (complete p r s).sampled = s.sampled := by
  simp [complete]

/-- A port that does not own the lock completes by a write of its own registers alone. -/
theorem complete_of_not_owner {p : Port} (r : Response) {s : State} (h : s.lockOwner ≠ some p) :
    complete p r s =
      s.upd p (fun x => { x with rsp := some r, phase := .idle, busy := false, latch := none }) := by
  simp [complete, releaseLock_of_not_owner, h]

theorem finish_eq (p : Port) (r : Response) (s : State) :
    finish p r s = s.upd p (fun x => { x with phase := .done r }) := rfl

/-! ### Byte order -/

/-- A trailer's two bytes put together again are the value (spec/20_memory.md R70). -/
@[simp] theorem halfOf_lo_hi (v : Half) : halfOf (loByte v) (hiByte v) = v := by
  unfold halfOf loByte hiByte
  ext i hi
  simp only [BitVec.getElem_append, BitVec.getElem_extractLsb']
  split
  · simp [BitVec.getLsbD_eq_getElem hi]
  · rw [show 8 + (i - 8) = i by omega]; simp [BitVec.getLsbD_eq_getElem hi]

@[simp] theorem loByte_halfOf (lo hi : Byte) : loByte (halfOf lo hi) = lo := by
  unfold loByte halfOf
  ext i h
  rw [BitVec.getElem_extractLsb', BitVec.getLsbD_append]
  simp [h]

@[simp] theorem hiByte_halfOf (lo hi : Byte) : hiByte (halfOf lo hi) = hi := by
  unfold hiByte halfOf
  ext i h
  rw [BitVec.getElem_extractLsb', BitVec.getLsbD_append]
  simp [h]

/-! ### Frames -/

@[simp] theorem frameBody_length (c : Byte) (d : List Byte) : (frameBody c d).length = d.length + 3 := by
  simp [frameBody]

/-- The encoder succeeds iff the payload has at most 250 bytes; the frame is the body and the CRC, low byte first. -/
theorem encodeFrame_eq (c : Byte) (d : List Byte) :
    encodeFrame c d =
      if d.length ≤ Config.dataMax then
        some (frameBody c d ++ [loByte (crc16 (frameBody c d)), hiByte (crc16 (frameBody c d))], crc16 (frameBody c d))
      else none := by
  unfold encodeFrame
  by_cases h : d.length ≤ 250
  · have h' : ¬ d.length + Config.overhead > Config.frameMax := by simp [Config.overhead, Config.frameMax]; omega
    have h'' : d.length ≤ Config.dataMax := h
    simp only [h', h'', if_true, if_false]
  · have h' : d.length + Config.overhead > Config.frameMax := by simp [Config.overhead, Config.frameMax]; omega
    have h'' : ¬ d.length ≤ Config.dataMax := h
    simp only [h', h'', if_true, if_false]

theorem encodeFrame_length {c : Byte} {d f : List Byte} {v : Half} (h : encodeFrame c d = some (f, v)) :
    f.length = d.length + 5 ∧ d.length ≤ 250 := by
  rw [encodeFrame_eq] at h
  split at h
  · simp only [Option.some.injEq, Prod.mk.injEq] at h
    refine ⟨by rw [← h.1]; simp, ‹_›⟩
  · cases h

/-- What `beginExchange` can do: the frame is loaded and the port waits, or ENC_ERR is decided. -/
theorem beginExchange_cases (p : Port) (c : Byte) (d : List Byte) (s : State) :
    (∃ f v, encodeFrame c d = some (f, v) ∧
      beginExchange p c d s =
        s.upd p (fun x => { x with txbuf := f, txlen := BitVec.ofNat 8 f.length, phase := .waitGrant })) ∨
    (encodeFrame c d = none ∧
      beginExchange p c d s = s.upd p (fun x => { x with phase := .done (encErrResponse d.length) })) := by
  unfold beginExchange
  split
  · exact .inr ⟨‹_›, rfl⟩
  · exact .inl ⟨_, _, ‹_›, by simp [loadFrame]⟩

/-! ### The phases of an exchange -/

/-- What the flush phase does: it drains, counts and logs, or leaves the channel alone; the port goes on to TX. -/
theorem flushStep_cases (p : Port) (c : Byte) (s : State) :
    (flushes c s = false ∧ flushStep p c s = s.upd p (fun x => { x with phase := .tx })) ∨
    (flushes c s = true ∧ s.rxfifo = [] ∧
      flushStep p c s = s.upd p (fun x => { x with phase := .tx, flushed := 0 })) ∨
    (flushes c s = true ∧ s.rxfifo ≠ [] ∧
      flushStep p c s =
        ({ s with rxfifo := [], diag := s.diag ++ [DiagEvent.mk .unexpectedBytes p s.rxfifo] } : State).upd p
          (fun x => { x with phase := .tx, flushed := s.rxfifo.length })) := by
  unfold flushStep
  cases hf : flushes c s
  · exact .inl ⟨rfl, rfl⟩
  · by_cases he : s.rxfifo = []
    · refine .inr (.inl ⟨rfl, he, ?_⟩)
      cases p <;> simp [flushBytes, rxDrain, he, State.upd, State.setPort, State.port]
    · refine .inr (.inr ⟨rfl, he, ?_⟩)
      cases p <;> simp [flushBytes, rxDrain, he, appendDiag, State.upd, State.setPort, State.port]

/-- What the TX phase does: the frame goes out whole and the decoder starts. -/
theorem txStep_eq (p : Port) (s : State) :
    txStep p s =
      { s with txhist := s.txhist ++ (s.port p).txbuf.take (s.port p).txlen.toNat }.upd p
        (fun x => { x with phase := .rx, dstate := .sync, got := [] }) := by
  cases p <;> rfl

/-- What one step of the RX phase can do: its read returns, or it takes the head of RXFIFO, or it waits. -/
theorem rxStep_cases (ending : Port → DecodeOutcome → State → State) (p : Port) (s : State) :
    ((readSize (s.port p) ≤ (s.port p).got.length ∨ (s.rxfifo = [] ∧ s.draw = true)) ∧
      rxStep ending p s = deliverRead ending p s) ∨
    ((s.port p).got.length < readSize (s.port p) ∧ ∃ b rest, s.rxfifo = b :: rest ∧
      rxStep ending p s = { s with rxfifo := rest }.setPort p { s.port p with got := (s.port p).got ++ [b] }) ∨
    ((s.port p).got.length < readSize (s.port p) ∧ s.rxfifo = [] ∧ s.draw = false ∧ rxStep ending p s = s) := by
  by_cases h : readSize (s.port p) ≤ (s.port p).got.length
  · exact .inl ⟨.inl h, by simp [rxStep, h]⟩
  · have h' := Nat.lt_of_not_le h
    cases hr : s.rxfifo with
    | cons b rest => exact .inr (.inl ⟨h', b, rest, rfl, by simp [rxStep, h, hr]⟩)
    | nil =>
      cases hd : s.draw
      · exact .inr (.inr ⟨h', rfl, rfl, by simp [rxStep, h, hr, hd]⟩)
      · exact .inl ⟨.inr ⟨rfl, rfl⟩, by simp [rxStep, h, hr, hd]⟩

/-- `x'` differs from `x` in no register but the decoder's and PARSE's (spec/10_state.md R37, R38, R40). -/
structure DecoderOnly (x x' : PortState) : Prop where
  req : x'.req = x.req
  latch : x'.latch = x.latch
  busy : x'.busy = x.busy
  rsp : x'.rsp = x.rsp
  crc : x'.crc = x.crc
  phase : x'.phase = x.phase
  txbuf : x'.txbuf = x.txbuf
  txlen : x'.txlen = x.txlen
  attempts : x'.attempts = x.attempts
  got : x'.got = x.got
  flushed : x'.flushed = x.flushed
  last : x'.last = x.last

theorem DecoderOnly.trans {x y z : PortState} (h : DecoderOnly x y) (k : DecoderOnly y z) : DecoderOnly x z :=
  ⟨k.req.trans h.req, k.latch.trans h.latch, k.busy.trans h.busy, k.rsp.trans h.rsp, k.crc.trans h.crc,
    k.phase.trans h.phase, k.txbuf.trans h.txbuf, k.txlen.trans h.txlen, k.attempts.trans h.attempts, k.got.trans h.got,
    k.flushed.trans h.flushed, k.last.trans h.last⟩

/-- One state of the decoder writes only the decoder's registers, and not PARSE's. -/
theorem decoderTake_only (r : List Byte) (x : PortState) :
    DecoderOnly x (decoderTake r x).1 ∧ (decoderTake r x).1.parseIn = x.parseIn ∧
      (decoderTake r x).1.parsePos = x.parsePos := by
  unfold decoderTake endDecode
  split
  · exact ⟨by constructor <;> rfl, rfl, rfl⟩
  · split
    · exact ⟨by constructor <;> rfl, rfl, rfl⟩
    · split
      · exact ⟨by constructor <;> rfl, rfl, rfl⟩
      · split <;> exact ⟨by constructor <;> rfl, rfl, rfl⟩
  · split
    · exact ⟨by constructor <;> rfl, rfl, rfl⟩
    · split <;> exact ⟨by constructor <;> rfl, rfl, rfl⟩
  · split <;> exact ⟨by constructor <;> rfl, rfl, rfl⟩
  · split <;> exact ⟨by constructor <;> rfl, rfl, rfl⟩
  · split <;> exact ⟨by constructor <;> rfl, rfl, rfl⟩
  · exact ⟨by constructor <;> rfl, rfl, rfl⟩

/-- The decoder returns to D_IDLE exactly when it gives an outcome. -/
theorem decoderTake_idle {r : List Byte} {x x' : PortState} {o : DecodeOutcome} (h : decoderTake r x = (x', some o)) :
    x'.dstate = .idle := by
  unfold decoderTake endDecode at h
  split at h
  · cases h
  · split at h
    · cases h; rfl
    · split at h
      · cases h; rfl
      · split at h <;> cases h; rfl
  · split at h
    · cases h; rfl
    · split at h <;> cases h; rfl
  · split at h <;> cases h; rfl
  · split at h <;> cases h; rfl
  · split at h
    · cases h
    · cases h; rfl
  · cases h; rfl

/-- A decode that ends SYNC_ERR was in its sync state, at a byte that is neither 0x00 nor 0xFC. -/
theorem decoderTake_syncErr {r : List Byte} {x x' : PortState} {b : Byte}
    (h : decoderTake r x = (x', some (.syncErr b))) : x.dstate = .sync ∧ b ≠ 0x00 ∧ b ≠ 0xFC := by
  unfold decoderTake endDecode at h
  (repeat' split at h) <;> simp_all [Config.noop, Config.sync, checkOutcome]
  obtain ⟨_, h⟩ := h
  split at h <;> cases h

/-- One turn of the PARSE loop: a read of the request's bytes and a state of the decoder. -/
theorem parseLoop_succ (k : Nat) (x : PortState) :
    parseLoop (k + 1) x =
      match decoderTake (parseBytes (readSize x) x)
        { x with parsePos := x.parsePos + (parseBytes (readSize x) x).length } with
      | (x', some o) => (x', o)
      | (x', none) => parseLoop k x' := rfl

theorem parseLoop_only (k : Nat) (x : PortState) :
    DecoderOnly x (parseLoop k x).1 ∧ (parseLoop k x).1.parseIn = x.parseIn := by
  induction k generalizing x with
  | zero => exact ⟨by constructor <;> rfl, rfl⟩
  | succ k ih =>
    rw [parseLoop_succ]
    obtain ⟨h, hin, _⟩ := decoderTake_only (parseBytes (readSize x) x)
      { x with parsePos := x.parsePos + (parseBytes (readSize x) x).length }
    have h0 : DecoderOnly x { x with parsePos := x.parsePos + (parseBytes (readSize x) x).length } := by
      constructor <;> rfl
    generalize decoderTake (parseBytes (readSize x) x)
        { x with parsePos := x.parsePos + (parseBytes (readSize x) x).length } = t at h hin
    rcases t with ⟨x', o | o⟩
    · exact ⟨(h0.trans h).trans (ih x').1, (ih x').2.trans hin⟩
    · exact ⟨h0.trans h, hin⟩

/-- PARSE writes only the decoder's registers and its own. -/
theorem parseRun_only (d : List Byte) (x : PortState) :
    DecoderOnly x (parseRun d x).1 ∧ (parseRun d x).1.parseIn = d := by
  obtain ⟨h, hin⟩ := parseLoop_only 5 { x with parseIn := d, parsePos := 0, dstate := .sync }
  exact ⟨DecoderOnly.trans (by constructor <;> rfl) h, hin⟩

/-- The decoder ends PARSE in D_IDLE. -/
theorem parseLoop_idle (k : Nat) (x : PortState) : (parseLoop k x).1.dstate = .idle := by
  induction k generalizing x with
  | zero => rfl
  | succ k ih =>
    rw [parseLoop_succ]
    generalize hd : decoderTake (parseBytes (readSize x) x)
        { x with parsePos := x.parsePos + (parseBytes (readSize x) x).length } = t
    rcases t with ⟨x', o | o⟩
    · exact ih x'
    · exact decoderTake_idle hd

theorem parseRun_idle (d : List Byte) (x : PortState) : (parseRun d x).1.dstate = .idle := parseLoop_idle ..

/-- The position of PARSE stays inside its input. -/
theorem parseLoop_pos (k : Nat) (x : PortState) (h : x.parsePos ≤ x.parseIn.length) :
    (parseLoop k x).1.parsePos ≤ x.parseIn.length := by
  induction k generalizing x with
  | zero => exact h
  | succ k ih =>
    rw [parseLoop_succ]
    have hp : x.parsePos + (parseBytes (readSize x) x).length ≤ x.parseIn.length := by
      simp only [parseBytes, List.length_take, List.length_drop]; omega
    obtain ⟨_, hin, hpos⟩ := decoderTake_only (parseBytes (readSize x) x)
      { x with parsePos := x.parsePos + (parseBytes (readSize x) x).length }
    generalize decoderTake (parseBytes (readSize x) x)
        { x with parsePos := x.parsePos + (parseBytes (readSize x) x).length } = t at hin hpos
    rcases t with ⟨x', o | o⟩
    · have := ih x' (by rw [hpos, hin]; exact hp)
      rw [hin] at this; exact this
    · rw [hpos]; exact hp

theorem parseRun_pos (d : List Byte) (x : PortState) : (parseRun d x).1.parsePos ≤ d.length :=
  parseLoop_pos 5 { x with parseIn := d, parsePos := 0, dstate := .sync } (Nat.zero_le _)

end Sys2Proof.Machine
end

