-- ==== Sys2Proof/Laws/Exchange.lean ====
section
/-! SUPPORT. What one step of an operation can do: by phase, by outcome, and to everything that is not its own port. -/

namespace Sys2Proof.Machine

/-! ### Everything but the moving port -/

/-- What a step of port `p` leaves alone: the other port, `RUNNING`, `CONFIG` and the model's own fields. The lock can only be
given back by its owner, bytes leave RXFIFO only at the head, and TXHIST and DIAG only grow. -/
structure OwnStep (p : Port) (s s' : State) : Prop where
  other : ∀ q, q ≠ p → s'.port q = s.port q
  running : s'.running = s.running
  config : s'.config = s.config
  cur : s'.cur = s.cur
  draw : s'.draw = s.draw
  inputs : s'.inputs = s.inputs
  tick : s'.tick = s.tick
  sampled : s'.sampled = s.sampled
  lock : s'.lockOwner = s.lockOwner ∨ (s.lockOwner = some p ∧ s'.lockOwner = none)
  rx : ∃ l, s.rxfifo = l ++ s'.rxfifo
  tx : ∃ l, s'.txhist = s.txhist ++ l
  diag : ∃ l, s'.diag = s.diag ++ l

theorem OwnStep.refl (p : Port) (s : State) : OwnStep p s s :=
  ⟨fun _ _ => rfl, rfl, rfl, rfl, rfl, rfl, rfl, rfl, .inl rfl, ⟨[], rfl⟩, ⟨[], by simp⟩, ⟨[], by simp⟩⟩

theorem OwnStep.trans {p : Port} {s t u : State} (h : OwnStep p s t) (k : OwnStep p t u) : OwnStep p s u where
  other q hq := (k.other q hq).trans (h.other q hq)
  running := k.running.trans h.running
  config := k.config.trans h.config
  cur := k.cur.trans h.cur
  draw := k.draw.trans h.draw
  inputs := k.inputs.trans h.inputs
  tick := k.tick.trans h.tick
  sampled := k.sampled.trans h.sampled
  lock := by
    rcases h.lock with h1 | ⟨h1, h2⟩ <;> rcases k.lock with k1 | ⟨k1, k2⟩
    · exact .inl (k1.trans h1)
    · exact .inr ⟨h1 ▸ k1, k2⟩
    · exact .inr ⟨h1, k1.trans h2⟩
    · exact .inr ⟨h1, k2⟩
  rx := by
    obtain ⟨a, ha⟩ := h.rx; obtain ⟨b, hb⟩ := k.rx
    exact ⟨a ++ b, by rw [ha, hb, List.append_assoc]⟩
  tx := by
    obtain ⟨a, ha⟩ := h.tx; obtain ⟨b, hb⟩ := k.tx
    exact ⟨a ++ b, by rw [hb, ha, List.append_assoc]⟩
  diag := by
    obtain ⟨a, ha⟩ := h.diag; obtain ⟨b, hb⟩ := k.diag
    exact ⟨a ++ b, by rw [hb, ha, List.append_assoc]⟩

theorem OwnStep.setPort (p : Port) (s : State) (x : PortState) : OwnStep p s (s.setPort p x) :=
  ⟨fun _ h => State.port_setPort_ne s x h, by simp, by simp, by simp, by simp, by simp, by simp, by simp, .inl (by simp),
    ⟨[], by simp⟩, ⟨[], by simp⟩, ⟨[], by simp⟩⟩

theorem OwnStep.upd (p : Port) (s : State) (f : PortState → PortState) : OwnStep p s (s.upd p f) :=
  OwnStep.setPort p s _

theorem OwnStep.finish (p : Port) (r : Response) (s : State) : OwnStep p s (Machine.finish p r s) :=
  OwnStep.upd p s (fun x => { x with phase := .done r })

theorem OwnStep.release (p : Port) (s : State) : OwnStep p s (releaseLock p s) := by
  refine ⟨fun q _ => releaseLock_port p q s, rfl, rfl, rfl, rfl, rfl, rfl, rfl, ?_, ⟨[], rfl⟩, ⟨[], by simp⟩, ⟨[], by simp⟩⟩
  rw [releaseLock_lockOwner]
  split
  · exact .inr ⟨‹_›, rfl⟩
  · exact .inl rfl

theorem OwnStep.complete (p : Port) (r : Response) (s : State) : OwnStep p s (complete p r s) :=
  (OwnStep.upd p s _).trans (OwnStep.release p _)

theorem OwnStep.appendDiag (p : Port) (e : DiagEvent) (s : State) : OwnStep p s (appendDiag e s) :=
  ⟨fun q _ => by cases q <;> rfl, rfl, rfl, rfl, rfl, rfl, rfl, rfl, .inl rfl, ⟨[], rfl⟩, ⟨[], by simp [Machine.appendDiag]⟩,
    ⟨[e], rfl⟩⟩

theorem OwnStep.txWrite (p : Port) (f : List Byte) (s : State) : OwnStep p s (txWrite f s) :=
  ⟨fun q _ => by cases q <;> rfl, rfl, rfl, rfl, rfl, rfl, rfl, rfl, .inl rfl, ⟨[], rfl⟩, ⟨f, rfl⟩,
    ⟨[], by simp [Machine.txWrite]⟩⟩

theorem OwnStep.dropRx (p : Port) (s : State) (l r : List Byte) (h : s.rxfifo = l ++ r) :
    OwnStep p s { s with rxfifo := r } :=
  ⟨fun q _ => by cases q <;> rfl, rfl, rfl, rfl, rfl, rfl, rfl, rfl, .inl rfl, ⟨l, h⟩, ⟨[], by simp⟩, ⟨[], by simp⟩⟩

theorem OwnStep.begin (p : Port) (c : Byte) (d : List Byte) (s : State) : OwnStep p s (beginExchange p c d s) := by
  rcases beginExchange_cases p c d s with ⟨f, v, _, h⟩ | ⟨_, h⟩ <;> rw [h] <;> exact OwnStep.upd p s _

theorem OwnStep.sample (p : Port) (r : Response) (s : State) : OwnStep p s (sampleStep p r s) := by
  unfold sampleStep
  split
  · exact OwnStep.upd p s _
  · exact OwnStep.complete p r s

theorem OwnStep.flush (p : Port) (c : Byte) (s : State) : OwnStep p s (flushStep p c s) := by
  rcases flushStep_cases p c s with ⟨_, h⟩ | ⟨_, _, h⟩ | ⟨_, _, h⟩ <;> rw [h]
  · exact OwnStep.upd p s _
  · exact OwnStep.upd p s _
  · exact ((OwnStep.dropRx p s s.rxfifo [] (by simp)).trans (OwnStep.appendDiag p _ _)).trans (OwnStep.upd p _ _)

theorem OwnStep.tx_phase (p : Port) (s : State) : OwnStep p s (txStep p s) :=
  (OwnStep.txWrite p ((s.port p).txbuf.take (s.port p).txlen.toNat) s).trans
    (OwnStep.upd p _ (fun x => { x with phase := .rx, dstate := .sync, got := [] }))

theorem OwnStep.note (p : Port) (o : DecodeOutcome) (s : State) : OwnStep p s (noteSyncLoss p o s) := by
  unfold noteSyncLoss
  split
  · exact OwnStep.appendDiag p _ s
  · exact OwnStep.refl p s

theorem OwnStep.deliver {ending : Port → DecodeOutcome → State → State} {p : Port}
    (he : ∀ o s, OwnStep p s (ending p o s)) (s : State) : OwnStep p s (deliverRead ending p s) := by
  unfold deliverRead
  simp only
  split
  · exact OwnStep.setPort p s _
  · exact ((OwnStep.setPort p s _).trans (OwnStep.note p _ _)).trans (he _ _)

theorem OwnStep.rx_phase {ending : Port → DecodeOutcome → State → State} {p : Port}
    (he : ∀ o s, OwnStep p s (ending p o s)) (s : State) : OwnStep p s (rxStep ending p s) := by
  rcases rxStep_cases ending p s with ⟨_, h⟩ | ⟨_, b, rest, hr, h⟩ | ⟨_, _, _, h⟩ <;> rw [h]
  · exact OwnStep.deliver he s
  · exact (OwnStep.dropRx p s [b] rest hr).trans (OwnStep.setPort p _ _)
  · exact OwnStep.refl p s

theorem OwnStep.ackLoop (c : Byte) (d : List Byte) (p : Port) (s : State) : OwnStep p s (ackLoop c d p s) := by
  unfold Machine.ackLoop
  simp only
  split
  · exact OwnStep.complete p _ s
  · exact OwnStep.begin p c d s

theorem OwnStep.ackStart (c : Byte) (d : List Byte) (p : Port) (s : State) : OwnStep p s (ackStart c d p s) := by
  unfold Machine.ackStart
  split
  · exact OwnStep.finish p _ s
  · exact (OwnStep.upd p s _).trans (OwnStep.ackLoop c d p _)

theorem OwnStep.xchgEnding (p : Port) (o : DecodeOutcome) (s : State) : OwnStep p s (xchgEnding p o s) :=
  OwnStep.finish p _ s

theorem OwnStep.echoEnding (c : Byte) (d : List Byte) (p : Port) (o : DecodeOutcome) (s : State) :
    OwnStep p s (echoEnding c d p o s) := by
  unfold Machine.echoEnding
  split <;> exact OwnStep.finish p _ s

theorem OwnStep.ackEnding (c : Byte) (d : List Byte) (p : Port) (o : DecodeOutcome) (s : State) :
    OwnStep p s (ackEnding c d p o s) := by
  unfold Machine.ackEnding
  simp only
  split
  · exact (OwnStep.upd p s _).trans (OwnStep.finish p _ _)
  · exact (((OwnStep.upd p s _).trans (OwnStep.upd p _ _)).trans (OwnStep.release p _)).trans (OwnStep.ackLoop c d p _)

/-- What a step of an exchange operation can do, by the phase it finds. -/
theorem exchangeOp_cases {c : Byte} {start : Port → State → State} {cancelled : PortState → Response}
    {ending : Port → DecodeOutcome → State → State} {s s' : State}
    (h : exchangeOp c start cancelled ending s = .next s') :
    ((s.port s.cur).phase = .idle ∧ s' = start s.cur s) ∨
    ((s.port s.cur).phase = .waitGrant ∧ s.lockOwner = some s.cur ∧
      s' = sampleStep s.cur (cancelled (s.port s.cur)) s) ∨
    ((s.port s.cur).phase = .waitGrant ∧ s.lockOwner ≠ some s.cur ∧ s' = s) ∨
    ((s.port s.cur).phase = .flush ∧ s' = flushStep s.cur c s) ∨
    ((s.port s.cur).phase = .tx ∧ s' = txStep s.cur s) ∨
    ((s.port s.cur).phase = .rx ∧ s' = rxStep ending s.cur s) ∨
    (∃ r, (s.port s.cur).phase = .done r ∧ s' = complete s.cur r s) := by
  unfold exchangeOp at h
  split at h <;> rename_i hp
  · cases h; exact .inl ⟨hp, rfl⟩
  · by_cases hl : s.lockOwner = some s.cur
    · simp only [hl, if_true] at h; cases h; exact .inr (.inl ⟨hp, hl, rfl⟩)
    · simp only [hl, if_false] at h; cases h; exact .inr (.inr (.inl ⟨hp, hl, rfl⟩))
  · cases h; exact .inr (.inr (.inr (.inl ⟨hp, rfl⟩)))
  · cases h; exact .inr (.inr (.inr (.inr (.inl ⟨hp, rfl⟩))))
  · cases h; exact .inr (.inr (.inr (.inr (.inr (.inl ⟨hp, rfl⟩)))))
  · cases h; exact .inr (.inr (.inr (.inr (.inr (.inr ⟨_, hp, rfl⟩)))))
  · cases h

/-- What a step of a lock-free operation can do, by the phase it finds. -/
theorem lockFree_cases {body : Port → State → State} {s s' : State} (h : lockFree body s = .next s') :
    ((s.port s.cur).phase = .idle ∧ s' = s.setPhase s.cur .run) ∨
    ((s.port s.cur).phase = .run ∧ s' = body s.cur s) ∨
    (∃ r, (s.port s.cur).phase = .done r ∧ s' = complete s.cur r s) := by
  unfold lockFree at h
  split at h <;> rename_i hp
  · cases h; exact .inl ⟨hp, rfl⟩
  · cases h; exact .inr (.inl ⟨hp, rfl⟩)
  · cases h; exact .inr (.inr ⟨_, hp, rfl⟩)
  · cases h

theorem exchangeOp_own {c : Byte} {start : Port → State → State} {cancelled : PortState → Response}
    {ending : Port → DecodeOutcome → State → State} {s s' : State}
    (hs : ∀ t : State, OwnStep s.cur t (start s.cur t)) (he : ∀ o t, OwnStep s.cur t (ending s.cur o t))
    (h : exchangeOp c start cancelled ending s = .next s') : OwnStep s.cur s s' := by
  rcases exchangeOp_cases h with ⟨_, e⟩ | ⟨_, _, e⟩ | ⟨_, _, e⟩ | ⟨_, e⟩ | ⟨_, e⟩ | ⟨_, e⟩ | ⟨r, _, e⟩ <;> rw [e]
  · exact hs s
  · exact OwnStep.sample _ _ s
  · exact OwnStep.refl _ s
  · exact OwnStep.flush _ _ s
  · exact OwnStep.tx_phase _ s
  · exact OwnStep.rx_phase he s
  · exact OwnStep.complete _ _ s

theorem lockFree_own {body : Port → State → State} {s s' : State} (hb : ∀ t, OwnStep s.cur t (body s.cur t))
    (h : lockFree body s = .next s') : OwnStep s.cur s s' := by
  rcases lockFree_cases h with ⟨_, rfl⟩ | ⟨_, rfl⟩ | ⟨r, _, rfl⟩
  · exact OwnStep.upd _ s _
  · exact hb s
  · exact OwnStep.complete _ _ s

/-! ### The meanings, by kind -/

/-- The meaning of each instruction that performs exchanges is its kind's operation on its command byte and payload. -/
theorem exec_exchange {i : Instr} {k : ExchangeKind} {c : Byte} {d : List Byte}
    (h : exchangeOperands i = some (k, c, d)) (s : State) :
    exec i s =
      match k with
      | .plain => runXchg c d s
      | .untilAck => runXchgAck c d s
      | .echo => runXchgEcho c d s := by
  cases i <;> simp only [exchangeOperands, Option.some.injEq, Prod.mk.injEq, reduceCtorEq] at h <;>
    obtain ⟨rfl, rfl, rfl⟩ := h <;> rfl

/-- The meaning of each exchange instruction, as one call of `exchangeOp`. -/
theorem exec_exchangeOp {i : Instr} {k : ExchangeKind} {c : Byte} {d : List Byte}
    (h : exchangeOperands i = some (k, c, d)) :
    ∃ start cancelled ending, (∀ s, exec i s = exchangeOp c start cancelled ending s) ∧
      (∀ p s, OwnStep p s (start p s)) ∧ (∀ p o s, OwnStep p s (ending p o s)) := by
  cases k
  · exact ⟨_, _, _, fun s => exec_exchange h s, fun p s => OwnStep.begin p c d s, fun p o s => OwnStep.xchgEnding p o s⟩
  · exact ⟨_, _, _, fun s => exec_exchange h s, fun p s => OwnStep.ackStart c d p s,
      fun p o s => OwnStep.ackEnding c d p o s⟩
  · exact ⟨_, _, _, fun s => exec_exchange h s, fun p s => OwnStep.begin p c d s,
      fun p o s => OwnStep.echoEnding c d p o s⟩

/-- The meaning of each lock-free instruction, as one call of `lockFree`. -/
theorem exec_lockFree {i : Instr} (h : lockFreeInstr i = true) :
    ∃ body, (∀ s, exec i s = lockFree body s) ∧ (∀ p s, OwnStep p s (body p s)) := by
  have crc : ∀ p v (s : State), OwnStep p s (writeCrc p v s) := fun p v s =>
    (OwnStep.upd p s (fun x => { x with crc := v })).trans (OwnStep.finish p _ _)
  cases i <;> simp only [lockFreeInstr, reduceCtorEq] at h
  · exact ⟨_, fun s => rfl, fun p s => crc p _ s⟩
  · exact ⟨fun p s => writeCrc p (crcStep (s.port p).crc _) s, fun s => rfl, fun p s => crc p _ s⟩
  · exact ⟨_, fun s => rfl, fun p s => crc p _ s⟩
  · rename_i c d
    refine ⟨encodeBody c d, fun s => rfl, fun p s => ?_⟩
    unfold encodeBody
    split
    · exact OwnStep.finish p _ s
    · exact (OwnStep.upd p s _).trans (OwnStep.finish p _ _)
  · rename_i d
    exact ⟨parseBody d, fun s => rfl, fun p s => (OwnStep.setPort p s _).trans (OwnStep.finish p _ _)⟩

/-- Every instruction is lock-free, or performs exchanges, or is the reserved row. -/
theorem instr_kinds (i : Instr) :
    (lockFreeInstr i = true ∧ exchangeOperands i = none) ∨
    (lockFreeInstr i = false ∧ ∃ k c d, exchangeOperands i = some (k, c, d)) ∨
    (lockFreeInstr i = false ∧ exchangeOperands i = none ∧ ∃ h d, i = .reservedOp h d) := by
  cases i <;> first
    | exact .inl ⟨rfl, rfl⟩
    | exact .inr (.inl ⟨rfl, _, _, _, rfl⟩)
    | exact .inr (.inr ⟨rfl, rfl, _, _, rfl⟩)

/-- A meaning changes nothing but its own port, the lock it owns, and the two ends of the channel. -/
theorem exec_own {i : Instr} {s s' : State} (h : exec i s = .next s') : OwnStep s.cur s s' := by
  rcases instr_kinds i with ⟨hl, _⟩ | ⟨_, k, c, d, ho⟩ | ⟨_, _, hd, d, rfl⟩
  · obtain ⟨body, he, hb⟩ := exec_lockFree hl
    rw [he] at h
    exact lockFree_own (hb _) h
  · obtain ⟨start, cancelled, ending, he, hs, hn⟩ := exec_exchangeOp ho
    rw [he] at h
    exact exchangeOp_own (hs _) (hn _) h
  · cases h
    exact OwnStep.complete _ _ s

/-- Steps of one instruction follow one another. -/
theorem execTimes_add {i : Instr} {m : Nat} {s t : State} (h : execTimes i m s = .next t) (n : Nat) :
    execTimes i (m + n) s = execTimes i n t := by
  induction m generalizing s with
  | zero =>
    simp only [execTimes, Host.Outcome.next.injEq] at h
    subst h
    rw [Nat.zero_add]
  | succ m ih =>
    rw [Nat.add_right_comm m 1 n]
    simp only [execTimes] at h ⊢
    split at h
    · exact ih h
    · cases h
    · cases h

end Sys2Proof.Machine
end

