-- ==== Sys2Proof/Laws/Parse.lean ====
section
/-! SUPPORT. The decoder over the bytes of a PARSE request, read by read (spec/43_decoder.md R161 to R170). -/

namespace Sys2Proof.Machine

/-- One turn of the PARSE loop, when its read returns `r`. -/
theorem parseLoop_read {k : Nat} {x : PortState} {r : List Byte} (h : parseBytes (readSize x) x = r) :
    parseLoop (k + 1) x =
      match decoderTake r { x with parsePos := x.parsePos + r.length } with
      | (x', some o) => (x', o)
      | (x', none) => parseLoop k x' := by
  subst h; rfl

/-- The first three reads of a PARSE that finds a sync byte, a length of at least 5 and a command byte. -/
theorem parseRun_header {l c : Byte} (t : List Byte) (x : PortState) (h : 5 ≤ l.toNat) :
    parseRun (0xFC :: l :: c :: t) x =
      parseLoop 2 { x with
        parseIn := 0xFC :: l :: c :: t, parsePos := 3, dstate := .data, dlen := l, dcmd := c } := by
  have h5 : ¬ l.toNat < 5 := by omega
  unfold parseRun
  rw [parseLoop_read (r := [0xFC]) rfl]
  simp only [decoderTake, Config.noop, Config.sync, reduceIte, ne_eq, not_true_eq_false, List.length_singleton,
    show ¬ (0xFC : Byte) = 0x00 by decide]
  rw [parseLoop_read (r := [l]) rfl]
  simp only [decoderTake, Config.overhead, h5, if_false, List.length_singleton]
  rw [parseLoop_read (r := [c]) rfl]
  simp only [decoderTake, List.length_singleton]

/-- The data read of a PARSE that finds all the payload. -/
theorem parseLoop_data {x : PortState} {d t : List Byte} (k : Nat) (hs : x.dstate = .data)
    (hd : d.length = x.dlen.toNat - 5) (hb : x.parseIn.drop x.parsePos = d ++ t) :
    parseLoop (k + 1) x =
      parseLoop k { x with parsePos := x.parsePos + d.length, dstate := .crc, ddata := d } := by
  have hr : parseBytes (readSize x) x = d := by simp [parseBytes, readSize, hs, hb, Config.overhead, ← hd]
  rw [parseLoop_read hr]
  have hlt : ¬ d.length < x.dlen.toNat - 5 := by omega
  simp only [decoderTake, hs, Config.overhead, hlt, if_false]

/-- The data read of a PARSE that comes back short. -/
theorem parseLoop_data_short {x : PortState} {d : List Byte} (k : Nat) (hs : x.dstate = .data)
    (hd : d.length < x.dlen.toNat - 5) (hb : x.parseIn.drop x.parsePos = d) :
    parseLoop (k + 1) x =
      ({ x with parsePos := x.parsePos + d.length, dstate := .idle }, .truncated .data d.length) := by
  have hr : parseBytes (readSize x) x = d := by
    simp only [parseBytes, readSize, hs, hb, Config.overhead]
    exact List.take_of_length_le (by omega)
  rw [parseLoop_read hr]
  simp only [decoderTake, endDecode, hs, Config.overhead, hd, if_true]

/-- The trailer read of a PARSE that finds both bytes, and the check. -/
theorem parseLoop_crc {x : PortState} {lo hi : Byte} {t : List Byte} (hs : x.dstate = .crc)
    (hb : x.parseIn.drop x.parsePos = lo :: hi :: t) :
    parseLoop 1 x =
      ({ x with parsePos := x.parsePos + 2, dstate := .idle, dcrc := halfOf lo hi },
        checkOutcome { x with dcrc := halfOf lo hi }) := by
  have hr : parseBytes (readSize x) x = [lo, hi] := by simp [parseBytes, readSize, hs, hb]
  rw [parseLoop_read hr]
  simp only [decoderTake, hs, List.length_cons, List.length_nil, parseLoop]
  rfl

/-- The trailer read of a PARSE that comes back short. -/
theorem parseLoop_crc_short {x : PortState} {t : List Byte} (hs : x.dstate = .crc) (ht : t.length < 2)
    (hb : x.parseIn.drop x.parsePos = t) :
    parseLoop 1 x = ({ x with parsePos := x.parsePos + t.length, dstate := .idle }, .truncated .crc t.length) := by
  have hr : parseBytes (readSize x) x = t := by
    simp only [parseBytes, readSize, hs, hb]
    exact List.take_of_length_le (by omega)
  rw [parseLoop_read hr]
  match t, ht with
  | [], _ => simp only [decoderTake, endDecode, hs]
  | [a], _ => simp only [decoderTake, endDecode, hs]

/-- PARSE of a whole frame, valid or not, whatever follows it. -/
theorem parseRun_frame {l c lo hi : Byte} {d : List Byte} (t : List Byte) (x : PortState) (h : 5 ≤ l.toNat)
    (hd : d.length = l.toNat - 5) :
    parseRun (0xFC :: l :: c :: (d ++ lo :: hi :: t)) x =
      ({ x with
          parseIn := 0xFC :: l :: c :: (d ++ lo :: hi :: t), parsePos := l.toNat, dstate := .idle, dlen := l, dcmd := c
          ddata := d, dcrc := halfOf lo hi },
        if crc16 (0xFC :: l :: c :: d) = halfOf lo hi then .ok c d
        else .crcErr (halfOf lo hi) (crc16 (0xFC :: l :: c :: d))) := by
  rw [parseRun_header _ _ h, parseLoop_data (d := d) (t := lo :: hi :: t) 1 rfl hd rfl]
  have hpos : 3 + d.length + 2 = l.toNat := by omega
  rw [parseLoop_crc (lo := lo) (hi := hi) (t := t) rfl (by simp [show 3 + d.length = d.length + 1 + 1 + 1 by omega])]
  simp only [hpos]
  rfl

/-- The decoder does not read PHASE. -/
theorem decoderTake_phase (r : List Byte) (x : PortState) (ph : Phase) :
    decoderTake r { x with phase := ph } = ({ (decoderTake r x).1 with phase := ph }, (decoderTake r x).2) := by
  unfold decoderTake endDecode
  simp only
  split
  · rfl
  · split
    · rfl
    · split
      · rfl
      · split <;> rfl
  · split
    · rfl
    · split <;> rfl
  · split <;> rfl
  · split <;> rfl
  · split <;> rfl
  · rfl

theorem parseLoop_phase (k : Nat) (x : PortState) (ph : Phase) :
    parseLoop k { x with phase := ph } = ({ (parseLoop k x).1 with phase := ph }, (parseLoop k x).2) := by
  induction k generalizing x with
  | zero => rfl
  | succ k ih =>
    rw [parseLoop_read (x := x) rfl, parseLoop_read (x := { x with phase := ph }) (r := parseBytes (readSize x) x) rfl]
    have h := decoderTake_phase (parseBytes (readSize x) x)
      { x with parsePos := x.parsePos + (parseBytes (readSize x) x).length } ph
    simp only at h ⊢
    rw [h]
    generalize decoderTake (parseBytes (readSize x) x)
      { x with parsePos := x.parsePos + (parseBytes (readSize x) x).length } = t
    rcases t with ⟨y, _ | o⟩
    · exact ih y
    · rfl

/-- PARSE does not read PHASE. -/
theorem parseRun_phase (d : List Byte) (x : PortState) (ph : Phase) :
    parseRun d { x with phase := ph } = ({ (parseRun d x).1 with phase := ph }, (parseRun d x).2) :=
  parseLoop_phase 5 { x with parseIn := d, parsePos := 0, dstate := .sync } ph

end Sys2Proof.Machine
end

