-- ==== Sys2Proof/Laws/PerInstr.lean ====
section
/-! SUPPORT. A family of facts about every instruction as syntax, one lemma for each constructor: the request of a
well-formed instruction carries as many data bytes as its header says (spec/30_encoding.md R95). -/

namespace Sys2Proof.Laws.EncodeCount

/-- The encoding of `i`, if `i` is well-formed, is a request: its data bytes are N in number. -/
def Statement (i : Instr) : Prop := i.wellFormed = true → (encode i).countOk = true

theorem makeRequest_count (op : BitVec 4) (c : Byte) (d : List Byte) (h : countFits d = true) :
    (makeRequest op c d).countOk = true :=
  (makeRequest_fields op c (by simpa [countFits] using h)).2.2.2.2.2

theorem crcInit : Statement .crcInit := fun _ => makeRequest_count _ _ _ rfl
theorem crcByte (b : Byte) : Statement (.crcByte b) := fun _ => makeRequest_count _ _ _ rfl
theorem crc16 (d : List Byte) : Statement (.crc16 d) := fun w => makeRequest_count _ _ _ w
theorem encode (c : Byte) (d : List Byte) : Statement (.encode c d) := fun w => makeRequest_count _ _ _ w
theorem parse (d : List Byte) : Statement (.parse d) := fun w => makeRequest_count _ _ _ w
theorem xchg (c : Byte) (d : List Byte) : Statement (.xchg c d) := fun w => makeRequest_count _ _ _ (Bool.and_eq_true _ _ ▸ w).1
theorem xchgAck (c : Byte) (d : List Byte) : Statement (.xchgAck c d) := fun w => makeRequest_count _ _ _ (Bool.and_eq_true _ _ ▸ w).1
theorem xchgEcho (c : Byte) (d : List Byte) : Statement (.xchgEcho c d) := fun w => makeRequest_count _ _ _ (Bool.and_eq_true _ _ ▸ w).1
theorem reservedOp (h : Header) (d : List Byte) : Statement (.reservedOp h d) := fun w => (Bool.and_eq_true _ _ ▸ w).2
theorem statusReq (d : List Byte) : Statement (.statusReq d) := fun w => makeRequest_count _ _ _ w
theorem reset (d : List Byte) : Statement (.reset d) := fun w => makeRequest_count _ _ _ w
theorem stack1 (d : List Byte) : Statement (.stack1 d) := fun w => makeRequest_count _ _ _ w
theorem stack2 (d : List Byte) : Statement (.stack2 d) := fun w => makeRequest_count _ _ _ w
theorem returnBill (d : List Byte) : Statement (.returnBill d) := fun w => makeRequest_count _ _ _ w
theorem hold (d : List Byte) : Statement (.hold d) := fun w => makeRequest_count _ _ _ w
theorem wait (d : List Byte) : Statement (.wait d) := fun w => makeRequest_count _ _ _ w
theorem ack (d : List Byte) : Statement (.ack d) := fun w => makeRequest_count _ _ _ w
theorem getVersion (d : List Byte) : Statement (.getVersion d) := fun w => makeRequest_count _ _ _ w
theorem setDenom (d : List Byte) : Statement (.setDenom d) := fun w => makeRequest_count _ _ _ w
theorem setSecurity (d : List Byte) : Statement (.setSecurity d) := fun w => makeRequest_count _ _ _ w
theorem setInhibit (d : List Byte) : Statement (.setInhibit d) := fun w => makeRequest_count _ _ _ w
theorem setDirection (d : List Byte) : Statement (.setDirection d) := fun w => makeRequest_count _ _ _ w
theorem setOptFunc (d : List Byte) : Statement (.setOptFunc d) := fun w => makeRequest_count _ _ _ w
theorem setBarFunc (d : List Byte) : Statement (.setBarFunc d) := fun w => makeRequest_count _ _ _ w
theorem setBarInhibit (d : List Byte) : Statement (.setBarInhibit d) := fun w => makeRequest_count _ _ _ w

end Sys2Proof.Laws.EncodeCount
end

