-- ==== Sys2Proof/Laws/Receive.lean ====
section
/-! SUPPORT. What a whole reception does (spec/43_decoder.md R161, spec/44_serializer.md R200): the steps of phase RX, taken one
after another with nothing more from the device, end with the outcome that PARSE gives on the same bytes. -/

namespace Sys2Proof.Machine

/-- Instruction `i` is an exchange whose outcome goes to `ending`. -/
def Receives (i : Instr) (ending : Port → DecodeOutcome → State → State) : Prop :=
  ∀ s : State, (s.port s.cur).phase = .rx → exec i s = .next (rxStep ending s.cur s)

theorem receives_plain {i : Instr} {c : Byte} {d : List Byte} (h : exchangeOperands i = some (.plain, c, d)) :
    Receives i xchgEnding := fun s hp => by
  rw [exec_exchange h]; simp [runXchg, exchangeOp, hp]

theorem receives_untilAck {i : Instr} {c : Byte} {d : List Byte} (h : exchangeOperands i = some (.untilAck, c, d)) :
    Receives i (ackEnding c d) := fun s hp => by
  rw [exec_exchange h]; simp [runXchgAck, exchangeOp, hp]

theorem receives_echo {i : Instr} {c : Byte} {d : List Byte} (h : exchangeOperands i = some (.echo, c, d)) :
    Receives i (echoEnding c d) := fun s hp => by
  rw [exec_exchange h]; simp [runXchgEcho, exchangeOp, hp]

/-- `s` with `m` waiting in RXFIFO and `x` as the registers of the moving port. -/
def atRead (s : State) (m : List Byte) (x : PortState) : State := ({ s with rxfifo := m } : State).setPort s.cur x

@[simp] theorem atRead_cur (s : State) (m : List Byte) (x : PortState) : (atRead s m x).cur = s.cur := by simp [atRead]
@[simp] theorem atRead_draw (s : State) (m : List Byte) (x : PortState) : (atRead s m x).draw = s.draw := by simp [atRead]
@[simp] theorem atRead_rxfifo (s : State) (m : List Byte) (x : PortState) : (atRead s m x).rxfifo = m := by simp [atRead]
@[simp] theorem atRead_port (s : State) (m : List Byte) (x : PortState) : (atRead s m x).port s.cur = x := by simp [atRead]
@[simp] theorem atRead_setPort (s : State) (m : List Byte) (x y : PortState) :
    (atRead s m x).setPort s.cur y = atRead s m y := by simp [atRead]
theorem atRead_self (s : State) : atRead s s.rxfifo (s.port s.cur) = s := by simp [atRead]

/-- A read takes the bytes that wait, as many as it still lacks, one in a step. -/
theorem read_bytes {i : Instr} {e : Port → DecodeOutcome → State → State} (H : Receives i e) (s : State)
    (l rest : List Byte) (x : PortState) (hp : x.phase = .rx) (hl : x.got.length + l.length ≤ readSize x) :
    execTimes i l.length (atRead s (l ++ rest) x) = .next (atRead s rest { x with got := x.got ++ l }) := by
  induction l generalizing x with
  | nil => simp [execTimes]
  | cons b l ih =>
    rw [List.length_cons] at hl
    have hlt : ¬ readSize x ≤ x.got.length := by omega
    have hs : rxStep e s.cur (atRead s (b :: l ++ rest) x) = atRead s (l ++ rest) { x with got := x.got ++ [b] } := by
      simp only [rxStep, atRead_port, atRead_rxfifo, hlt, if_false, List.cons_append]
      cases hc : s.cur <;> simp [atRead, hc, State.setPort]
    simp only [List.length_cons, execTimes]
    rw [H _ (by simpa using hp), atRead_cur, hs]
    simp only
    rw [ih { x with got := x.got ++ [b] } hp
      (by show (x.got ++ [b]).length + l.length ≤ readSize x; rw [List.length_append, List.length_singleton]; omega)]
    simp

/-- A whole read, and what the decoder makes of it: as many bytes as it asks for, or as there are when a timeout is drawn. -/
theorem read_stage {i : Instr} {e : Port → DecodeOutcome → State → State} (H : Receives i e) (s : State) (m : List Byte)
    (x : PortState) (hp : x.phase = .rx) (hg : x.got = []) (hd : s.draw = true ∨ readSize x ≤ m.length) :
    execTimes i ((m.take (readSize x)).length + 1) (atRead s m x) =
      .next (match decoderTake (m.take (readSize x)) x with
        | (x', none) => atRead s (m.drop (readSize x)) x'
        | (x', some o) => e s.cur o (noteSyncLoss s.cur o (atRead s (m.drop (readSize x)) x'))) := by
  have h1 := read_bytes H s (m.take (readSize x)) (m.drop (readSize x)) x hp (by simp [hg])
  rw [List.take_append_drop, hg, List.nil_append] at h1
  rw [execTimes_add h1 1]
  have hx : { x with got := [] } = x := by rw [← hg]
  have hdel : rxStep e s.cur (atRead s (m.drop (readSize x)) { x with got := m.take (readSize x) }) =
      deliverRead e s.cur (atRead s (m.drop (readSize x)) { x with got := m.take (readSize x) }) := by
    rcases rxStep_cases e s.cur (atRead s (m.drop (readSize x)) { x with got := m.take (readSize x) }) with
      ⟨_, h⟩ | ⟨hlt, b, rest, hr, _⟩ | ⟨hlt, _, hdr, _⟩
    · exact h
    · have hlt' : (m.take (readSize x)).length < readSize x := by rw [atRead_port] at hlt; exact hlt
      rw [List.length_take] at hlt'
      rw [atRead_rxfifo, List.drop_of_length_le (by omega)] at hr
      cases hr
    · have hlt' : (m.take (readSize x)).length < readSize x := by rw [atRead_port] at hlt; exact hlt
      rw [List.length_take] at hlt'
      rw [atRead_draw] at hdr
      rcases hd with hd | hd
      · rw [hd] at hdr; cases hdr
      · omega
  simp only [execTimes]
  rw [H _ (by simpa using hp), atRead_cur, hdel]
  unfold deliverRead
  simp only [atRead_port, hx]
  generalize decoderTake (m.take (readSize x)) x = t
  rcases t with ⟨x', _ | o⟩ <;> simp

/-- How many reads and checks are left from a state of the decoder. -/
def readsLeft : DState → Option Nat
  | .idle => none
  | .sync => some 5
  | .len => some 4
  | .cmd => some 3
  | .data => some 2
  | .crc => some 1
  | .check => some 0

/-- The decoder's registers of `x` and `y` are the same. -/
structure DecoderSame (x y : PortState) : Prop where
  dstate : x.dstate = y.dstate
  dlen : x.dlen = y.dlen
  dcmd : x.dcmd = y.dcmd
  ddata : x.ddata = y.ddata
  dcrc : x.dcrc = y.dcrc

theorem DecoderSame.readSize {x y : PortState} (h : DecoderSame x y) : Machine.readSize x = Machine.readSize y := by
  unfold Machine.readSize; rw [h.dstate, h.dlen]

/-- The decoder looks at its own registers and at the bytes of its read, and at nothing else. -/
theorem DecoderSame.take {x y : PortState} (r : List Byte) (h : DecoderSame x y) :
    (decoderTake r x).2 = (decoderTake r y).2 ∧ DecoderSame (decoderTake r x).1 (decoderTake r y).1 := by
  obtain ⟨a, b, c, d, e⟩ := h
  unfold decoderTake endDecode checkOutcome
  rw [a, b, c, d, e]
  repeat' split
  all_goals exact ⟨rfl, by constructor <;> rfl⟩

/-- A read that does not end the decode leaves one read less. -/
theorem readsLeft_take {x x' : PortState} {r : List Byte} {k : Nat} (hk : readsLeft x.dstate = some (k + 1))
    (h : decoderTake r x = (x', none)) : readsLeft x'.dstate = some k := by
  unfold decoderTake endDecode at h
  split at h <;> rename_i hd <;> rw [hd] at hk <;> simp only [readsLeft, reduceCtorEq, Option.some.injEq] at hk
  all_goals
    repeat' split at h
  all_goals cases h
  all_goals simp only [readsLeft, Option.some.injEq]
  all_goals omega

/-- A read that comes back short ends the decode with an outcome that a timeout gives. -/
theorem decoderTake_short {x : PortState} {r : List Byte} (hr : r.length < readSize x) :
    ∃ o, (decoderTake r x).2 = some o ∧ o.waits = true := by
  unfold readSize at hr
  unfold decoderTake endDecode
  split at hr
  · exact absurd hr (Nat.not_lt_zero _)
  · obtain rfl : r = [] := List.length_eq_zero_iff.mp (by omega)
    exact ⟨_, rfl, rfl⟩
  · obtain rfl : r = [] := List.length_eq_zero_iff.mp (by omega)
    exact ⟨_, rfl, rfl⟩
  · obtain rfl : r = [] := List.length_eq_zero_iff.mp (by omega)
    exact ⟨_, rfl, rfl⟩
  · rw [if_pos hr]
    exact ⟨_, rfl, rfl⟩
  · match r, hr with
    | [], _ => exact ⟨_, rfl, rfl⟩
    | [a], _ => exact ⟨_, rfl, rfl⟩
  · exact absurd hr (Nat.not_lt_zero _)

/-- What a decode leaves does not depend on what the decoder's registers were. -/
theorem decoded_decoded_only {x x' z : PortState} (h : DecoderOnly x x') (hi : x'.parseIn = x.parseIn)
    (hp : x'.parsePos = x.parsePos) : decoded z x' = decoded z x := by
  unfold decoded
  rw [h.req, h.latch, h.busy, h.rsp, h.crc, h.phase, h.txbuf, h.txlen, h.attempts, h.flushed, h.last, hi, hp]

/-- Registers of a decode that is over are what `decoded` makes of them. -/
theorem eq_decoded {x y : PortState} (h : DecoderSame x y) (hd : x.dstate = .idle) (hg : x.got = []) : x = decoded y x := by
  unfold decoded
  rw [← h.dlen, ← h.dcmd, ← h.ddata, ← h.dcrc, ← hd, ← hg]

/-- The rest of a reception, against the rest of a PARSE of the same bytes. -/
theorem receive_loop {i : Instr} {e : Port → DecodeOutcome → State → State} (H : Receives i e) (s : State) (k : Nat) :
    ∀ x y : PortState, DecoderSame x y → readsLeft x.dstate = some k → x.phase = .rx → x.got = [] →
      y.parsePos ≤ y.parseIn.length → (s.draw = true ∨ (parseLoop k y).2.waits = false) →
      ∃ n, execTimes i n (atRead s (y.parseIn.drop y.parsePos) x) =
        .next (e s.cur (parseLoop k y).2 (noteSyncLoss s.cur (parseLoop k y).2
          (atRead s (y.parseIn.drop (parseLoop k y).1.parsePos) (decoded (parseLoop k y).1 x)))) := by
  induction k with
  | zero =>
    intro x y hs hk hp hg hle hd
    have hds : x.dstate = .check := by revert hk; cases x.dstate <;> simp [readsLeft]
    have h0 : readSize x = 0 := by simp [readSize, hds]
    have h := read_stage H s (y.parseIn.drop y.parsePos) x hp hg (.inr (by omega))
    rw [h0] at h
    simp only [decoderTake, hds, endDecode, List.take_zero, List.drop_zero] at h
    refine ⟨_, h.trans ?_⟩
    have hc : checkOutcome x = checkOutcome y := by
      unfold checkOutcome; rw [hs.dlen, hs.dcmd, hs.ddata, hs.dcrc]
    have hx : ({ x with dstate := .idle } : PortState) = decoded { y with dstate := .idle } x := by
      unfold decoded; rw [← hs.dlen, ← hs.dcmd, ← hs.ddata, ← hs.dcrc, ← hg]
    simp only [parseLoop, hc, hx]
  | succ k ih =>
    intro x y hs hk hp hg hle hd
    generalize hm : y.parseIn.drop y.parsePos = m
    have hpb : parseBytes (readSize y) y = m.take (readSize x) := by unfold parseBytes; rw [hm, hs.readSize]
    rw [parseLoop_read hpb] at hd ⊢
    have hs1 : DecoderSame x { y with parsePos := y.parsePos + (m.take (readSize x)).length } :=
      ⟨hs.dstate, hs.dlen, hs.dcmd, hs.ddata, hs.dcrc⟩
    obtain ⟨hoo, hsame⟩ := hs1.take (m.take (readSize x))
    obtain ⟨hox, hinx, hposx⟩ := decoderTake_only (m.take (readSize x)) x
    obtain ⟨-, hin, hpos⟩ := decoderTake_only (m.take (readSize x))
      { y with parsePos := y.parsePos + (m.take (readSize x)).length }
    have hlen : m.length = y.parseIn.length - y.parsePos := by rw [← hm, List.length_drop]
    have hdrop : y.parseIn.drop (y.parsePos + (m.take (readSize x)).length) = m.drop (readSize x) := by
      rw [← List.drop_drop, hm, List.length_take]
      by_cases hh : readSize x ≤ m.length
      · rw [Nat.min_eq_left hh]
      · rw [Nat.min_eq_right (by omega), List.drop_of_length_le (Nat.le_refl _), List.drop_of_length_le (by omega)]
    have hle1 : y.parsePos + (m.take (readSize x)).length ≤ y.parseIn.length := by rw [List.length_take]; omega
    have hread : s.draw = true ∨ readSize x ≤ m.length := by
      rcases hd with hd | hd
      · exact .inl hd
      · refine .inr (Nat.not_lt.mp fun hlt => ?_)
        obtain ⟨o, ho, hw⟩ := decoderTake_short (r := m.take (readSize x)) (x := x) (by rw [List.length_take]; omega)
        rw [hoo] at ho
        generalize decoderTake (m.take (readSize x))
          { y with parsePos := y.parsePos + (m.take (readSize x)).length } = t at ho hd
        obtain ⟨y', o'⟩ := t
        simp only at ho
        subst ho
        simp only [hw, reduceCtorEq] at hd
    have h := read_stage H s m x hp hg hread
    rcases hx : decoderTake (m.take (readSize x)) x with ⟨x', o⟩
    rcases hy : decoderTake (m.take (readSize x))
      { y with parsePos := y.parsePos + (m.take (readSize x)).length } with ⟨y', o'⟩
    rw [hx, hy] at hoo hsame
    rw [hx] at h hox hinx hposx
    rw [hy] at hin hpos hd
    simp only at hoo hsame h hin hpos hd hox hinx hposx
    subst hoo
    cases o with
    | none =>
      simp only at h hd ⊢
      have hm' : y'.parseIn.drop y'.parsePos = m.drop (readSize x) := by rw [hin, hpos]; exact hdrop
      obtain ⟨n, hn⟩ := ih x' y' hsame (readsLeft_take hk hx) (hox.phase.trans hp) (hox.got.trans hg)
        (by rw [hin, hpos]; exact hle1) hd
      refine ⟨_, (execTimes_add h n).trans ?_⟩
      rw [← hm', hn, hin]
      rw [decoded_decoded_only hox hinx hposx]
    | some o =>
      simp only at h ⊢
      refine ⟨_, h.trans ?_⟩
      rw [hpos, hdrop]
      rw [← decoded_decoded_only hox hinx hposx, ← eq_decoded hsame (decoderTake_idle hx) (hox.got.trans hg)]

@[simp] theorem noteSyncLoss_eq (p : Port) (o : DecodeOutcome) (s : State) :
    noteSyncLoss p o s = { s with diag := s.diag ++ syncLossOf p o } := by
  cases o <;> simp [noteSyncLoss, syncLossOf, appendDiag]

/-- A reception from the start of RX, with nothing more from the device: the operation's ending takes the outcome that PARSE
gives on the bytes waiting, in the state that the decode leaves. The timeouts that the outcome takes must be drawn. -/
theorem receive {i : Instr} {e : Port → DecodeOutcome → State → State} (H : Receives i e) {s : State} {x' : PortState}
    {o : DecodeOutcome} (ha : atReceive (s.port s.cur)) (hr : parseRun s.rxfifo (s.port s.cur) = (x', o))
    (hd : s.draw = true ∨ o.waits = false) : ∃ n, execTimes i n s = .next (e s.cur o (afterDecode x' o s)) := by
  obtain ⟨hp, hds, hg⟩ := ha
  have hr' : parseLoop 5 { s.port s.cur with parseIn := s.rxfifo, parsePos := 0, dstate := .sync } = (x', o) := hr
  have h := receive_loop H s 5 (s.port s.cur)
    { s.port s.cur with parseIn := s.rxfifo, parsePos := 0, dstate := .sync } ⟨hds, rfl, rfl, rfl, rfl⟩
    (by rw [hds]; rfl) hp hg (Nat.zero_le _) (by rw [hr']; exact hd)
  rw [hr'] at h
  simp only [List.drop_zero, atRead_self] at h
  obtain ⟨n, hn⟩ := h
  refine ⟨n, hn.trans ?_⟩
  cases hc : s.cur <;> simp [afterDecode, atRead, hc, State.upd, State.setPort, State.port]

end Sys2Proof.Machine
end

