-- ==== Sys2Proof/Laws/Step.lean ====
section
/-! SUPPORT. What one step of the machine can do, by the agent that moves. -/

namespace Sys2Proof.Machine

@[simp] theorem afterChoice_port (s : State) (p : Port) : (afterChoice s).port p = s.port p := by
  unfold afterChoice; split <;> cases p <;> rfl

@[simp] theorem afterChoice_fields (s : State) :
    (afterChoice s).lockOwner = s.lockOwner ∧ (afterChoice s).running = s.running ∧
    (afterChoice s).config = s.config ∧ (afterChoice s).diag = s.diag ∧ (afterChoice s).rxfifo = s.rxfifo ∧
    (afterChoice s).txhist = s.txhist ∧ (afterChoice s).sampled = s.sampled := by
  unfold afterChoice; split <;> exact ⟨rfl, rfl, rfl, rfl, rfl, rfl, rfl⟩

@[simp] theorem moving_port (p q : Port) (b : Bool) (s : State) : (moving p b s).port q = s.port q := by
  rw [← afterChoice_port s q]; cases q <;> rfl

@[simp] theorem moving_fields (p : Port) (b : Bool) (s : State) :
    (moving p b s).cur = p ∧ (moving p b s).draw = b ∧
    (moving p b s).lockOwner = s.lockOwner ∧ (moving p b s).running = s.running ∧
    (moving p b s).config = s.config ∧ (moving p b s).diag = s.diag ∧
    (moving p b s).rxfifo = s.rxfifo ∧ (moving p b s).txhist = s.txhist ∧
    (moving p b s).sampled = s.sampled :=
  ⟨rfl, rfl, (afterChoice_fields s).1, (afterChoice_fields s).2.1, (afterChoice_fields s).2.2.1,
    (afterChoice_fields s).2.2.2.1, (afterChoice_fields s).2.2.2.2.1, (afterChoice_fields s).2.2.2.2.2.1, (afterChoice_fields s).2.2.2.2.2.2⟩

/-- A step is the step of the agent that `nextEvent` names. -/
theorem step_of_event {s : State} {e : Config.Event} (h : nextEvent s = e) : step s = agentStep e (afterChoice s) := by
  subst h; rfl

theorem step_of_port {s : State} {p : Port} {b : Bool} (h : nextEvent s = .port p b) :
    step s = portStep p (moving p b s) := step_of_event h

/-- What a step of a sequencer can do: a busy port goes on with what it has latched, a free one accepts what is presented to
it or has nothing to do. -/
theorem portStep_cases {p : Port} {s s' : State} (h : portStep p s = .next s') :
    ((s.port p).busy = true ∧ ∃ r, (s.port p).latch = some r ∧ runRequest p r s = .next s') ∨
    ((s.port p).busy = false ∧ ∃ r, (s.port p).req = some r ∧ runRequest p r (acceptRequest p r s) = .next s') ∨
    ((s.port p).busy = false ∧ (s.port p).req = none ∧ s' = s) := by
  unfold portStep at h
  simp only at h
  split at h <;> rename_i hb
  · split at h <;> rename_i hl
    · exact .inl ⟨hb, _, hl, h⟩
    · cases h
  · have hb' : (s.port p).busy = false := by simpa using hb
    split at h <;> rename_i hr
    · exact .inr (.inl ⟨hb', _, hr, h⟩)
    · cases h; exact .inr (.inr ⟨hb', hr, rfl⟩)

/-- What running a request can do: its instruction, or ILLEGAL_OP at once. -/
theorem runRequest_cases {p : Port} {r : Request} {s s' : State} (h : runRequest p r s = .next s') :
    (∃ i, decode r = .ok i ∧ exec i s = .next s') ∨
    (∃ e, decode r = .error e ∧ e ≠ .dataCount ∧ s' = completeIllegal p s) := by
  unfold runRequest at h
  split at h
  · exact .inl ⟨_, ‹_›, h⟩
  · cases h
  · cases h; exact .inr ⟨_, ‹_›, by assumption, rfl⟩

@[simp] theorem acceptRequest_port (p : Port) (r : Request) (s : State) :
    (acceptRequest p r s).port p = { s.port p with busy := true, latch := some r, req := none } := State.port_upd ..

/-- A step of a sequencer changes nothing but its own port, the lock it owns, and the two ends of the channel. -/
theorem portStep_own {p : Port} {s s' : State} (hc : s.cur = p) (h : portStep p s = .next s') : OwnStep p s s' := by
  have run : ∀ {r : Request} {t : State}, t.cur = p → runRequest p r t = .next s' → OwnStep p t s' := by
    intro r t ht hr
    rcases runRequest_cases hr with ⟨i, _, he⟩ | ⟨_, _, _, rfl⟩
    · exact ht ▸ exec_own he
    · exact OwnStep.complete p _ t
  rcases portStep_cases h with ⟨_, r, _, hr⟩ | ⟨_, r, _, hr⟩ | ⟨_, _, rfl⟩
  · exact run hc hr
  · exact (OwnStep.upd p s _).trans (run (by simpa [acceptRequest] using hc) hr)
  · exact OwnStep.refl p _

/-- What a host presenting a request can do. -/
theorem hostPresent_cases {p : Port} {r : Request} {s s' : State} (h : hostPresent p r s = .next s') :
    (s.port p).req = none ∧ (s.port p).busy = false ∧ r.countOk = true ∧
      s' = s.upd p (fun x => { x with req := some r }) := by
  unfold hostPresent at h
  simp only at h
  split at h
  · cases h
  · split at h
    · cases h
      simp_all
    · cases h

/-- What a host write to CONFIG can do. -/
theorem hostConfig_cases {w : Config.Write} {s s' : State} (h : hostConfig w s = .next s') :
    s.poll.busy = false ∧ s.cmd.busy = false ∧ ∃ c, writeConfig w s.config = some c ∧ s' = { s with config := c } := by
  unfold hostConfig at h
  split at h
  · cases h
  · split at h
    · cases h
      simp_all
    · cases h

end Sys2Proof.Machine
end

