-- ==== Sys2Proof/Tests/Slice0.lean ====
section
/-! SUPPORT. Tests: ill-formed terms that the check refuses, words written out from the spec's encodings, one-step examples
taken from spec/95_test_vectors.md, and for each statement with hypotheses a witness that meets them. -/

namespace Sys2Proof.Tests

open Sys2Proof Sys2Proof.Machine

/-! ### States of the tests -/

/-- After reset, with an empty RXFIFO and the OPEN fields of CONFIG set (95_test_vectors.md Part 3). -/
def base : State :=
  { State.reset with
    rxfifo := []
    config := { ConfigRecord.reset with tRead := 1, stopBits := 1, maxAckAttempts := 3 } }

/-- Port CMD busy with instruction `i` in phase `ph`; it owns the lock, granted while RUNNING was 1, if `own`. -/
def busyIn (i : Instr) (ph : Phase) (own : Bool) : State :=
  { base.upd .cmd (fun x => { x with busy := true, latch := some (encode i), phase := ph }) with
    lockOwner := if own then some .cmd else none, sampled := own }

/-- Port CMD at the start of RX for instruction `i`, owning the lock, with `rx` waiting in RXFIFO. -/
def receiving (i : Instr) (rx : List Byte) : State :=
  { (busyIn i .rx true).upd .cmd (fun x => { x with dstate := .sync }) with rxfifo := rx }

/-- `s` with the agent step `e` to come next. -/
def nextIs (e : Config.Event) (s : State) : State := { s with inputs := [e] }

/-- Port CMD has the request `r` presented to it, and moves next. -/
def presented (r : Request) : State := nextIs (.port .cmd false) (base.upd .cmd (fun x => { x with req := some r }))

/-- What a test looks at in an answer: the port CMD of a next state. -/
def cmdOf (o : Result) : Option PortState :=
  match o with
  | .next s => some s.cmd
  | .fault _ => none
  | .refused _ => none

/-- Whether an answer is a next state. -/
def goesOn (o : Result) : Bool := (cmdOf o).isSome

/-! ### WellFormed: each check refuses an ill-formed term -/

theorem test_wf_count_refused : (Instr.crc16 (List.replicate 256 0)).wellFormed = false := by
  simp only [Instr.wellFormed, countFits, List.length_replicate]; decide

theorem test_wf_count_boundary : (Instr.crc16 (List.replicate 255 0)).wellFormed = true := by
  simp only [Instr.wellFormed, countFits, List.length_replicate]; decide

theorem test_wf_xchg_name_refused : (Instr.xchg 0x11 []).wellFormed = false := by decide

theorem test_wf_ack_name_refused : (Instr.xchgAck 0x40 []).wellFormed = false := by decide

theorem test_wf_echo_name_refused : (Instr.xchgEcho 0xC0 []).wellFormed = false := by decide

theorem test_wf_reserved_op_refused : (Instr.reservedOp 0x00000007 []).wellFormed = false := by decide

theorem test_wf_reserved_count_refused : (Instr.reservedOp 0x00010008 []).wellFormed = false := by decide

theorem test_wf_accepts : (Instr.encode 0x13 [0x63]).wellFormed = true ∧
    (Instr.reservedOp 0xFF0100FF [0x00]).wellFormed = true ∧ (Instr.xchg 0x40 []).wellFormed = true := by decide

/-! ### Decode: words written out from 30_encoding.md R96, R97, R107, R108 -/

theorem test_decode_crc_init : decode ⟨0x00000000, []⟩ = .ok .crcInit := rfl

/-- `crc.byte 0xFC`: OP 1, CMD FC. -/
theorem test_decode_crc_byte : decode ⟨0x0000FC01, []⟩ = .ok (.crcByte 0xFC) := rfl

/-- `crc16 [12 34]`: OP 2, N 2. -/
theorem test_decode_crc16 : decode ⟨0x00020002, [0x12, 0x34]⟩ = .ok (.crc16 [0x12, 0x34]) := rfl

theorem test_decode_encode : decode ⟨0x00011303, [0x63]⟩ = .ok (.encode 0x13 [0x63]) := rfl

theorem test_decode_parse : decode ⟨0x00010004, [0xFC]⟩ = .ok (.parse [0xFC]) := rfl

/-- 95_test_vectors.md X7: `xchg 0x40, []` is 00004005; 0x40 has no row of its own under XCHG. -/
theorem test_decode_xchg : decode ⟨0x00004005, []⟩ = .ok (.xchg 0x40 []) := rfl

theorem test_decode_xchg_ack : decode ⟨0x00014206, [0x01]⟩ = .ok (.xchgAck 0x42 [0x01]) := rfl

theorem test_decode_xchg_echo : decode ⟨0x00011107, [0x05]⟩ = .ok (.xchgEcho 0x11 [0x05]) := rfl

theorem test_decode_reserved : decode ⟨0xAB00CD98, []⟩ = .ok (.reservedOp 0xAB00CD98 []) := rfl

theorem test_decode_status_req : decode ⟨0x00001105, []⟩ = .ok (.statusReq []) := rfl

theorem test_decode_reset : decode ⟨0x00004006, []⟩ = .ok (.reset []) := rfl

theorem test_decode_stack1 : decode ⟨0x00004106, []⟩ = .ok (.stack1 []) := rfl

theorem test_decode_stack2 : decode ⟨0x00004205, []⟩ = .ok (.stack2 []) := rfl

theorem test_decode_return : decode ⟨0x00004306, []⟩ = .ok (.returnBill []) := rfl

theorem test_decode_hold : decode ⟨0x00004405, []⟩ = .ok (.hold []) := rfl

theorem test_decode_wait : decode ⟨0x00004505, []⟩ = .ok (.wait []) := rfl

theorem test_decode_ack : decode ⟨0x00005005, []⟩ = .ok (.ack []) := rfl

theorem test_decode_version : decode ⟨0x00008805, []⟩ = .ok (.getVersion []) := rfl

theorem test_decode_set_denom : decode ⟨0x0002C007, [0x00, 0x00]⟩ = .ok (.setDenom [0x00, 0x00]) := rfl

theorem test_decode_set_security : decode ⟨0x0001C107, [0x01]⟩ = .ok (.setSecurity [0x01]) := rfl

theorem test_decode_set_inhibit : decode ⟨0x0000C307, []⟩ = .ok (.setInhibit []) := rfl

theorem test_decode_set_direction : decode ⟨0x0001C407, [0x02]⟩ = .ok (.setDirection [0x02]) := rfl

theorem test_decode_set_opt_func : decode ⟨0x0002C507, [0x00, 0x00]⟩ = .ok (.setOptFunc [0x00, 0x00]) := rfl

theorem test_decode_set_bar_func : decode ⟨0x0002C607, [0x01, 0x12]⟩ = .ok (.setBarFunc [0x01, 0x12]) := rfl

theorem test_decode_set_bar_inhibit : decode ⟨0x0001C707, [0xFC]⟩ = .ok (.setBarInhibit [0xFC]) := rfl

/-- The illegal headers of 95_test_vectors.md V-ILL with an OP below 8. -/
theorem test_decode_illegal :
    decode ⟨0x00000010, []⟩ = .error .reservedBits ∧ decode ⟨0x01000005, []⟩ = .error .reservedBits ∧
    decode ⟨0x00000100, []⟩ = .error .cmdNotZero ∧ decode ⟨0x00010000, [0]⟩ = .error .countNotZero ∧
    decode ⟨0x00010001, [0]⟩ = .error .countNotZero ∧ decode ⟨0x00000102, []⟩ = .error .cmdNotZero ∧
    decode ⟨0x00000104, []⟩ = .error .cmdNotZero := ⟨rfl, rfl, rfl, rfl, rfl, rfl, rfl⟩

/-- A request whose data are not N in number is no request (30_encoding.md R95). -/
theorem test_decode_count : decode ⟨0x00020002, [0x12]⟩ = .error .dataCount := rfl

/-- Table words: a header with its data bytes above it, a header whose data bytes are 0, and the wire command bytes. -/
theorem test_decode_table_words :
    decodeTableWord 48 0x341200020002 = some (.crc16 [0x12, 0x34]) ∧
    decodeTableWord 32 0x00020002 = some (.crc16 [0x00, 0x00]) ∧
    decodeTableWord 32 0x00004006 = some (.reset []) ∧
    decodeTableWord 8 0x11 = some (.statusReq []) ∧ decodeTableWord 8 0x43 = some (.returnBill []) ∧
    decodeTableWord 8 0xC7 = some (.setBarInhibit []) := by decide

/-! ### The CRC engine (95_test_vectors.md V-CRC, S9) -/

/-- The chain over FC 05 11 27 56. -/
theorem test_crc_chain : crcStep 0x0000 0xFC = 0x3DE3 ∧ crcStep 0x3DE3 0x05 = 0x8205 ∧ crcStep 0x8205 0x11 = 0x5627 ∧
    crcStep 0x5627 0x27 = 0x0056 ∧ crcStep 0x0056 0x56 = 0x0000 := by decide

theorem test_crc_steps : crcStep 0xFFFF 0x00 = 0x0F87 ∧ crcStep 0xFFFF 0xFF = 0x00FF ∧ crcStep 0x1234 0x56 = 0x4006 ∧
    crcStep 0x8408 0x01 = 0x9D45 ∧ crcStep 0x0001 0x00 = 0x1189 := by decide

theorem test_crc16_check : crc16 [0x31, 0x32, 0x33, 0x34, 0x35, 0x36, 0x37, 0x38, 0x39] = 0x2189 := by decide

theorem test_crc_byte : cmdOf (exec (.crcByte 0x00) ((busyIn (.crcByte 0x00) .run false).upd .cmd
    (fun x => { x with crc := 0xD186 }))) =
    some { (busyIn (.crcByte 0x00) .run false).cmd with crc := 0xE1EF, phase := .done (okValue 0xE1EF) } := by decide

theorem test_crc16_overwrites : (cmdOf (exec (.crc16 [0x12, 0x34]) ((busyIn (.crc16 []) .run false).upd .cmd
    (fun x => { x with crc := 0xFFFF })))).map PortState.crc = some 0xD186 := by decide

theorem test_crc_init : (cmdOf (exec .crcInit ((busyIn .crcInit .run false).upd .cmd
    (fun x => { x with crc := 0x5627 })))).map PortState.crc = some 0x0000 := by decide

/-! ### Encoder and decoder (95_test_vectors.md V-ENC, V-DEC) -/

theorem test_encode : encodeFrame 0x13 [0x63] = some ([0xFC, 0x06, 0x13, 0x63, 0xA2, 0xD8], 0xD8A2) ∧
    encodeFrame 0x11 [] = some ([0xFC, 0x05, 0x11, 0x27, 0x56], 0x5627) := by decide

theorem test_encode_too_long : encodeFrame 0x11 (List.replicate 251 0) = none := by
  simp only [encodeFrame, List.length_replicate]; decide

theorem test_encode_loads : (cmdOf (exec (.encode 0x50 [0x01]) (busyIn (.encode 0x50 [0x01]) .run false))).map
    (fun x => (x.txbuf, x.txlen, x.crc)) = some ([0xFC, 0x06, 0x50, 0x01, 0xB8, 0xF4], 0x06, 0x0000) := by decide

/-- V-DEC-11, V-DEC-12, V-DEC-14, V-DEC-16. -/
theorem test_parse_outcomes :
    (parseRun [0xFC, 0x05, 0x11, 0x27] .reset).2 = .truncated .crc 1 ∧
    (parseRun [0xFC, 0x0A, 0x11, 0x27, 0x56] .reset).2 = .truncated .data 2 ∧
    (parseRun [0xFC, 0x05, 0x11, 0x27, 0x57] .reset).2 = .crcErr 0x5727 0x5627 ∧
    (parseRun [0xFC, 0x05, 0x40, 0x2B, 0x15, 0xAA] .reset).2 = .ok 0x40 [] ∧
    (parseRun [0xFC, 0x05, 0x40, 0x2B, 0x15, 0xAA] .reset).1.parsePos = 5 := by decide

theorem test_parse_completes : (cmdOf (exec (.parse [0xFC, 0x04]) (busyIn (.parse [0xFC, 0x04]) .run false))).map
    PortState.phase = some (.done { code := .lenErr, info := { detail := .length 0x04, consumed := some 2 } }) := by
  decide

/-! ### Exchanges, one step each (95_test_vectors.md V-XCH, V-ACK, V-ECH) -/

/-- `@cmd poll` builds FC 05 11 27 56 and waits for the lock. -/
theorem test_status_req_starts : (cmdOf (exec (.statusReq []) (busyIn (.statusReq []) .idle false))).map
    (fun x => (x.txbuf, x.txlen, x.phase)) = some ([0xFC, 0x05, 0x11, 0x27, 0x56], 0x05, .waitGrant) := by decide

/-- The first frames of 30_encoding.md R102 that XCHG_ACK and XCHG send. -/
theorem test_wire_frames :
    (cmdOf (exec (.reset []) (busyIn (.reset []) .idle false))).map PortState.txbuf =
      some [0xFC, 0x05, 0x40, 0x2B, 0x15] ∧
    (cmdOf (exec (.stack1 []) (busyIn (.stack1 []) .idle false))).map PortState.txbuf =
      some [0xFC, 0x05, 0x41, 0xA2, 0x04] ∧
    (cmdOf (exec (.stack2 []) (busyIn (.stack2 []) .idle false))).map PortState.txbuf =
      some [0xFC, 0x05, 0x42, 0x39, 0x36] ∧
    (cmdOf (exec (.returnBill []) (busyIn (.returnBill []) .idle false))).map PortState.txbuf =
      some [0xFC, 0x05, 0x43, 0xB0, 0x27] ∧
    (cmdOf (exec (.hold []) (busyIn (.hold []) .idle false))).map PortState.txbuf =
      some [0xFC, 0x05, 0x44, 0x0F, 0x53] ∧
    (cmdOf (exec (.wait []) (busyIn (.wait []) .idle false))).map PortState.txbuf =
      some [0xFC, 0x05, 0x45, 0x86, 0x42] ∧
    (cmdOf (exec (.ack []) (busyIn (.ack []) .idle false))).map PortState.txbuf =
      some [0xFC, 0x05, 0x50, 0xAA, 0x05] ∧
    (cmdOf (exec (.getVersion []) (busyIn (.getVersion []) .idle false))).map PortState.txbuf =
      some [0xFC, 0x05, 0x88, 0x6F, 0x5F] := by decide

/-- The frames of V-ENC that the SET rows send. -/
theorem test_set_frames :
    (cmdOf (exec (.setDenom [0, 0]) (busyIn (.setDenom []) .idle false))).map PortState.txbuf =
      some [0xFC, 0x07, 0xC0, 0x00, 0x00, 0x2D, 0xB5] ∧
    (cmdOf (exec (.setSecurity [0, 0]) (busyIn (.setSecurity []) .idle false))).map PortState.txbuf =
      some [0xFC, 0x07, 0xC1, 0x00, 0x00, 0xF1, 0xEF] ∧
    (cmdOf (exec (.setInhibit [0]) (busyIn (.setInhibit []) .idle false))).map PortState.txbuf =
      some [0xFC, 0x06, 0xC3, 0x00, 0x04, 0xD6] ∧
    (cmdOf (exec (.setDirection [0]) (busyIn (.setDirection []) .idle false))).map PortState.txbuf =
      some [0xFC, 0x06, 0xC4, 0x00, 0x0C, 0x9B] ∧
    (cmdOf (exec (.setOptFunc [0, 0]) (busyIn (.setOptFunc []) .idle false))).map PortState.txbuf =
      some [0xFC, 0x07, 0xC5, 0x00, 0x00, 0x90, 0x8C] ∧
    (cmdOf (exec (.setBarFunc [0x01, 0x12]) (busyIn (.setBarFunc []) .idle false))).map PortState.txbuf =
      some [0xFC, 0x07, 0xC6, 0x01, 0x12, 0xBF, 0x49] ∧
    (cmdOf (exec (.setBarInhibit [0xFC]) (busyIn (.setBarInhibit []) .idle false))).map PortState.txbuf =
      some [0xFC, 0x06, 0xC7, 0xFC, 0x87, 0x8C] := by decide

/-- X4: the flush of a poll finds 37 00, counts and logs it. -/
theorem test_flush_logs : exec (.statusReq []) { busyIn (.statusReq []) .flush true with rxfifo := [0x37, 0x00] } =
    .next ({ busyIn (.statusReq []) .flush true with diag := [⟨.unexpectedBytes, .cmd, [0x37, 0x00]⟩] }.upd .cmd
      (fun x => { x with phase := .tx, flushed := 2 })) := rfl

/-- X7: an XCHG of another command byte does not flush. -/
theorem test_xchg_does_not_flush : (match exec (.xchg 0x40 []) { busyIn (.xchg 0x40 []) .flush true with rxfifo := [0x37] } with
    | .next s => s.rxfifo
    | _ => []) = [0x37] := by decide

/-- X13: a LENGTH of 3 ends LEN_ERR. -/
theorem test_xchg_len_err : (cmdOf (exec (.getVersion []) ((busyIn (.getVersion []) .rx true).upd .cmd
    (fun x => { x with dstate := .len, got := [0x03] })))).map PortState.phase =
    some (.done { code := .lenErr, info := { detail := .length 0x03, flushed := some 0 } }) := by decide

/-- K9: an ACK frame with a data byte acknowledges RETURN. -/
theorem test_return_ack_with_data : (cmdOf (exec (.returnBill []) ((busyIn (.returnBill []) .rx true).upd .cmd
    (fun x => { x with dstate := .check, dlen := 6, dcmd := 0x50, ddata := [0x01], dcrc := 0xF4B8 })))).map
    PortState.phase = some (.done { code := .ok, status := some 0x50, data := [0x01]
                                    info := { flushed := some 0, attempts := some 1 } }) := by decide

/-- K8: RUNNING = 0 at the first grant gives CANCELLED with no attempt, though the host sets it to 1 before the port's next
step (spec/70_reset_and_hazards.md R285). -/
theorem test_stack1_cancelled : (cmdOf (exec (.stack1 []) ({ busyIn (.stack1 []) .waitGrant true with
    running := true, sampled := false } : State))).map
    (fun x => (x.rsp, x.busy)) = some (some { code := .cancelled, info := { attempts := some 0 } }, false) := by decide

/-- R285: an exchange granted at RUNNING = 1 goes on, though the host writes 0 before its next step. -/
theorem test_sample_is_of_the_grant : (cmdOf (exec (.stack1 []) ({ busyIn (.stack1 []) .waitGrant true with
    running := false } : State))).map PortState.phase = some .flush := by decide

/-- A grant keeps the value of RUNNING it finds. -/
theorem test_grant_samples :
    (grantLock .cmd { busyIn (.stack1 []) .waitGrant false with running := false, sampled := true }).sampled = false ∧
    (grantLock .cmd (busyIn (.stack1 []) .waitGrant false)).sampled = true := by decide

/-- E2: SET_DENOM with the last byte of the echo changed is ACK_ERR. -/
theorem test_set_denom_ack_err : (cmdOf (exec (.setDenom [0, 0]) ((busyIn (.setDenom [0, 0]) .rx true).upd .cmd
    (fun x => { x with dstate := .check, dlen := 7, dcmd := 0xC0, ddata := [0x00, 0x01], dcrc := 0xA4A4 })))).map
    PortState.phase = some (.done { code := .ackErr, info := { detail := .echo 0xC0 .ok (some 0xC0) [0x00, 0x01] } }) := by
  decide

/-- E6: a NOOP answer to SET_DENOM is ACK_ERR; E8: a wrong first byte passes through. -/
theorem test_set_denom_noop_and_sync :
    (cmdOf (exec (.setDenom [0, 0]) ((receiving (.setDenom [0, 0]) []).upd .cmd (fun x => { x with got := [0x00] })))).map
      PortState.phase =
      some (.done { code := .ackErr, info := { detail := .echo 0xC0 .noop (some 0x00) [] } }) ∧
    (cmdOf (exec (.setDenom [0, 0]) ((receiving (.setDenom [0, 0]) []).upd .cmd (fun x => { x with got := [0x12] })))).map
      PortState.phase =
      some (.done { code := .syncErr, info := { detail := .byte 0x12, flushed := some 0 } }) := by decide

/-- A reserved operation completes ILLEGAL_OP. -/
theorem test_reserved_op : (cmdOf (exec (.reservedOp 0x0000000F []) (busyIn (.reservedOp 0x0000000F []) .idle false))).map
    (fun x => (x.rsp, x.busy)) = some (some { code := .illegalOp }, false) := by decide

/-! ### The whole machine -/

/-- The step after `withFetchWord` on the state after reset runs the word's instruction. -/
theorem test_fetch_from_reset : goesOn (step (State.reset.withFetchWord 32 0x00000000)) = true ∧
    goesOn (step (State.reset.withFetchWord 32 0x00000002)) = true ∧
    goesOn (step (State.reset.withFetchWord 32 0x00000008)) = true ∧
    goesOn (step (State.reset.withFetchWord 8 0xC0)) = true := by decide

/-- On port CMD, `xchg.ack 0x42, []` from reset waits for the lock with its frame built. -/
theorem test_fetch_builds_frame : (cmdOf (step (State.reset.withFetchWord 32 0x00004206))).map
    (fun x => (x.txbuf, x.phase)) = some ([0xFC, 0x05, 0x42, 0x39, 0x36], .waitGrant) := by decide

/-- A host may present a request to a free port, not to a busy one. -/
theorem test_present : goesOn (step (nextIs (.present .poll ⟨0x00001105, []⟩) base)) = true ∧
    step (nextIs (.present .cmd ⟨0x00001105, []⟩) (busyIn .crcInit .run false)) = .refused .portNotFree := ⟨by decide, rfl⟩

/-- A host write of an illegal value has no transition. -/
theorem test_config_legal : step (nextIs (.setConfig (.maxAckAttempts 0)) base) = .refused .configNotLegal ∧
    step (nextIs (.setConfig (.baud 4800)) base) = .refused .configNotLegal := ⟨rfl, rfl⟩

/-- ECHO is the identity but where it is written; writing the identity back removes the exception. -/
theorem test_echo_table : echoRead (echoWrite 0xC0 0x50 []) 0xC0 = 0x50 ∧ echoRead (echoWrite 0xC0 0x50 []) 0xC1 = 0xC1 ∧
    echoWrite 0xC0 0xC0 (echoWrite 0xC0 0x50 [(0x11, 0x12)]) = [(0x11, 0x12)] := by decide

/-! ### Witnesses: for each statement with hypotheses, a state and operands that meet them together -/

/-- Port CMD waits for the lock with `@cmd stack_1`, and the arbiter moves next. -/
def granting : State := nextIs (.grant .cmd) (busyIn (.stack1 []) .waitGrant false)

/-- The state after that grant. -/
def granted : State := { busyIn (.stack1 []) .waitGrant true with inputs := [] }

/-- Port CMD at the start of TX with a built frame, its sequencer to move next. -/
def transmitting : State :=
  nextIs (.port .cmd false) ((busyIn (.statusReq []) .tx true).upd .cmd
    (fun x => { x with txbuf := [0xFC, 0x05, 0x11, 0x27, 0x56], txlen := 5 }))

theorem nextIs_sequencerInv {e : Config.Event} {s : State} (h : SequencerInv s) : SequencerInv (nextIs e s) :=
  ⟨fun p => by cases p; exacts [h.1 .poll, h.1 .cmd], fun p => by cases p; exacts [h.2 .poll, h.2 .cmd]⟩

theorem busyIn_sequencerInv {i : Instr} {ph : Phase} {own : Bool} (hd : decode (encode i) = .ok i)
    (hf : phaseFits i ph = true) (hc : ph.onChannel = true → own = true)
    (ho : own = true → ph.mayHoldLock = true ∧ exchangeInstr i = true) : SequencerInv (busyIn i ph own) := by
  refine ⟨fun p => ?_, fun p => ?_⟩ <;> cases p
  · exact ⟨fun _ => ⟨rfl, rfl⟩, nofun⟩
  · exact ⟨nofun, fun _ => ⟨_, _, rfl, hd, hf⟩⟩
  · refine ⟨nofun, fun h => ?_⟩
    cases own <;> cases h
  · refine ⟨fun h => ?_, fun h => ?_⟩
    · rw [hc h]; exact ⟨rfl, rfl⟩
    · cases own
      · cases h
      · refine ⟨(ho rfl).1, fun r j hr hj => ?_⟩
        cases hr; rw [hd] at hj; cases hj; exact (ho rfl).2

theorem granting_sequencerInv : SequencerInv granting :=
  nextIs_sequencerInv (busyIn_sequencerInv rfl rfl nofun nofun)

theorem granting_steps : step granting = .next granted := rfl

theorem transmitting_sequencerInv : SequencerInv transmitting := by
  have h : SequencerInv (busyIn (.statusReq []) .tx true) :=
    busyIn_sequencerInv rfl rfl (fun _ => rfl) (fun _ => ⟨rfl, rfl⟩)
  exact ⟨fun p => by cases p; exacts [h.1 .poll, h.1 .cmd], fun p => by cases p; exacts [h.2 .poll, h.2 .cmd]⟩

theorem presented_sequencerInv (r : Request) : SequencerInv (presented r) := by
  refine ⟨fun p => ?_, fun p => ?_⟩ <;> cases p <;>
    first
      | exact ⟨fun _ => ⟨rfl, rfl⟩, nofun⟩
      | exact ⟨nofun, nofun⟩

/-! Requests and instructions -/

theorem witness_DecodeOfEncodeIsTheInstruction :
    (Instr.setBarFunc [0x01, 0x12]).wellFormed = true ∧ (Instr.reservedOp 0xFF0100FF [0x00]).wellFormed = true := by decide

theorem witness_EncodeOfDecodeIsTheRequest :
    decode ⟨0x0002C607, [0x01, 0x12]⟩ = .ok (.setBarFunc [0x01, 0x12]) := rfl

theorem witness_IllegalRequestsAreThoseOfTheRule :
    (Request.mk 0x00000007 []).countOk = true ∧ (Request.mk 0x00000008 []).countOk = true := by decide

theorem witness_IllegalRequestWritesOnlyItsResponse :
    SequencerInv (presented ⟨0x00000010, []⟩) ∧ nextEvent (presented ⟨0x00000010, []⟩) = .port .cmd false ∧
    ((presented ⟨0x00000010, []⟩).port .cmd).busy = false ∧
    ((presented ⟨0x00000010, []⟩).port .cmd).req = some ⟨0x00000010, []⟩ ∧
    (Request.mk 0x00000010 []).countOk = true ∧ illegalRequest ⟨0x00000010, []⟩ :=
  ⟨presented_sequencerInv _, rfl, rfl, rfl, rfl, .inr (.inl (by decide))⟩

theorem witness_ReservedOpCompletesIllegal : base.lockOwner ≠ some base.cur := by decide

/-! A step runs the decoded instruction -/

theorem witness_StepOfBusyPortRunsLatchedInstruction :
    nextEvent transmitting = .port .cmd false ∧ (transmitting.port .cmd).busy = true ∧
    (transmitting.port .cmd).latch = some ⟨0x00001105, []⟩ ∧ decode ⟨0x00001105, []⟩ = .ok (.statusReq []) :=
  ⟨rfl, rfl, rfl, rfl⟩

theorem witness_StepOfFreePortAcceptsAndRuns :
    nextEvent (presented ⟨0x00001105, []⟩) = .port .cmd false ∧
    ((presented ⟨0x00001105, []⟩).port .cmd).busy = false ∧
    ((presented ⟨0x00001105, []⟩).port .cmd).req = some ⟨0x00001105, []⟩ ∧
    decode ⟨0x00001105, []⟩ = .ok (.statusReq []) := ⟨rfl, rfl, rfl, rfl⟩

theorem witness_FetchWordRunsItsInstruction : decodeTableWord 32 0x00004206 = some (.xchgAck 0x42 []) := by decide

/-! The CRC engine, the encoder and the decoder -/

theorem witness_CrcIsLinear : ([0x12, 0x34] : List Byte).length = ([0xFF, 0x00] : List Byte).length := rfl

/-- The first and the last byte of a message. -/
theorem witness_CrcDetectsSingleByteChange : ∃ (h0 : 0 < ([0x12, 0x34] : List Byte).length)
    (h1 : 1 < ([0x12, 0x34] : List Byte).length),
    (0x13 : Byte) ≠ ([0x12, 0x34] : List Byte)[0] ∧ (0x35 : Byte) ≠ ([0x12, 0x34] : List Byte)[1] := by decide

/-- Both clauses, for CRC_INIT, CRC_BYTE, CRC16, ENCODE, PARSE: the state in phase RUN, and the free port at acceptance. -/
theorem witness_lockFree_clauses :
    ((busyIn .crcInit .run false).port (busyIn .crcInit .run false).cur).phase = .run ∧
    (base.port base.cur).phase = .idle ∧ base.lockOwner ≠ some base.cur := by decide

theorem witness_LockFreeInstructionStartsInRun :
    lockFreeInstr (.parse [0xFC]) = true ∧ (base.port base.cur).phase = .idle := by decide

theorem witness_EncodeBuildsTheFrame : ([] : List Byte).length ≤ 250 ∧ (List.replicate 250 (0 : Byte)).length ≤ 250 :=
  ⟨by decide, by rw [List.length_replicate]⟩

theorem witness_EncodedFrameIsValid : encodeFrame 0x11 [] = some ([0xFC, 0x05, 0x11, 0x27, 0x56], 0x5627) := by decide

theorem witness_ParseOfEncodedFrameRoundTrips :
    ([0x01] : List Byte).length ≤ 250 ∧ (base.port base.cur).phase = .idle ∧ base.lockOwner ≠ some base.cur := by decide

/-- Each clause at the ends of its range: lengths 0 and 4, 5 and 255; 0, 1 and all but one data bytes; 0 and 1 trailer
bytes. -/
theorem witness_ParseOutcomeIsDecidedByItsBytes :
    ((0x01 : Byte) ≠ 0x00 ∧ (0x01 : Byte) ≠ 0xFC) ∧ ((0xFD : Byte) ≠ 0x00 ∧ (0xFD : Byte) ≠ 0xFC) ∧
    (0x00 : Byte).toNat < 5 ∧ (0x04 : Byte).toNat < 5 ∧ 5 ≤ (0x05 : Byte).toNat ∧ 5 ≤ (0xFF : Byte).toNat ∧
    (5 ≤ (0x06 : Byte).toNat ∧ ([] : List Byte).length < (0x06 : Byte).toNat - 5) ∧
    (5 ≤ (0x07 : Byte).toNat ∧ ([0xAA] : List Byte).length < (0x07 : Byte).toNat - 5) ∧
    (([] : List Byte).length = (0x05 : Byte).toNat - 5 ∧ ([] : List Byte).length < 2) ∧
    (([0xAA] : List Byte).length = (0x06 : Byte).toNat - 5 ∧ ([0x27] : List Byte).length < 2) := by decide

/-- The first byte that the statement takes, and the last. -/
theorem witness_CorruptedByteGivesCrcError :
    encodeFrame 0x11 [] = some ([0xFC, 0x05, 0x11, 0x27, 0x56], 0x5627) ∧ 2 ≤ 2 ∧ 2 ≤ 4 ∧
    (0x10 : Byte) ≠ ([0xFC, 0x05, 0x11, 0x27, 0x56] : List Byte)[2] ∧
    (0x57 : Byte) ≠ ([0xFC, 0x05, 0x11, 0x27, 0x56] : List Byte)[4] := by decide

/-! The phases of an exchange -/

theorem witness_ExchangeStartsByBuildingItsFrame :
    exchangeOperands (.stack1 []) = some (.untilAck, 0x41, []) ∧ ([] : List Byte).length ≤ 250 ∧
    0 < base.config.maxAckAttempts ∧ (base.port base.cur).phase = .idle := by decide

theorem witness_OversizedPayloadGivesOnlyEncErr :
    exchangeOperands (.setDenom (List.replicate 251 0)) = some (.echo, 0xC0, List.replicate 251 0) ∧
    250 < (List.replicate 251 (0 : Byte)).length ∧ (base.port base.cur).phase = .idle ∧
    base.lockOwner ≠ some base.cur := ⟨rfl, by rw [List.length_replicate]; decide, rfl, by decide⟩

theorem witness_WaitingPortStaysAsItIs :
    exchangeInstr (.stack1 []) = true ∧ (granting.port granting.cur).phase = .waitGrant ∧
    granting.lockOwner ≠ some granting.cur := by decide

theorem witness_SampleOfZeroCancels :
    exchangeOperands (.stack1 []) = some (.untilAck, 0x41, []) ∧
    (({ granted with sampled := false } : State).port .cmd).phase = .waitGrant ∧
    ({ granted with sampled := false } : State).lockOwner = some .cmd := by decide

theorem witness_SampleOfOneGoesToFlush :
    exchangeInstr (.stack1 []) = true ∧ (granted.port granted.cur).phase = .waitGrant ∧
    granted.lockOwner = some granted.cur ∧ granted.sampled = true := by decide

/-- Both clauses: a status request, and another command byte with FLUSH_ALL off. -/
theorem witness_FlushDrainsForStatusRequests :
    (exchangeOperands (.statusReq []) = some (.plain, 0x11, []) ∧
      ((busyIn (.statusReq []) .flush true).port .cmd).phase = .flush) ∧
    (exchangeOperands (.stack1 []) = some (.untilAck, 0x41, []) ∧ (0x41 : Byte) ≠ 0x11 ∧
      ((busyIn (.stack1 []) .flush true).port .cmd).phase = .flush ∧
      (busyIn (.stack1 []) .flush true).config.flushAll = false) := by decide

theorem witness_FrameIsWrittenWhole :
    exchangeInstr (.statusReq []) = true ∧ (transmitting.port transmitting.cur).phase = .tx ∧
    (transmitting.port transmitting.cur).txbuf.length = (transmitting.port transmitting.cur).txlen.toNat := by decide

/-- Both clauses: bytes waiting, and none with no timeout drawn. -/
theorem witness_ReadTakesTheHeadOrWaits :
    exchangeInstr (.hold []) = true ∧ ((receiving (.hold []) [0xFC]).port .cmd).phase = .rx ∧
    ((receiving (.hold []) [0xFC]).port .cmd).got.length < readSize ((receiving (.hold []) [0xFC]).port .cmd) ∧
    (receiving (.hold []) [0xFC]).rxfifo = [0xFC] ∧ (receiving (.hold []) []).rxfifo = [] ∧
    (receiving (.hold []) []).draw = false := by decide

theorem witness_CompletionPostsAndReleases :
    lockFreeInstr (.crc16 []) = true ∧ exchangeInstr (.xchg 0x99 []) = true ∧
    ((busyIn (.xchg 0x99 []) (.done (okValue 0)) true).port .cmd).phase = .done (okValue 0) := by decide

/-! Whole receptions -/

theorem receiving_atReceive (i : Instr) (rx : List Byte) : atReceive ((receiving i rx).port (receiving i rx).cur) :=
  ⟨rfl, rfl, rfl⟩

theorem witness_XchgReturnsTheFrameReceived :
    exchangeOperands (.statusReq []) = some (.plain, 0x11, []) ∧
    atReceive ((receiving (.statusReq []) (wholeFrame 0x13 [0x63] ++ [0xAA])).port .cmd) ∧
    ([0x63] : List Byte).length ≤ 250 ∧
    (receiving (.statusReq []) (wholeFrame 0x13 [0x63] ++ [0xAA])).rxfifo = wholeFrame 0x13 [0x63] ++ [0xAA] :=
  ⟨rfl, receiving_atReceive _ _, by decide, rfl⟩

theorem witness_XchgAckCompletesOnAck :
    exchangeOperands (.stack1 []) = some (.untilAck, 0x41, []) ∧
    atReceive ((receiving (.stack1 []) (wholeFrame 0x50 [] ++ [])).port .cmd) ∧ ([] : List Byte).length ≤ 250 ∧
    (receiving (.stack1 []) (wholeFrame 0x50 [] ++ [])).rxfifo = wholeFrame 0x50 [] ++ [] :=
  ⟨rfl, receiving_atReceive _ _, by decide, rfl⟩

/-- An outcome that takes no timeout (SYNC_ERR of 37), and one that takes it (a silent device), with attempts left. -/
theorem witness_XchgAckRetriesOnEveryOtherOutcome :
    exchangeOperands (.stack1 []) = some (.untilAck, 0x41, []) ∧ ([] : List Byte).length ≤ 250 ∧
    (∀ rx, atReceive ((receiving (.stack1 []) rx).port .cmd) ∧
      ((receiving (.stack1 []) rx).port .cmd).attempts + 1 ≠ (receiving (.stack1 []) rx).config.maxAckAttempts) ∧
    (∃ x', parseRun [0x37] ((receiving (.stack1 []) [0x37]).port .cmd) = (x', .syncErr 0x37)) ∧
    (∃ x', parseRun [] ((receiving (.stack1 []) []).port .cmd) = (x', .noResponse)) ∧
    ({ receiving (.stack1 []) [] with draw := true } : State).draw = true ∧ (DecodeOutcome.syncErr 0x37).waits = false ∧
    (∀ r, DecodeOutcome.syncErr 0x37 ≠ .ok 0x50 r) ∧ (∀ r, DecodeOutcome.noResponse ≠ .ok 0x50 r) :=
  ⟨rfl, by decide, fun _ => ⟨receiving_atReceive _ _, show 0 + 1 ≠ 3 by decide⟩, ⟨_, rfl⟩, ⟨_, rfl⟩, rfl, rfl, nofun, nofun⟩

/-- The last attempt of three: a silent device, and K5's NOOP. -/
theorem witness_LastAttemptExhaustsRetries :
    (∃ (s : State) (x' : PortState), exchangeOperands (.returnBill []) = some (.untilAck, 0x43, []) ∧
      atReceive (s.port s.cur) ∧ s.rxfifo = [] ∧ parseRun s.rxfifo (s.port s.cur) = (x', .noResponse) ∧ s.draw = true ∧
      (s.port s.cur).attempts + 1 = s.config.maxAckAttempts) ∧
    (∃ (s : State) (x' : PortState), exchangeOperands (.returnBill []) = some (.untilAck, 0x43, []) ∧
      atReceive (s.port s.cur) ∧ parseRun s.rxfifo (s.port s.cur) = (x', .noop) ∧ DecodeOutcome.noop.waits = false ∧
      (∀ r, DecodeOutcome.noop ≠ .ok 0x50 r) ∧ (s.port s.cur).attempts + 1 = s.config.maxAckAttempts) :=
  ⟨⟨{ (receiving (.returnBill []) []).upd .cmd (fun x => { x with attempts := 2 }) with draw := true }, _,
    rfl, ⟨rfl, rfl, rfl⟩, rfl, rfl, rfl, rfl⟩,
   ⟨(receiving (.returnBill []) [0x00]).upd .cmd (fun x => { x with attempts := 2 }), _,
    rfl, ⟨rfl, rfl, rfl⟩, rfl, rfl, nofun, rfl⟩⟩

theorem witness_XchgEchoAcceptsTheEcho :
    exchangeOperands (.setInhibit [0x01]) = some (.echo, 0xC3, [0x01]) ∧
    atReceive ((receiving (.setInhibit [0x01]) (wholeFrame (echoRead base.config.echo 0xC3) [0x01] ++ [])).port .cmd) ∧
    ([0x01] : List Byte).length ≤ 250 ∧ ∀ rx, (receiving (.setInhibit [0x01]) rx).rxfifo = rx :=
  ⟨rfl, receiving_atReceive _ _, by decide, fun _ => rfl⟩

/-- Either half of the disjunction: another status, and another payload. -/
theorem witness_XchgEchoRejectsAnotherFrame :
    exchangeOperands (.setInhibit [0x01]) = some (.echo, 0xC3, [0x01]) ∧
    atReceive ((receiving (.setInhibit [0x01]) (wholeFrame 0x4B [0x01] ++ [])).port .cmd) ∧
    (0x4B : Byte) ≠ echoRead base.config.echo 0xC3 ∧
    atReceive ((receiving (.setInhibit [0x01]) (wholeFrame 0xC3 [0x00] ++ [])).port .cmd) ∧
    ([0x00] : List Byte) ≠ [0x01] ∧ ([0x00] : List Byte).length ≤ 250 ∧
    ∀ rx, (receiving (.setInhibit [0x01]) rx).rxfifo = rx :=
  ⟨rfl, receiving_atReceive _ _, by decide, receiving_atReceive _ _, by decide, by decide, fun _ => rfl⟩

/-- Both clauses: XCHG's row STATUS_REQ and XCHG_ECHO's row SET_INHIBIT. -/
theorem witness_SilentDeviceGivesNoResponse :
    exchangeOperands (.statusReq []) = some (.plain, 0x11, []) ∧ exchangeOperands (.setInhibit []) = some (.echo, 0xC3, []) ∧
    ∀ i, atReceive (({ receiving i [] with draw := true } : State).port .cmd) ∧
      ({ receiving i [] with draw := true } : State).rxfifo = [] := ⟨rfl, rfl, fun _ => ⟨⟨rfl, rfl, rfl⟩, rfl⟩⟩

theorem witness_WrongFirstByteIsSyncErrorAndLogged :
    exchangeOperands (.statusReq []) = some (.plain, 0x11, []) ∧ ExchangeKind.plain ≠ .untilAck ∧
    atReceive ((receiving (.statusReq []) [0x37]).port .cmd) ∧ (receiving (.statusReq []) [0x37]).rxfifo = 0x37 :: [] ∧
    (0x37 : Byte) ≠ 0x00 ∧ (0x37 : Byte) ≠ 0xFC := ⟨rfl, by decide, receiving_atReceive _ _, rfl, by decide, by decide⟩

/-- The three kinds, at one outcome that takes a timeout (TRUNCATED) and at the ACK frame. -/
theorem witness_WireDecodeAgreesWithParse :
    exchangeOperands (.statusReq []) = some (.plain, 0x11, []) ∧ exchangeOperands (.setInhibit []) = some (.echo, 0xC3, []) ∧
    exchangeOperands (.stack1 []) = some (.untilAck, 0x41, []) ∧
    (∀ i, ∃ (s : State) (x' : PortState), atReceive (s.port s.cur) ∧ s.draw = true ∧
      s = { receiving i [0xFC, 0x05] with draw := true } ∧
      parseRun s.rxfifo (s.port s.cur) = (x', .truncated .cmd 0)) ∧
    (∃ (s : State) (x' : PortState), atReceive (s.port s.cur) ∧
      s = receiving (.stack1 []) [0xFC, 0x05, 0x50, 0xAA, 0x05] ∧
      parseRun s.rxfifo (s.port s.cur) = (x', .ok 0x50 []) ∧ (DecodeOutcome.ok 0x50 []).waits = false) :=
  ⟨rfl, rfl, rfl, fun _ => ⟨_, _, ⟨rfl, rfl, rfl⟩, rfl, rfl, rfl⟩,
    ⟨_, _, ⟨rfl, rfl, rfl⟩, rfl, Prod.ext rfl (by decide), rfl⟩⟩

/-! The whole machine -/

theorem witness_ResetGivesTheStatedValues : nextEvent (nextIs .reset (busyIn (.statusReq []) .rx true)) = .reset := rfl

theorem witness_StepKeepsSequencersAndLock : SequencerInv granting ∧ step granting = .next granted :=
  ⟨granting_sequencerInv, granting_steps⟩

theorem granting_buffersInv : BuffersInv granting := by
  intro p; cases p <;> (unfold BuffersOk; decide)

theorem witness_StepKeepsBuffers : SequencerInv granting ∧ BuffersInv granting ∧ step granting = .next granted :=
  ⟨granting_sequencerInv, granting_buffersInv, granting_steps⟩

theorem granting_configInv : ConfigInv granting := by
  unfold ConfigInv; decide

theorem witness_StepKeepsConfigLegal : ConfigInv granting ∧ step granting = .next granted :=
  ⟨granting_configInv, granting_steps⟩

/-- A port that performs an XCHG_ACK below its bound. -/
theorem witness_StepKeepsAttemptsBelowBound :
    SequencerInv granting ∧ ConfigInv granting ∧ AttemptsInv granting ∧ step granting = .next granted := by
  refine ⟨granting_sequencerInv, granting_configInv, ?_, granting_steps⟩
  intro p r i c d hl _ _ _
  cases p
  · cases hl
  · show 0 < 3; decide

/-- Every clause: an exchange past its sample goes on to RX. -/
theorem witness_NoExchangeEntersChannelWhileNotRunning : ∃ s s' : State, SequencerInv s ∧ s.running = false ∧
    step s = .next s' ∧ Admitted s' .cmd ∧ (s'.port .cmd).phase.onChannel = true ∧ Admitted s .cmd :=
  ⟨{ transmitting with running := false }, _,
    ⟨fun p => by cases p; exacts [transmitting_sequencerInv.1 .poll, transmitting_sequencerInv.1 .cmd],
      fun p => by cases p; exacts [transmitting_sequencerInv.2 .poll, transmitting_sequencerInv.2 .cmd]⟩,
    rfl, rfl, ⟨rfl, rfl, .inr rfl⟩, rfl, ⟨rfl, rfl, .inr rfl⟩⟩

/-- Both clauses: a frame written, and a byte from the device. -/
theorem witness_ChannelIsTouchedOnlyByTheLockOwner :
    (∃ s' : State, SequencerInv transmitting ∧ step transmitting = .next s' ∧ s'.txhist ≠ transmitting.txhist) ∧
    (∃ s' : State, SequencerInv (nextIs (.device 0x37) (busyIn .crcInit .run false)) ∧
      step (nextIs (.device 0x37) (busyIn .crcInit .run false)) = .next s' ∧ s'.rxfifo ≠ []) :=
  ⟨⟨_, transmitting_sequencerInv, rfl, by decide⟩,
    ⟨_, nextIs_sequencerInv (busyIn_sequencerInv rfl rfl nofun nofun), rfl, by decide⟩⟩

theorem witness_LockChangesOnlyByGrantAndRelease :
    step granting = .next granted ∧ granted.lockOwner ≠ granting.lockOwner ∧ granted.sampled ≠ granting.sampled :=
  ⟨granting_steps, by decide, by decide⟩

theorem witness_SequencedMachineIsNeverStuck : SequencerInv granting := granting_sequencerInv

/-- Both clauses: the waiting port, and a port that does not wait. -/
theorem witness_GrantGivesAFreeLockToAnyWaitingPort :
    (nextEvent granting = .grant .cmd ∧ granting.lockOwner = none ∧ (granting.port .cmd).phase = .waitGrant) ∧
    (nextEvent (nextIs (.grant .poll) granting) = .grant .poll ∧
      ((nextIs (.grant .poll) granting).port .poll).phase ≠ .waitGrant) :=
  ⟨⟨rfl, rfl, rfl⟩, ⟨rfl, by decide⟩⟩

theorem witness_CrcIsWrittenOnlyByCrcOperations : ∃ s s' : State, SequencerInv s ∧ step s = .next s' ∧
    (s'.port .cmd).crc ≠ (s.port .cmd).crc :=
  ⟨nextIs (.port .cmd false) (busyIn (.crcByte 0x01) .run false), _,
    nextIs_sequencerInv (busyIn_sequencerInv rfl rfl nofun nofun), rfl, by decide⟩

theorem witness_PortStepLeavesTheOtherPort : ∃ s' : State, nextEvent transmitting = .port .cmd false ∧
    step transmitting = .next s' ∧ Port.poll ≠ Port.cmd := ⟨_, rfl, rfl, by decide⟩

/-- Both clauses: a host write of RUNNING, and one of CONFIG. -/
theorem witness_RunningAndConfigAreTheHosts :
    (∃ s', step (nextIs (.setRunning false) base) = .next s' ∧ s'.running ≠ (nextIs (.setRunning false) base).running) ∧
    (∃ s', step (nextIs (.setConfig (.flushAll true)) base) = .next s' ∧
      s'.config ≠ (nextIs (.setConfig (.flushAll true)) base).config) :=
  ⟨⟨_, rfl, by decide⟩, ⟨_, rfl, by decide⟩⟩

/-- Each clause: any host or device input to the free machine. -/
theorem witness_InputsOfDeviceAndHostWriteOnlyTheirOwn :
    (∀ e, nextEvent (nextIs e base) = e) ∧
    ((base.port .poll).req = none ∧ (base.port .poll).busy = false ∧ (Request.mk 0x00001105 []).countOk = true) ∧
    ∀ e, (nextIs e base).poll.busy = false ∧ (nextIs e base).cmd.busy = false :=
  ⟨fun _ => rfl, ⟨rfl, rfl, rfl⟩, fun _ => ⟨rfl, rfl⟩⟩

/-- Either half of the disjunction. -/
theorem witness_ConfigWriteWhileBusyIsRefused :
    (∃ s : State, nextEvent s = .setConfig (.flushAll true) ∧ s.cmd.busy = true) ∧
    (∃ s : State, nextEvent s = .setConfig (.flushAll true) ∧ s.poll.busy = true) :=
  ⟨⟨nextIs (.setConfig (.flushAll true)) (busyIn .crcInit .run false), rfl, rfl⟩,
    ⟨nextIs (.setConfig (.flushAll true)) (base.upd .poll (fun x => { x with busy := true })), rfl, rfl⟩⟩

theorem witness_DiagOnlyGrowsByTheTwoKinds : ∃ s s' : State, step s = .next s' ∧ s'.diag ≠ s.diag :=
  ⟨nextIs (.port .cmd false) { busyIn (.statusReq []) .flush true with rxfifo := [0x37] }, _, rfl, by decide⟩

/-- Two states that agree on the moving port only. -/
theorem witness_LockFreeSeesOnlyItsOwnPort : ∃ s t s' : State, lockFreeInstr (.crcByte 0x01) = true ∧
    s.lockOwner ≠ some s.cur ∧ t.lockOwner ≠ some t.cur ∧ s.port s.cur = t.port t.cur ∧
    exec (.crcByte 0x01) s = .next s' ∧ s ≠ t :=
  ⟨busyIn (.crcByte 0x01) .run false, { busyIn (.crcByte 0x01) .run false with running := false, lockOwner := some .poll },
    _, rfl, by decide, by decide, rfl, rfl, by decide⟩

end Sys2Proof.Tests
end

section
/-! The CRC engine's byte step (spec/41_crc.md R131 to R133). The shifts of the bit-serial form are linear over GF(2), so the
word they start from may be cut into its two bytes: eight shifts bring the high byte down unchanged, and what they make of the
low byte is the table's entry. -/

namespace Sys2Proof.Machine

/-! ### The shifts -/

/-- The low bit chooses what is added, not what is shifted. -/
theorem crcShift_eq_xor (c : Half) : crcShift c = (c >>> 1) ^^^ bif c.getLsbD 0 then Config.crcPolyR else 0#16 := by
  unfold crcShift
  cases c.getLsbD 0
  · exact BitVec.xor_zero.symm
  · rfl

theorem crcShift_of_lsb_clear {c : Half} (h : c.getLsbD 0 = false) : crcShift c = c >>> 1 := by
  rw [crcShift_eq_xor, h, cond_false, BitVec.xor_zero]

/-- Two set bits select `v` twice, which is not at all. -/
theorem cond_xor_eq_xor_cond (x y : Bool) (v : Half) :
    (bif x ^^ y then v else 0#16) = (bif x then v else 0#16) ^^^ (bif y then v else 0#16) := by
  cases x <;> cases y <;> simp

/-- A shift is linear over GF(2). -/
theorem crcShift_xor (a b : Half) : crcShift (a ^^^ b) = crcShift a ^^^ crcShift b := by
  simp only [crcShift_eq_xor, BitVec.getLsbD_xor, cond_xor_eq_xor_cond, BitVec.ushiftRight_xor_distrib]
  ac_rfl

theorem crcShift_iterate_xor (n : Nat) (a b : Half) :
    crcShift^[n] (a ^^^ b) = crcShift^[n] a ^^^ crcShift^[n] b :=
  Function.Semiconj₂.iterate crcShift_xor n a b

/-- While only clear bits leave, the polynomial does not enter. -/
theorem crcShift_iterate_of_low_bits_clear {n : Nat} {c : Half} (h : ∀ i < n, c.getLsbD i = false) :
    crcShift^[n] c = c >>> n := by
  induction n with
  | zero => exact (BitVec.ushiftRight_zero c).symm
  | succ n ih =>
    have hlsb : (c >>> n).getLsbD 0 = false := by simpa using h n n.lt_succ_self
    rw [Function.iterate_succ_apply', ih fun i hi => h i (Nat.lt_succ_of_lt hi), crcShift_of_lsb_clear hlsb,
      ← BitVec.shiftRight_add]

/-! ### Eight shifts of a word, by its two bytes -/

theorem getLsbD_halfOf (lo hi : Byte) (i : Nat) :
    (halfOf lo hi).getLsbD i = if i < 8 then lo.getLsbD i else hi.getLsbD (i - 8) :=
  BitVec.getLsbD_append

theorem halfOf_eq_xor (lo hi : Byte) : halfOf lo hi = halfOf 0#8 hi ^^^ lo.setWidth 16 := by
  refine BitVec.eq_of_getLsbD_eq fun i hi => ?_
  rw [BitVec.getLsbD_xor, getLsbD_halfOf, getLsbD_halfOf]
  by_cases h : i < 8
  · simp [h, hi]
  · simp [h, hi, BitVec.getLsbD_of_ge lo i (Nat.le_of_not_lt h)]

theorem halfOf_ushiftRight (lo hi : Byte) : halfOf lo hi >>> 8 = hi.setWidth 16 := by
  refine BitVec.eq_of_getLsbD_eq fun i hi => ?_
  simp [getLsbD_halfOf, hi]

theorem crcShift_iterate_halfOf_zero (hi : Byte) : crcShift^[8] (halfOf 0#8 hi) = hi.setWidth 16 := by
  have hclear : ∀ i < 8, (halfOf 0#8 hi).getLsbD i = false := fun i hlt => by simp [getLsbD_halfOf, hlt]
  rw [crcShift_iterate_of_low_bits_clear hclear, halfOf_ushiftRight]

/-- R132: an entry of the table is what eight shifts make of its index. -/
theorem romRead_eq_crcShift_iterate : ∀ i : Byte, romRead i = crcShift^[8] (i.setWidth 16) := by
  decide

theorem crcShift_iterate_halfOf (lo hi : Byte) : crcShift^[8] (halfOf lo hi) = hi.setWidth 16 ^^^ romRead lo := by
  rw [halfOf_eq_xor, crcShift_iterate_xor, crcShift_iterate_halfOf_zero, romRead_eq_crcShift_iterate]

theorem crcShift_iterate_eight (x : Half) : crcShift^[8] x = (hiByte x).setWidth 16 ^^^ romRead (loByte x) := by
  rw [← crcShift_iterate_halfOf, halfOf_lo_hi]

/-! ### The step of one byte -/

theorem crcStep_eq (c : Half) (b : Byte) :
    crcStep c b = (c >>> 8) ^^^ romRead ((c ^^^ b.setWidth 16).extractLsb' 0 8) := rfl

theorem crcBitStep_eq_iterate (c : Half) (b : Byte) : crcBitStep c b = crcShift^[8] (c ^^^ b.setWidth 16) := rfl

/-- A byte of the message is added to the low byte of the register only. -/
theorem hiByte_xor_setWidth (c : Half) (b : Byte) : hiByte (c ^^^ b.setWidth 16) = hiByte c := by
  ext i hi
  simp [hiByte]

theorem ushiftRight_eq_hiByte (c : Half) : c >>> 8 = (hiByte c).setWidth 16 := by
  rw [← halfOf_ushiftRight (loByte c), halfOf_lo_hi]

/-- R133: the table step is the bit-serial step. -/
theorem crcStep_eq_crcBitStep (c : Half) (b : Byte) : crcStep c b = crcBitStep c b := by
  calc crcStep c b
      = (hiByte c).setWidth 16 ^^^ romRead (loByte (c ^^^ b.setWidth 16)) := by
        rw [crcStep_eq, ushiftRight_eq_hiByte]; rfl
    _ = crcShift^[8] (c ^^^ b.setWidth 16) := by rw [crcShift_iterate_eight, hiByte_xor_setWidth]
    _ = crcBitStep c b := (crcBitStep_eq_iterate c b).symm

/-! ### The statement -/

/-- Settles O11: the formula is how the model defines the table step; the bit-serial form is cut into the two bytes of its
word. -/
theorem crcTableStepIsBitSerialStep : Obligations.CrcTableStepIsBitSerialStep :=
  fun c b => ⟨crcStep_eq c b, crcStep_eq_crcBitStep c b⟩

end Sys2Proof.Machine
end

section
/-! The frame encoder's laws (spec/42_encoder.md R152, R153): the register after a message folds that message's own trailer to 0,
so a frame is valid; and the decoder that reads a frame back finds the trailer it computes, so PARSE gives the request of the
frame. -/

namespace Sys2Proof.Machine

/-! ### The trailer of a message -/

theorem crcFrom_append (c : Half) (m n : List Byte) : crcFrom c (m ++ n) = crcFrom (crcFrom c m) n := by
  induction m generalizing c with
  | nil => rfl
  | cons b m ih => exact ih (crcStep c b)

theorem crc16_append (m n : List Byte) : crc16 (m ++ n) = crcFrom (crc16 m) n := crcFrom_append _ m n

/-- Folding the register's own low byte in meets the table at 0, and so only shifts the register by a byte. -/
theorem crcStep_own_loByte (lo hi : Byte) : crcStep (halfOf lo hi) lo = hi.setWidth 16 := by
  have hxor : halfOf lo hi ^^^ lo.setWidth 16 = halfOf 0#8 hi := by
    rw [halfOf_eq_xor, BitVec.xor_assoc, BitVec.xor_self, BitVec.xor_zero]
  have hindex : (halfOf lo hi ^^^ lo.setWidth 16).extractLsb' 0 8 = 0#8 := by
    rw [hxor]
    exact loByte_halfOf 0#8 hi
  rw [crcStep_eq, hindex, halfOf_ushiftRight, show romRead 0#8 = 0#16 from rfl, BitVec.xor_zero]

theorem setWidth_eq_halfOf (b : Byte) : b.setWidth 16 = halfOf b 0#8 := by
  rw [halfOf_eq_xor, show halfOf 0#8 0#8 = 0#16 from rfl, BitVec.zero_xor]

/-- R139 (2): the register's own bytes, the low byte first, bring it to 0. -/
theorem crcFrom_trailer (v : Half) : crcFrom v [loByte v, hiByte v] = 0 := by
  calc crcFrom v [loByte v, hiByte v]
      = crcStep (crcStep (halfOf (loByte v) (hiByte v)) (loByte v)) (hiByte v) := by rw [halfOf_lo_hi]; rfl
    _ = crcStep (halfOf (hiByte v) 0#8) (hiByte v) := by rw [crcStep_own_loByte, setWidth_eq_halfOf]
    _ = 0 := crcStep_own_loByte (hiByte v) 0#8

/-! ### The frame -/

/-- What the encoder gives is the whole frame and its CRC, for a payload of at most 250 bytes. -/
theorem encodeFrame_eq_some_iff {c : Byte} {d f : List Byte} {v : Half} :
    encodeFrame c d = some (f, v) ↔ d.length ≤ 250 ∧ f = wholeFrame c d ∧ v = crc16 (frameBody c d) := by
  rw [encodeFrame_eq]
  by_cases h : d.length ≤ 250
  · rw [if_pos h, Option.some.injEq, Prod.mk.injEq]
    exact ⟨fun ⟨hf, hv⟩ => ⟨h, hf.symm, hv.symm⟩, fun ⟨_, hf, hv⟩ => ⟨hf.symm, hv.symm⟩⟩
  · rw [if_neg h]
    exact iff_of_false nofun fun ⟨hle, _⟩ => h hle

theorem wholeFrame_length (c : Byte) (d : List Byte) : (wholeFrame c d).length = 5 + d.length := by
  rw [wholeFrame, List.length_append, frameBody_length, List.length_cons, List.length_singleton]
  omega

theorem wholeFrame_take (c : Byte) (d : List Byte) : (wholeFrame c d).take (5 + d.length - 2) = frameBody c d :=
  List.take_left' (by rw [frameBody_length]; omega)

theorem wholeFrame_drop (c : Byte) (d : List Byte) :
    (wholeFrame c d).drop (5 + d.length - 2) = [loByte (crc16 (frameBody c d)), hiByte (crc16 (frameBody c d))] :=
  List.drop_left' (by rw [frameBody_length]; omega)

/-- R152: the CRC of a whole frame is 0. -/
theorem crc16_wholeFrame (c : Byte) (d : List Byte) : crc16 (wholeFrame c d) = 0 := by
  rw [wholeFrame, crc16_append, crcFrom_trailer]

/-- Settles O20: the parts of the whole frame, and its residue. -/
theorem encodedFrameIsValid : Obligations.EncodedFrameIsValid := by
  intro c d f v h
  obtain ⟨hd, rfl, -⟩ := encodeFrame_eq_some_iff.mp h
  have hlen := wholeFrame_length c d
  refine ⟨rfl, ?_, hlen, by omega, ?_, crc16_wholeFrame c d⟩
  · rw [hlen]; rfl
  · rw [wholeFrame_drop, wholeFrame_take]; rfl

/-! ### The decoder over a frame -/

/-- A frame's LENGTH byte holds its length: 250 bytes and the overhead fit a byte. -/
theorem lengthByte_toNat {d : List Byte} (h : d.length ≤ 250) :
    (BitVec.ofNat 8 (5 + d.length)).toNat = 5 + d.length := by
  rw [BitVec.toNat_ofNat]; omega

/-- The decoder over a whole frame, whatever follows it: it stops at the frame's end, and the check finds the trailer. -/
theorem parseRun_wholeFrame (c : Byte) {d : List Byte} (rest : List Byte) (x : PortState) (h : d.length ≤ 250) :
    (parseRun (wholeFrame c d ++ rest) x).1.parsePos = 5 + d.length ∧
    (parseRun (wholeFrame c d ++ rest) x).2 = .ok c d := by
  have hl := lengthByte_toNat h
  have hsplit : wholeFrame c d ++ rest =
      0xFC :: BitVec.ofNat 8 (5 + d.length) :: c ::
        (d ++ loByte (crc16 (frameBody c d)) :: hiByte (crc16 (frameBody c d)) :: rest) := by
    simp [wholeFrame, frameBody]
  have hcrc : crc16 (0xFC :: BitVec.ofNat 8 (5 + d.length) :: c :: d) =
      halfOf (loByte (crc16 (frameBody c d))) (hiByte (crc16 (frameBody c d))) := (halfOf_lo_hi _).symm
  rw [hsplit, parseRun_frame rest x (by omega) (by omega)]
  exact ⟨hl, if_pos hcrc⟩

/-! ### A lock-free operation from acceptance to response -/

section
variable {body : Port → State → State} {i : Instr} {s t : State} {r : Response}

theorem lockFree_of_idle (h : (s.port s.cur).phase = .idle) : lockFree body s = .next (s.setPhase s.cur .run) := by
  simp [lockFree, h]

theorem lockFree_of_run (h : (s.port s.cur).phase = .run) : lockFree body s = .next (body s.cur s) := by
  simp [lockFree, h]

theorem lockFree_of_done (h : (s.port s.cur).phase = .done r) : lockFree body s = .next (complete s.cur r s) := by
  simp [lockFree, h]

theorem execTimes_succ_of_next (h : exec i s = .next t) (n : Nat) : execTimes i (n + 1) s = execTimes i n t := by
  simp [execTimes, h]

/-- R191, R192: acceptance, the run and the post. A body that leaves the port at `x` with response `r` leaves, after the third
step, that response posted over `x`, and the rest of the state as it was. -/
theorem execTimes_lockFree {x : PortState} (he : ∀ t, exec i t = lockFree body t) (hidle : (s.port s.cur).phase = .idle)
    (hlock : s.lockOwner ≠ some s.cur)
    (hbody : body s.cur (s.setPhase s.cur .run) = finish s.cur r (s.setPort s.cur x)) :
    execTimes i 3 s = .next (s.setPort s.cur (posted r x)) := by
  have hrun : exec i (s.setPhase s.cur .run) = .next (finish s.cur r (s.setPort s.cur x)) := by
    rw [he, lockFree_of_run (by simp), ← hbody]
    simp
  have hdone : exec i (finish s.cur r (s.setPort s.cur x)) = .next (s.setPort s.cur (posted r x)) := by
    rw [he, lockFree_of_done (r := r) (by simp [finish_eq]), complete_of_not_owner r (by simpa [finish_eq] using hlock)]
    simp [finish_eq, State.upd, posted]
  rw [execTimes_succ_of_next ((he s).trans (lockFree_of_idle hidle)), execTimes_succ_of_next hrun,
    execTimes_succ_of_next hdone]
  rfl

end

/-- R170: PARSE posts the decoder's outcome over its bytes, with the count consumed. -/
theorem execTimes_parse {d : List Byte} {s : State} (hidle : (s.port s.cur).phase = .idle)
    (hlock : s.lockOwner ≠ some s.cur) :
    execTimes (.parse d) 3 s =
      .next (s.setPort s.cur
        (posted ((parseRun d (s.port s.cur)).2.response (some (parseRun d (s.port s.cur)).1.parsePos) none none)
          (parseRun d (s.port s.cur)).1)) := by
  refine execTimes_lockFree (body := parseBody d) (fun _ => rfl) hidle hlock ?_
  simp [parseBody, parseRun_phase, finish_eq, State.upd]

/-- Settles O21: three steps of PARSE post what the decoder finds in the frame. -/
theorem parseOfEncodedFrameRoundTrips : Obligations.ParseOfEncodedFrameRoundTrips := by
  intro c d hd
  refine ⟨wholeFrame c d, _, encodeFrame_eq_some_iff.mpr ⟨hd, rfl, rfl⟩, fun rest s hidle hlock => ?_⟩
  obtain ⟨hpos, hout⟩ := parseRun_wholeFrame c rest (s.port s.cur) hd
  refine ⟨3, _, execTimes_parse hidle hlock, ?_⟩
  rw [State.port_setPort, hpos, hout]
  exact ⟨rfl, rfl, rfl⟩

end Sys2Proof.Machine
end

section
/-! Requests and instructions (spec/30_encoding.md R95 to R99): a legal header is put together again from its fields, so the
encoder and the decoder are inverse to each other, and what decodes to none of the eight operations is an illegal header. -/

namespace Sys2Proof

/-! ### The operations of a legal header -/

section
variable {r : Request}

theorem decodeLegal_crcInit (h : r.op = 0) :
    decodeLegal r = if r.cmd ≠ 0 then .error .cmdNotZero else if r.n ≠ 0 then .error .countNotZero else .ok .crcInit := by
  rw [decodeLegal, h]; rfl

theorem decodeLegal_crcByte (h : r.op = 1) :
    decodeLegal r = if r.n ≠ 0 then .error .countNotZero else .ok (.crcByte r.cmd) := by
  rw [decodeLegal, h]; rfl

theorem decodeLegal_crc16 (h : r.op = 2) :
    decodeLegal r = if r.cmd ≠ 0 then .error .cmdNotZero else .ok (.crc16 r.data) := by
  rw [decodeLegal, h]; rfl

theorem decodeLegal_encode (h : r.op = 3) : decodeLegal r = .ok (.encode r.cmd r.data) := by
  rw [decodeLegal, h]; rfl

theorem decodeLegal_parse (h : r.op = 4) :
    decodeLegal r = if r.cmd ≠ 0 then .error .cmdNotZero else .ok (.parse r.data) := by
  rw [decodeLegal, h]; rfl

theorem decodeLegal_xchg (h : r.op = 5) : decodeLegal r = .ok (nameXchg r.cmd r.data) := by
  rw [decodeLegal, h]; rfl

theorem decodeLegal_ack (h : r.op = 6) : decodeLegal r = .ok (nameAck r.cmd r.data) := by
  rw [decodeLegal, h]; rfl

theorem decodeLegal_echo (h : r.op = 7) : decodeLegal r = .ok (nameEcho r.cmd r.data) := by
  rw [decodeLegal, h]; rfl

end

/-! ### The decoder over a request that the encoder makes -/

section
variable {op : BitVec 4} {d : List Byte}

theorem makeRequest_op (op : BitVec 4) (c : Byte) (d : List Byte) : (makeRequest op c d).op = op := makeHeader_op ..

theorem makeRequest_cmd (op : BitVec 4) (c : Byte) (d : List Byte) : (makeRequest op c d).cmd = c := makeHeader_cmd ..

/-- A header of an operation of R97, with as many data bytes as it says, is judged by the must-be-zero fields alone. -/
theorem decode_makeRequest (c : Byte) (hop : op.getLsbD 3 = false) (hd : countFits d = true) :
    decode (makeRequest op c d) = decodeLegal (makeRequest op c d) := by
  obtain ⟨ho, hr0, -, -, hr1, hn⟩ := makeRequest_fields op c (d := d) (by simpa [countFits] using hd)
  rw [decode, ho, hr0, hr1, hn, hop]
  rfl

theorem decode_makeRequest_xchg (c : Byte) (hd : countFits d = true) :
    decode (makeRequest 5 c d) = .ok (nameXchg c d) := by
  rw [decode_makeRequest c rfl hd, decodeLegal_xchg (makeRequest_op ..), makeRequest_cmd]; rfl

theorem decode_makeRequest_ack (c : Byte) (hd : countFits d = true) :
    decode (makeRequest 6 c d) = .ok (nameAck c d) := by
  rw [decode_makeRequest c rfl hd, decodeLegal_ack (makeRequest_op ..), makeRequest_cmd]; rfl

theorem decode_makeRequest_echo (c : Byte) (hd : countFits d = true) :
    decode (makeRequest 7 c d) = .ok (nameEcho c d) := by
  rw [decode_makeRequest c rfl hd, decodeLegal_echo (makeRequest_op ..), makeRequest_cmd]; rfl

end

/-! ### The names of the wire rows -/

/-- A command byte without a row of its own keeps the operation's name. -/
theorem nameXchg_of_unnamed {c : Byte} (d : List Byte) (h : xchgNames.contains c = false) :
    nameXchg c d = .xchg c d := by
  simp [xchgNames] at h
  simp [nameXchg, h]

theorem nameAck_of_unnamed {c : Byte} (d : List Byte) (h : ackNames.contains c = false) :
    nameAck c d = .xchgAck c d := by
  simp [ackNames] at h
  simp [nameAck, h]

theorem nameEcho_of_unnamed {c : Byte} (d : List Byte) (h : echoNames.contains c = false) :
    nameEcho c d = .xchgEcho c d := by
  simp [echoNames] at h
  simp [nameEcho, h]

/-- Settles O1: each constructor's request has its operation's number, and a row's command byte has the row's name. -/
theorem decodeOfEncodeIsTheInstruction : Obligations.DecodeOfEncodeIsTheInstruction := by
  intro i hw
  cases i with
  | crcInit => rfl
  | crcByte b =>
    have hn : (makeRequest 1 b []).n = 0 := makeHeader_n ..
    rw [encode, decode_makeRequest b rfl rfl, decodeLegal_crcByte (makeRequest_op ..), makeRequest_cmd, hn]; rfl
  | crc16 d => rw [encode, decode_makeRequest 0 rfl hw, decodeLegal_crc16 (makeRequest_op ..), makeRequest_cmd]; rfl
  | encode c d => rw [encode, decode_makeRequest c rfl hw, decodeLegal_encode (makeRequest_op ..), makeRequest_cmd]; rfl
  | parse d => rw [encode, decode_makeRequest 0 rfl hw, decodeLegal_parse (makeRequest_op ..), makeRequest_cmd]; rfl
  | xchg c d =>
    obtain ⟨hd, hc⟩ := Bool.and_eq_true_iff.mp hw
    rw [encode, decode_makeRequest_xchg c hd, nameXchg_of_unnamed d (by simpa using hc)]
  | xchgAck c d =>
    obtain ⟨hd, hc⟩ := Bool.and_eq_true_iff.mp hw
    rw [encode, decode_makeRequest_ack c hd, nameAck_of_unnamed d (by simpa using hc)]
  | xchgEcho c d =>
    obtain ⟨hd, hc⟩ := Bool.and_eq_true_iff.mp hw
    rw [encode, decode_makeRequest_echo c hd, nameEcho_of_unnamed d (by simpa using hc)]
  | reservedOp h d =>
    obtain ⟨hop, hn⟩ := Bool.and_eq_true_iff.mp hw
    have hop' : (Request.mk h d).op.getLsbD 3 = true := by simpa [Request.op] using hop
    have hn' : (Request.mk h d).countOk = true := hn
    simp [encode, decode, hop', hn']
  | statusReq d => exact decode_makeRequest_xchg _ hw
  | reset d => exact decode_makeRequest_ack _ hw
  | stack1 d => exact decode_makeRequest_ack _ hw
  | stack2 d => exact decode_makeRequest_xchg _ hw
  | returnBill d => exact decode_makeRequest_ack _ hw
  | hold d => exact decode_makeRequest_xchg _ hw
  | wait d => exact decode_makeRequest_xchg _ hw
  | ack d => exact decode_makeRequest_xchg _ hw
  | getVersion d => exact decode_makeRequest_xchg _ hw
  | setDenom d => exact decode_makeRequest_echo _ hw
  | setSecurity d => exact decode_makeRequest_echo _ hw
  | setInhibit d => exact decode_makeRequest_echo _ hw
  | setDirection d => exact decode_makeRequest_echo _ hw
  | setOptFunc d => exact decode_makeRequest_echo _ hw
  | setBarFunc d => exact decode_makeRequest_echo _ hw
  | setBarInhibit d => exact decode_makeRequest_echo _ hw

/-! ### The request that a reading comes from -/

/-- A header whose reserved bits are 0 is what R96 makes of its other fields. -/
theorem makeHeader_of_fields {r : Request} (h0 : r.rsv0 = 0) (h1 : r.rsv1 = 0) :
    makeHeader r.op r.cmd r.n = r.header := by
  have h0' : ∀ i < 32, 4 ≤ i → i < 8 → r.header.getLsbD i = false := fun i _ h4 h8 => by
    have := congrArg (fun v => v.getLsbD (i - 4)) h0
    simpa [Request.rsv0, show i - 4 < 4 by omega, show 4 + (i - 4) = i by omega] using this
  have h1' : ∀ i < 32, 24 ≤ i → r.header.getLsbD i = false := fun i hi h24 => by
    have := congrArg (fun v => v.getLsbD (i - 24)) h1
    simpa [Request.rsv1, show i - 24 < 8 by omega, show 24 + (i - 24) = i by omega] using this
  refine BitVec.eq_of_getLsbD_eq fun i hi => ?_
  simp only [makeHeader, Request.op, Request.cmd, Request.n, BitVec.getLsbD_or, BitVec.getLsbD_setWidth,
    BitVec.getLsbD_shiftLeft, BitVec.getLsbD_extractLsb', hi, decide_true, Bool.true_and, Nat.zero_add]
  rcases (by omega : i < 4 ∨ (4 ≤ i ∧ i < 8) ∨ (8 ≤ i ∧ i < 16) ∨ (16 ≤ i ∧ i < 24) ∨ 24 ≤ i) with
    h | ⟨h, h'⟩ | ⟨h, h'⟩ | ⟨h, h'⟩ | h
  · simp [h, show i < 8 by omega, show i < 16 by omega]
  · simp [h0' i hi h h', show ¬ i < 4 by omega, h', show i < 16 by omega]
  · simp [show ¬ i < 4 by omega, show ¬ i < 8 by omega, h', show i - 8 < 8 by omega, show 8 + (i - 8) = i by omega,
      show i - 8 < 32 by omega]
  · simp [show ¬ i < 4 by omega, show ¬ i < 8 by omega, show ¬ i < 16 by omega, show ¬ i - 8 < 8 by omega,
      show i - 16 < 8 by omega, show 16 + (i - 16) = i by omega, show i - 16 < 32 by omega]
  · simp [h1' i hi h, show ¬ i < 4 by omega, show ¬ i - 8 < 8 by omega, show ¬ i - 16 < 8 by omega]

/-- A request whose reserved bits are 0 and whose data bytes are N in number is what the encoder makes of its parts. -/
theorem makeRequest_of_fields {r : Request} (hn : r.countOk = true) (h0 : r.rsv0 = 0) (h1 : r.rsv1 = 0) :
    makeRequest r.op r.cmd r.data = r := by
  have hlen : r.data.length = r.n.toNat := of_decide_eq_true hn
  unfold makeRequest
  rw [hlen, BitVec.ofNat_toNat, BitVec.setWidth_eq, makeHeader_of_fields h0 h1]

theorem countFits_of_countOk {r : Request} (hn : r.countOk = true) : countFits r.data = true := by
  have hlen : r.data.length = r.n.toNat := of_decide_eq_true hn
  have := r.n.isLt
  simp only [countFits, decide_eq_true_eq]
  omega

theorem data_nil_of_n_zero {r : Request} (hn : r.countOk = true) (h : r.n = 0) : r.data = [] := by
  have hlen : r.data.length = r.n.toNat := of_decide_eq_true hn
  rw [h] at hlen
  exact List.length_eq_zero_iff.mp hlen

/-- Under whatever name, an XCHG of command byte `c` is encoded as such, and its data are its own. -/
theorem encode_nameXchg (c : Byte) {d : List Byte} (hd : countFits d = true) :
    encode (nameXchg c d) = makeRequest 5 c d ∧ (nameXchg c d).wellFormed = true := by
  unfold nameXchg
  split_ifs <;> simp_all [encode, Instr.wellFormed, xchgNames]

theorem encode_nameAck (c : Byte) {d : List Byte} (hd : countFits d = true) :
    encode (nameAck c d) = makeRequest 6 c d ∧ (nameAck c d).wellFormed = true := by
  unfold nameAck
  split_ifs <;> simp_all [encode, Instr.wellFormed, ackNames]

theorem encode_nameEcho (c : Byte) {d : List Byte} (hd : countFits d = true) :
    encode (nameEcho c d) = makeRequest 7 c d ∧ (nameEcho c d).wellFormed = true := by
  unfold nameEcho
  split_ifs <;> simp_all [encode, Instr.wellFormed, echoNames]

/-! ### Legal and illegal headers -/

theorem op_bit_three_iff : ∀ op : BitVec 4, op.getLsbD 3 = true ↔ 8 ≤ op.toNat := by decide

/-- What a reading says of its request: a reserved operation, or a legal header of R98. -/
theorem decode_ok_iff {r : Request} {i : Instr} :
    decode r = .ok i ↔ r.countOk = true ∧
      ((8 ≤ r.op.toNat ∧ i = .reservedOp r.header r.data) ∨
       (r.op.toNat < 8 ∧ r.rsv0 = 0 ∧ r.rsv1 = 0 ∧ decodeLegal r = .ok i)) := by
  unfold decode
  by_cases hn : r.countOk = true
  · by_cases ho : 8 ≤ r.op.toNat
    · rw [if_neg (by simp [hn]), if_pos ((op_bit_three_iff _).mpr ho)]
      simp only [hn, ho, Nat.not_lt.mpr ho, true_and, false_and, or_false, Except.ok.injEq]
      exact eq_comm
    · have ho' : ¬ r.op.getLsbD 3 = true := fun h => ho ((op_bit_three_iff _).mp h)
      by_cases hr : r.rsv0 ≠ 0 ∨ r.rsv1 ≠ 0
      · rw [if_neg (by simp [hn]), if_neg ho', if_pos hr]
        simp only [reduceCtorEq, hn, ho, true_and, false_and, false_or, false_iff]
        rintro ⟨-, h0, h1, -⟩
        exact hr.elim (· h0) (· h1)
      · rw [if_neg (by simp [hn]), if_neg ho', if_neg hr]
        simp only [not_or, not_not] at hr
        simp [hn, ho, hr, Nat.lt_of_not_le ho]
  · simp [hn]

theorem op_cases : ∀ op : BitVec 4, op.toNat < 8 →
    op = 0 ∨ op = 1 ∨ op = 2 ∨ op = 3 ∨ op = 4 ∨ op = 5 ∨ op = 6 ∨ op = 7 := by decide

/-- The readings of a header whose reserved bits are 0, by its operation. -/
theorem decodeLegal_ok {r : Request} {i : Instr} (ho : r.op.toNat < 8) (h : decodeLegal r = .ok i) :
    (r.op = 0 ∧ r.cmd = 0 ∧ r.n = 0 ∧ i = .crcInit) ∨ (r.op = 1 ∧ r.n = 0 ∧ i = .crcByte r.cmd) ∨
    (r.op = 2 ∧ r.cmd = 0 ∧ i = .crc16 r.data) ∨ (r.op = 3 ∧ i = .encode r.cmd r.data) ∨
    (r.op = 4 ∧ r.cmd = 0 ∧ i = .parse r.data) ∨ (r.op = 5 ∧ i = nameXchg r.cmd r.data) ∨
    (r.op = 6 ∧ i = nameAck r.cmd r.data) ∨ (r.op = 7 ∧ i = nameEcho r.cmd r.data) := by
  rcases op_cases r.op ho with e | e | e | e | e | e | e | e
  · rw [decodeLegal_crcInit e] at h
    split_ifs at h with hc hn
    exact .inl ⟨e, not_not.mp hc, not_not.mp hn, (Except.ok.inj h).symm⟩
  · rw [decodeLegal_crcByte e] at h
    split_ifs at h with hn
    exact .inr (.inl ⟨e, not_not.mp hn, (Except.ok.inj h).symm⟩)
  · rw [decodeLegal_crc16 e] at h
    split_ifs at h with hc
    exact .inr (.inr (.inl ⟨e, not_not.mp hc, (Except.ok.inj h).symm⟩))
  · rw [decodeLegal_encode e] at h
    exact .inr (.inr (.inr (.inl ⟨e, (Except.ok.inj h).symm⟩)))
  · rw [decodeLegal_parse e] at h
    split_ifs at h with hc
    exact .inr (.inr (.inr (.inr (.inl ⟨e, not_not.mp hc, (Except.ok.inj h).symm⟩))))
  · rw [decodeLegal_xchg e] at h
    exact .inr (.inr (.inr (.inr (.inr (.inl ⟨e, (Except.ok.inj h).symm⟩)))))
  · rw [decodeLegal_ack e] at h
    exact .inr (.inr (.inr (.inr (.inr (.inr (.inl ⟨e, (Except.ok.inj h).symm⟩))))))
  · rw [decodeLegal_echo e] at h
    exact .inr (.inr (.inr (.inr (.inr (.inr (.inr ⟨e, (Except.ok.inj h).symm⟩))))))

/-- Settles O2: the reading's constructor fixes the operation and the fields that are 0. -/
theorem encodeOfDecodeIsTheRequest : Obligations.EncodeOfDecodeIsTheRequest := by
  intro r i h
  obtain ⟨hn, ⟨ho, rfl⟩ | ⟨ho, h0, h1, hl⟩⟩ := decode_ok_iff.mp h
  · have ho' : r.header.getLsbD 3 = true := by simpa [Request.op] using (op_bit_three_iff r.op).mpr ho
    exact ⟨rfl, Bool.and_eq_true_iff.mpr ⟨ho', hn⟩⟩
  · have hr := makeRequest_of_fields hn h0 h1
    have hd := countFits_of_countOk hn
    rcases decodeLegal_ok ho hl with ⟨e, hc, hz, rfl⟩ | ⟨e, hz, rfl⟩ | ⟨e, hc, rfl⟩ | ⟨e, rfl⟩ | ⟨e, hc, rfl⟩ |
        ⟨e, rfl⟩ | ⟨e, rfl⟩ | ⟨e, rfl⟩ <;> rw [e] at hr
    · rw [hc, data_nil_of_n_zero hn hz] at hr
      exact ⟨hr, rfl⟩
    · rw [data_nil_of_n_zero hn hz] at hr
      exact ⟨hr, rfl⟩
    · rw [hc] at hr
      exact ⟨hr, hd⟩
    · exact ⟨hr, hd⟩
    · rw [hc] at hr
      exact ⟨hr, hd⟩
    · exact ⟨(encode_nameXchg _ hd).1.trans hr, (encode_nameXchg _ hd).2⟩
    · exact ⟨(encode_nameAck _ hd).1.trans hr, (encode_nameAck _ hd).2⟩
    · exact ⟨(encode_nameEcho _ hd).1.trans hr, (encode_nameEcho _ hd).2⟩

/-! ### The illegal requests -/

/-- Only a reserved OP reads as RESERVED_OP: the instruction keeps the header. -/
theorem op_of_decode_reservedOp {r : Request} {h : Header} {d : List Byte} (hr : decode r = .ok (.reservedOp h d)) :
    8 ≤ r.op.toNat := by
  obtain ⟨rfl, hw⟩ := encodeOfDecodeIsTheRequest r _ hr
  have hbit : h.getLsbD 3 = true := (Bool.and_eq_true_iff.mp hw).1
  exact (op_bit_three_iff _).mp (by simpa [encode, Request.op] using hbit)

/-- A header that reads as an operation of R97 breaks none of the rules of R98. -/
theorem not_illegal_of_decodeLegal {r : Request} {i : Instr} (ho : r.op.toNat < 8) (h0 : r.rsv0 = 0) (h1 : r.rsv1 = 0)
    (h : decodeLegal r = .ok i) : ¬ Machine.illegalRequest r := by
  have ho' : ¬ 8 ≤ r.op.toNat := Nat.not_le.mpr ho
  unfold Machine.illegalRequest
  rcases decodeLegal_ok ho h with ⟨e, hc, hn, -⟩ | ⟨e, hn, -⟩ | ⟨e, hc, -⟩ | ⟨e, -⟩ | ⟨e, hc, -⟩ | ⟨e, -⟩ | ⟨e, -⟩ |
    ⟨e, -⟩ <;> simp [*]

/-- A header that breaks none of the rules of R98 and R99 reads as an operation of R97. -/
theorem decodeLegal_of_not_illegal {r : Request} (h : ¬ Machine.illegalRequest r) : ∃ i, decodeLegal r = .ok i := by
  simp only [Machine.illegalRequest, not_or, not_and, not_not, Nat.not_le] at h
  obtain ⟨ho, -, -, hinit, hbyte, hcrc, hparse⟩ := h
  rcases op_cases r.op ho with e | e | e | e | e | e | e | e
  · exact ⟨_, (decodeLegal_crcInit e).trans
      ((if_neg (not_not_intro (hinit e).1)).trans (if_neg (not_not_intro (hinit e).2)))⟩
  · exact ⟨_, (decodeLegal_crcByte e).trans (if_neg (not_not_intro (hbyte e)))⟩
  · exact ⟨_, (decodeLegal_crc16 e).trans (if_neg (not_not_intro (hcrc e)))⟩
  · exact ⟨_, decodeLegal_encode e⟩
  · exact ⟨_, (decodeLegal_parse e).trans (if_neg (not_not_intro (hparse e)))⟩
  · exact ⟨_, decodeLegal_xchg e⟩
  · exact ⟨_, decodeLegal_ack e⟩
  · exact ⟨_, decodeLegal_echo e⟩

/-- Settles O3: the readings of a request are those of its header's rule. -/
theorem illegalRequestsAreThoseOfTheRule : Obligations.IllegalRequestsAreThoseOfTheRule := by
  intro r hn
  constructor
  · intro h
    by_contra hill
    obtain ⟨i, hi⟩ := decodeLegal_of_not_illegal hill
    simp only [Machine.illegalRequest, not_or, not_not, Nat.not_le] at hill
    obtain ⟨ho, h0, h1, -⟩ := hill
    have hr : decode r = .ok i := decode_ok_iff.mpr ⟨hn, .inr ⟨ho, h0, h1, hi⟩⟩
    obtain ⟨hd, d, rfl⟩ := h i hr
    exact absurd (op_of_decode_reservedOp hr) (Nat.not_le.mpr ho)
  · intro hill i hi
    obtain ⟨-, ⟨-, rfl⟩ | ⟨ho, h0, h1, hl⟩⟩ := decode_ok_iff.mp hi
    · exact ⟨_, _, rfl⟩
    · exact absurd hill (not_illegal_of_decodeLegal ho h0 h1 hl)

/-- Settles O6: the words are closed terms, which the decoder evaluates. -/
theorem writtenWordsDecode : Obligations.WrittenWordsDecode := by
  exact ⟨rfl, rfl, rfl, rfl, rfl, rfl, rfl, rfl, rfl, rfl⟩

end Sys2Proof
end

section
/-! What one step of an instruction can do, said once and in full: a lock-free instruction by what it makes of its port's
registers, an exchange by the phase it finds and by how its decode ends. The invariants of the machine are case splits over
these moves. -/

namespace Sys2Proof.Machine

/-! ### Writes of one port -/

theorem State.upd_congr {s : State} {p : Port} {f g : PortState → PortState} (h : ∀ x, f x = g x) :
    s.upd p f = s.upd p g := congrArg (s.upd p) (funext h)

theorem noteSyncLoss_setPort (p : Port) (o : DecodeOutcome) (s : State) (x : PortState) :
    noteSyncLoss p o (s.setPort p x) = { s with diag := s.diag ++ syncLossOf p o }.setPort p x := by
  cases p <;> exact noteSyncLoss_eq _ _ _

/-! ### The lock-free instructions -/

/-- What a lock-free instruction makes of its port's registers in phase RUN (spec/41_crc.md R136 to R138, spec/42_encoder.md
R151, spec/43_decoder.md R170). -/
def lockFreeRun (i : Instr) (x : PortState) : PortState :=
  match i with
  | .crcInit => { x with crc := 0, phase := .done (okValue 0) }
  | .crcByte b => { x with crc := crcStep x.crc b, phase := .done (okValue (crcStep x.crc b)) }
  | .crc16 d => { x with crc := crc16 d, phase := .done (okValue (crc16 d)) }
  | .encode c d =>
    if d.length ≤ 250 then
      { x with
        txbuf := wholeFrame c d, txlen := BitVec.ofNat 8 (5 + d.length)
        phase := .done { code := .ok, value := crc16 (frameBody c d), data := wholeFrame c d } }
    else { x with phase := .done (encErrResponse d.length) }
  | .parse d =>
    { (parseRun d x).1 with
      phase := .done ((parseRun d x).2.response (some (parseRun d x).1.parsePos) none none) }
  | _ => x

theorem encodeFrame_of_le (c : Byte) {d : List Byte} (h : d.length ≤ 250) :
    encodeFrame c d = some (wholeFrame c d, crc16 (frameBody c d)) :=
  encodeFrame_eq_some_iff.mpr ⟨h, rfl, rfl⟩

theorem encodeFrame_of_gt (c : Byte) {d : List Byte} (h : ¬ d.length ≤ 250) : encodeFrame c d = none := by
  rw [encodeFrame_eq, if_neg h]

theorem encodeBody_eq (c : Byte) (d : List Byte) (p : Port) (s : State) :
    encodeBody c d p s = s.upd p (lockFreeRun (.encode c d)) := by
  by_cases h : d.length ≤ 250
  · simp only [encodeBody, encodeFrame_of_le c h, loadFrame, finish_eq, State.upd_upd, wholeFrame_length]
    exact State.upd_congr fun x => (if_pos h).symm
  · simp only [encodeBody, encodeFrame_of_gt c h, finish_eq]
    exact State.upd_congr fun x => (if_neg h).symm

theorem writeCrc_eq (p : Port) (v : Half) (s : State) :
    writeCrc p v s = s.upd p (fun x => { x with crc := v, phase := .done (okValue v) }) := by
  rw [writeCrc, finish_eq, State.upd_upd]

/-- The meaning of each lock-free instruction: it looks at its own port's registers and writes nothing else. -/
theorem exec_lockFree_eq {i : Instr} (h : lockFreeInstr i = true) (s : State) :
    exec i s = lockFree (fun p t => t.upd p (lockFreeRun i)) s := by
  cases i <;> simp only [lockFreeInstr, reduceCtorEq] at h
  case crcInit => exact congrArg (lockFree · s) (funext₂ fun p t => writeCrc_eq p _ t)
  case crcByte b => exact congrArg (lockFree · s) (funext₂ fun p t => writeCrc_eq p _ t)
  case crc16 d => exact congrArg (lockFree · s) (funext₂ fun p t => writeCrc_eq p _ t)
  case encode c d => exact congrArg (lockFree · s) (funext₂ (encodeBody_eq c d))
  case parse d => exact congrArg (lockFree · s) (funext₂ fun p t => by simp [parseBody, finish_eq, lockFreeRun, State.upd])

/-- The run leaves a lock-free instruction's port with its response decided. -/
theorem lockFreeRun_done {i : Instr} (h : lockFreeInstr i = true) (x : PortState) :
    ∃ r, (lockFreeRun i x).phase = .done r := by
  cases i <;> simp only [lockFreeInstr, reduceCtorEq] at h
  case encode c d => simp only [lockFreeRun]; split <;> exact ⟨_, rfl⟩
  all_goals exact ⟨_, rfl⟩

/-- The run leaves what the sequencer and the exchanges keep in a port. -/
theorem lockFreeRun_fields (i : Instr) (x : PortState) :
    (lockFreeRun i x).req = x.req ∧ (lockFreeRun i x).latch = x.latch ∧ (lockFreeRun i x).busy = x.busy ∧
    (lockFreeRun i x).attempts = x.attempts ∧ (lockFreeRun i x).got = x.got := by
  cases i
  case encode c d => simp only [lockFreeRun]; split <;> exact ⟨rfl, rfl, rfl, rfl, rfl⟩
  case parse d =>
    obtain ⟨h, -⟩ := parseRun_only d x
    exact ⟨h.req, h.latch, h.busy, h.attempts, h.got⟩
  all_goals exact ⟨rfl, rfl, rfl, rfl, rfl⟩

/-! ### An exchange instruction, phase by phase -/

/-- What an exchange of kind `k` does at acceptance (spec/44_serializer.md R200, R205). -/
def startOf (k : ExchangeKind) (c : Byte) (d : List Byte) : Port → State → State :=
  match k with
  | .plain => fun p => beginExchange p c d
  | .untilAck => ackStart c d
  | .echo => fun p => beginExchange p c d

/-- What an exchange of kind `k` does with the outcome of its decode (R200, R205, R207). -/
def endingOf (k : ExchangeKind) (c : Byte) (d : List Byte) : Port → DecodeOutcome → State → State :=
  match k with
  | .plain => xchgEnding
  | .untilAck => ackEnding c d
  | .echo => echoEnding c d

section
variable {i : Instr} {k : ExchangeKind} {c : Byte} {d : List Byte} {s : State}

theorem exec_exchange_eq (h : exchangeOperands i = some (k, c, d)) (s : State) :
    exec i s = exchangeOp c (startOf k c d) (cancelledOf k) (endingOf k c d) s := by
  rw [exec_exchange h]
  cases k <;> rfl

theorem exec_of_idle (h : exchangeOperands i = some (k, c, d)) (hp : (s.port s.cur).phase = .idle) :
    exec i s = .next (startOf k c d s.cur s) := by
  rw [exec_exchange_eq h, exchangeOp, hp]

theorem exec_of_waitGrant (h : exchangeOperands i = some (k, c, d)) (hp : (s.port s.cur).phase = .waitGrant) :
    exec i s = .next (if s.lockOwner = some s.cur then sampleStep s.cur (cancelledOf k (s.port s.cur)) s else s) := by
  rw [exec_exchange_eq h, exchangeOp, hp]

theorem exec_of_flush (h : exchangeOperands i = some (k, c, d)) (hp : (s.port s.cur).phase = .flush) :
    exec i s = .next (flushStep s.cur c s) := by
  rw [exec_exchange_eq h, exchangeOp, hp]

theorem exec_of_tx (h : exchangeOperands i = some (k, c, d)) (hp : (s.port s.cur).phase = .tx) :
    exec i s = .next (txStep s.cur s) := by
  rw [exec_exchange_eq h, exchangeOp, hp]

theorem receives_endingOf (h : exchangeOperands i = some (k, c, d)) : Receives i (endingOf k c d) := by
  cases k
  · exact receives_plain h
  · exact receives_untilAck h
  · exact receives_echo h

theorem exec_of_done {r : Response} (h : exchangeOperands i = some (k, c, d)) (hp : (s.port s.cur).phase = .done r) :
    exec i s = .next (complete s.cur r s) := by
  rw [exec_exchange_eq h, exchangeOp, hp]

end

theorem exchangeInstr_iff {i : Instr} : exchangeInstr i = true ↔ ∃ k c d, exchangeOperands i = some (k, c, d) := by
  rw [exchangeInstr, Option.isSome_iff_exists]
  exact ⟨fun ⟨⟨k, c, d⟩, h⟩ => ⟨k, c, d, h⟩, fun ⟨k, c, d, h⟩ => ⟨(k, c, d), h⟩⟩

/-! ### The beginning and the end of an attempt -/

/-- What the beginning of an exchange makes of its port's registers: the frame is loaded and the port waits for the lock, or
ENC_ERR is decided (spec/44_serializer.md R200, spec/60_exceptions.md R237). -/
def begun (c : Byte) (d : List Byte) (x : PortState) : PortState :=
  if d.length ≤ 250 then
    { x with txbuf := wholeFrame c d, txlen := BitVec.ofNat 8 (5 + d.length), phase := .waitGrant }
  else { x with phase := .done (encErrResponse d.length) }

theorem begun_of_le (c : Byte) {d : List Byte} (x : PortState) (h : d.length ≤ 250) :
    begun c d x =
      { x with txbuf := wholeFrame c d, txlen := BitVec.ofNat 8 (5 + d.length), phase := .waitGrant } := if_pos h

theorem begun_of_gt (c : Byte) {d : List Byte} (x : PortState) (h : ¬ d.length ≤ 250) :
    begun c d x = { x with phase := .done (encErrResponse d.length) } := if_neg h

theorem beginExchange_eq (p : Port) (c : Byte) (d : List Byte) (s : State) :
    beginExchange p c d s = s.upd p (begun c d) := by
  by_cases h : d.length ≤ 250
  · simp only [beginExchange, encodeFrame_of_le c h, loadFrame, State.setPhase_eq, State.upd_upd, wholeFrame_length]
    exact State.upd_congr fun x => (begun_of_le c x h).symm
  · simp only [beginExchange, encodeFrame_of_gt c h, finish_eq]
    exact State.upd_congr fun x => (begun_of_gt c x h).symm

theorem begun_phase (c : Byte) (d : List Byte) (x : PortState) :
    (begun c d x).phase = .waitGrant ∨ (begun c d x).phase = .done (encErrResponse d.length) := by
  unfold begun
  split
  · exact .inl rfl
  · exact .inr rfl

/-- The beginning of an exchange leaves all but PHASE and the frame. -/
theorem begun_fields (c : Byte) (d : List Byte) (x : PortState) :
    (begun c d x).latch = x.latch ∧ (begun c d x).busy = x.busy ∧ (begun c d x).crc = x.crc ∧
    (begun c d x).attempts = x.attempts := by
  unfold begun
  split <;> exact ⟨rfl, rfl, rfl, rfl⟩

/-- The counter of an XCHG_ACK that starts (spec/44_serializer.md R205). -/
def uncounted (x : PortState) : PortState := { x with attempts := 0, last := none }

/-- The counter of an XCHG_ACK after an attempt that ended with code `e` and no ACK (R205). -/
def counted (e : ResultCode) (x : PortState) : PortState := { x with attempts := x.attempts + 1, last := some e }

@[simp] theorem releaseLock_releaseLock (p : Port) (s : State) : releaseLock p (releaseLock p s) = releaseLock p s := by
  refine releaseLock_of_not_owner ?_
  rw [releaseLock_lockOwner]
  split
  · nofun
  · assumption

theorem releaseLock_upd (p q : Port) (f : PortState → PortState) (s : State) :
    (releaseLock p s).upd q f = releaseLock p (s.upd q f) := by
  simp [releaseLock]

theorem complete_releaseLock (p : Port) (r : Response) (s : State) :
    complete p r (releaseLock p s) = complete p r s := by
  rw [complete, releaseLock_upd, releaseLock_releaseLock]
  rfl

theorem ackLoop_eq (c : Byte) (d : List Byte) (p : Port) (s : State) :
    ackLoop c d p s =
      if (s.port p).attempts = s.config.maxAckAttempts then
        complete p (exhaustedResponse (s.port p).attempts (s.port p).last) s
      else s.upd p (begun c d) := by
  rw [← beginExchange_eq]
  rfl

/-- The start of an XCHG_ACK of at most 250 bytes, which has an attempt. -/
theorem ackStart_of_le (c : Byte) {d : List Byte} (p : Port) {s : State} (h : d.length ≤ 250)
    (hm : s.config.maxAckAttempts ≠ 0) : ackStart c d p s = s.upd p (fun x => begun c d (uncounted x)) := by
  rw [ackStart, if_neg (Nat.not_lt.mpr h), ackLoop_eq, if_neg (by simpa using Ne.symm hm)]
  exact State.upd_upd ..

theorem ackStart_of_no_attempt (c : Byte) {d : List Byte} (p : Port) {s : State} (h : d.length ≤ 250)
    (hm : s.config.maxAckAttempts = 0) :
    ackStart c d p s = complete p (exhaustedResponse 0 none) (s.upd p uncounted) := by
  rw [ackStart, if_neg (Nat.not_lt.mpr h), ackLoop_eq, if_pos (by simpa using hm.symm)]
  simp only [State.port_upd]
  rfl

theorem ackStart_of_gt (c : Byte) {d : List Byte} (p : Port) (s : State) (h : ¬ d.length ≤ 250) :
    ackStart c d p s = s.upd p (begun c d) := by
  rw [ackStart, if_pos (Nat.lt_of_not_le h), finish_eq]
  exact State.upd_congr fun x => (begun_of_gt c x h).symm

theorem startOf_of_ne_untilAck {k : ExchangeKind} (c : Byte) (d : List Byte) (p : Port) (s : State)
    (hk : k ≠ .untilAck) : startOf k c d p s = s.upd p (begun c d) := by
  rw [← beginExchange_eq]
  cases k
  · rfl
  · exact absurd rfl hk
  · rfl

/-- An ACK ends an XCHG_ACK with the attempt counted (R205). -/
theorem ackEnding_of_ack (c : Byte) (d : List Byte) (p : Port) {o : DecodeOutcome} (s : State) (ho : isAck o = true) :
    ackEnding c d p o s = s.upd p (fun x => { x with
      attempts := x.attempts + 1
      phase := .done (o.response none (some x.flushed) (some (x.attempts + 1))) }) := by
  simp [ackEnding, ho, finish_eq, State.upd]

/-- With attempts left, any other outcome gives the lock back and begins again (R205). -/
theorem ackEnding_of_retry (c : Byte) (d : List Byte) (p : Port) {o : DecodeOutcome} {s : State} (ho : isAck o = false)
    (hm : (s.port p).attempts + 1 ≠ s.config.maxAckAttempts) :
    ackEnding c d p o s = releaseLock p (s.upd p (fun x => begun c d (counted o.code x))) := by
  simp [ackEnding, ho, ackLoop_eq, hm, releaseLock_upd, counted]

/-- The last attempt that ends with any other outcome exhausts the retries (R205, spec/60_exceptions.md R240). -/
theorem ackEnding_of_last (c : Byte) (d : List Byte) (p : Port) {o : DecodeOutcome} {s : State} (ho : isAck o = false)
    (hm : (s.port p).attempts + 1 = s.config.maxAckAttempts) :
    ackEnding c d p o s =
      complete p (exhaustedResponse s.config.maxAckAttempts (some o.code)) (s.upd p (counted o.code)) := by
  simp [ackEnding, ho, ackLoop_eq, hm, complete_releaseLock]
  rfl

/-- XCHG and XCHG_ECHO end with a response decided and nothing else changed (R200, R207). -/
theorem endingOf_of_ne_untilAck {k : ExchangeKind} (c : Byte) (d : List Byte) (p : Port) (o : DecodeOutcome) (s : State)
    (hk : k ≠ .untilAck) : ∃ r, endingOf k c d p o s = s.upd p (fun x => { x with phase := .done r }) := by
  cases k
  · exact ⟨_, rfl⟩
  · exact absurd rfl hk
  · simp only [endingOf, echoEnding]
    split <;> exact ⟨_, rfl⟩

/-! ### The flush -/

/-- The flush drains, counts, and logs what it found if it found anything (spec/44_serializer.md R201). -/
theorem flushStep_of_flushes (p : Port) {c : Byte} {s : State} (hf : flushes c s = true) :
    flushStep p c s =
      { s with
          rxfifo := []
          diag := s.diag ++ if s.rxfifo = [] then [] else [DiagEvent.mk .unexpectedBytes p s.rxfifo] }.upd p
        (fun x => { x with phase := .tx, flushed := s.rxfifo.length }) := by
  rcases flushStep_cases p c s with ⟨hn, -⟩ | ⟨-, he, h⟩ | ⟨-, he, h⟩
  · rw [hf] at hn
    cases hn
  · have hs : s = { s with rxfifo := [], diag := s.diag ++ [] } := by rw [List.append_nil, ← he]
    rw [h, if_pos he, ← hs, he]
    rfl
  · rw [h, if_neg he]

theorem flushStep_of_not_flushes (p : Port) {c : Byte} {s : State} (hf : flushes c s = false) :
    flushStep p c s = s.upd p (fun x => { x with phase := .tx }) := by
  rw [flushStep, hf]
  rfl

/-! ### The moves of an exchange -/

/-- What one step of port `p` on an exchange of kind `k`, command byte `c` and payload `d` can do. -/
inductive ExchangeMove (k : ExchangeKind) (c : Byte) (d : List Byte) (p : Port) (s : State) : State → Prop
  | start : (s.port p).phase = .idle → k ≠ .untilAck ∨ ¬ d.length ≤ 250 → ExchangeMove k c d p s (s.upd p (begun c d))
  | startCounted : (s.port p).phase = .idle → k = .untilAck → d.length ≤ 250 → s.config.maxAckAttempts ≠ 0 →
      ExchangeMove k c d p s (s.upd p (fun x => begun c d (uncounted x)))
  | noAttempt : (s.port p).phase = .idle → s.config.maxAckAttempts = 0 →
      ExchangeMove k c d p s (complete p (exhaustedResponse 0 none) (s.upd p uncounted))
  | wait : (s.port p).phase = .waitGrant → ExchangeMove k c d p s s
  | cancel : (s.port p).phase = .waitGrant → s.lockOwner = some p → s.sampled = false →
      ExchangeMove k c d p s (complete p (cancelledOf k (s.port p)) s)
  | sampleOne : (s.port p).phase = .waitGrant → s.lockOwner = some p → s.sampled = true →
      ExchangeMove k c d p s (s.upd p (fun x => { x with phase := .flush, flushed := 0 }))
  | skip : (s.port p).phase = .flush → flushes c s = false →
      ExchangeMove k c d p s (s.upd p (fun x => { x with phase := .tx }))
  | drain : (s.port p).phase = .flush → flushes c s = true →
      ExchangeMove k c d p s ({ s with
          rxfifo := []
          diag := s.diag ++ if s.rxfifo = [] then [] else [DiagEvent.mk .unexpectedBytes p s.rxfifo] }.upd p
        (fun x => { x with phase := .tx, flushed := s.rxfifo.length }))
  | send : (s.port p).phase = .tx →
      ExchangeMove k c d p s ({ s with txhist := s.txhist ++ (s.port p).txbuf.take (s.port p).txlen.toNat }.upd p
        (fun x => { x with phase := .rx, dstate := .sync, got := [] }))
  | take (b : Byte) (rest : List Byte) : (s.port p).phase = .rx → (s.port p).got.length < readSize (s.port p) →
      s.rxfifo = b :: rest →
      ExchangeMove k c d p s ({ s with rxfifo := rest }.upd p (fun x => { x with got := x.got ++ [b] }))
  | silent : (s.port p).phase = .rx → ExchangeMove k c d p s s
  | read (x' : PortState) : (s.port p).phase = .rx →
      decoderTake (s.port p).got { s.port p with got := [] } = (x', none) → ExchangeMove k c d p s (s.setPort p x')
  | answer (x' : PortState) (o : DecodeOutcome) (n : Nat) (r : Response) : (s.port p).phase = .rx →
      decoderTake (s.port p).got { s.port p with got := [] } = (x', some o) →
      ExchangeMove k c d p s ({ s with diag := s.diag ++ syncLossOf p o }.setPort p
        { x' with attempts := n, phase := .done r })
  | retry (x' : PortState) (o : DecodeOutcome) : (s.port p).phase = .rx →
      decoderTake (s.port p).got { s.port p with got := [] } = (x', some o) →
      x'.attempts + 1 ≠ s.config.maxAckAttempts →
      ExchangeMove k c d p s (releaseLock p ({ s with diag := s.diag ++ syncLossOf p o }.setPort p
        (begun c d (counted o.code x'))))
  | exhaust (x' : PortState) (o : DecodeOutcome) (r : Response) : (s.port p).phase = .rx →
      decoderTake (s.port p).got { s.port p with got := [] } = (x', some o) →
      ExchangeMove k c d p s (complete p r ({ s with diag := s.diag ++ syncLossOf p o }.setPort p
        (counted o.code x')))
  | post (r : Response) : (s.port p).phase = .done r → ExchangeMove k c d p s (complete p r s)

section
variable {k : ExchangeKind} {c : Byte} {d : List Byte} {p : Port} {s : State}

theorem startOf_move (hp : (s.port p).phase = .idle) : ExchangeMove k c d p s (startOf k c d p s) := by
  by_cases hk : k = .untilAck
  · subst hk
    simp only [startOf]
    by_cases hd : d.length ≤ 250
    · by_cases hm : s.config.maxAckAttempts = 0
      · rw [ackStart_of_no_attempt c p hd hm]
        exact .noAttempt hp hm
      · rw [ackStart_of_le c p hd hm]
        exact .startCounted hp rfl hd hm
    · rw [ackStart_of_gt c p s hd]
      exact .start hp (.inr hd)
  · rw [startOf_of_ne_untilAck c d p s hk]
    exact .start hp (.inl hk)

theorem deliverRead_move (hp : (s.port p).phase = .rx) :
    ExchangeMove k c d p s (deliverRead (endingOf k c d) p s) := by
  unfold deliverRead
  simp only
  split
  · exact .read _ hp ‹_›
  · rename_i x' o ht
    rw [noteSyncLoss_setPort]
    by_cases hk : k = .untilAck
    · subst hk
      by_cases ho : isAck o = true
      · simp only [endingOf, ackEnding_of_ack c d p _ ho, State.upd, State.port_setPort, State.setPort_setPort]
        exact .answer x' o _ _ hp ht
      · have ho' : isAck o = false := by simpa using ho
        by_cases hm : x'.attempts + 1 = s.config.maxAckAttempts
        · simp only [endingOf]
          rw [ackEnding_of_last c d p ho' (by simpa using hm)]
          simp only [State.upd, State.port_setPort, State.setPort_setPort]
          exact .exhaust x' o _ hp ht
        · simp only [endingOf]
          rw [ackEnding_of_retry c d p ho' (by simpa using hm)]
          simp only [State.upd, State.port_setPort, State.setPort_setPort]
          exact .retry x' o hp ht hm
    · obtain ⟨r, hr⟩ := endingOf_of_ne_untilAck c d p o
        (({ s with diag := s.diag ++ syncLossOf p o } : State).setPort p x') hk
      rw [hr]
      simp only [State.upd, State.port_setPort, State.setPort_setPort]
      exact .answer x' o x'.attempts r hp ht

theorem flushStep_move (hp : (s.port p).phase = .flush) : ExchangeMove k c d p s (flushStep p c s) := by
  cases hf : flushes c s
  · rw [flushStep_of_not_flushes p hf]
    exact .skip hp hf
  · rw [flushStep_of_flushes p hf]
    exact .drain hp hf

theorem rxStep_move (hp : (s.port p).phase = .rx) : ExchangeMove k c d p s (rxStep (endingOf k c d) p s) := by
  rcases rxStep_cases (endingOf k c d) p s with ⟨_, h⟩ | ⟨hlt, b, rest, hr, h⟩ | ⟨_, _, _, h⟩ <;> rw [h]
  · exact deliverRead_move hp
  · have := ExchangeMove.take (k := k) (c := c) (d := d) b rest hp hlt hr
    simpa [State.upd] using this
  · exact .silent hp

theorem sampleStep_move (hp : (s.port p).phase = .waitGrant) (hl : s.lockOwner = some p) :
    ExchangeMove k c d p s (sampleStep p (cancelledOf k (s.port p)) s) := by
  unfold sampleStep
  split
  · exact .sampleOne hp hl ‹_›
  · exact .cancel hp hl (by simpa using ‹¬ s.sampled = true›)

end

/-- A step of an exchange instruction is one of its moves. -/
theorem exec_exchangeMove {i : Instr} {k : ExchangeKind} {c : Byte} {d : List Byte} {s s' : State}
    (ho : exchangeOperands i = some (k, c, d)) (h : exec i s = .next s') : ExchangeMove k c d s.cur s s' := by
  rw [exec_exchange_eq ho] at h
  rcases exchangeOp_cases h with ⟨hp, rfl⟩ | ⟨hp, hl, rfl⟩ | ⟨hp, _, rfl⟩ | ⟨hp, rfl⟩ | ⟨hp, rfl⟩ | ⟨hp, rfl⟩ |
    ⟨r, hp, rfl⟩
  · exact startOf_move hp
  · exact sampleStep_move hp hl
  · exact .wait hp
  · exact flushStep_move hp
  · rw [txStep_eq]
    exact .send hp
  · exact rxStep_move hp
  · exact .post r hp

/-- What one step of an instruction can do. -/
inductive InstrMove (i : Instr) (s : State) : State → Prop
  | enter : lockFreeInstr i = true → (s.port s.cur).phase = .idle →
      InstrMove i s (s.upd s.cur (fun x => { x with phase := .run }))
  | run : lockFreeInstr i = true → (s.port s.cur).phase = .run → InstrMove i s (s.upd s.cur (lockFreeRun i))
  | post (r : Response) : lockFreeInstr i = true → (s.port s.cur).phase = .done r →
      InstrMove i s (complete s.cur r s)
  | illegal (h : Header) (d : List Byte) : i = .reservedOp h d → InstrMove i s (completeIllegal s.cur s)
  | exchange {k : ExchangeKind} {c : Byte} {d : List Byte} {s' : State} : exchangeOperands i = some (k, c, d) →
      ExchangeMove k c d s.cur s s' → InstrMove i s s'

theorem exec_move {i : Instr} {s s' : State} (h : exec i s = .next s') : InstrMove i s s' := by
  rcases instr_kinds i with ⟨hl, -⟩ | ⟨-, k, c, d, ho⟩ | ⟨-, -, hd, d, rfl⟩
  · rw [exec_lockFree_eq hl] at h
    rcases lockFree_cases h with ⟨hp, rfl⟩ | ⟨hp, rfl⟩ | ⟨r, hp, rfl⟩
    · exact .enter hl hp
    · exact .run hl hp
    · exact .post r hl hp
  · exact .exchange ho (exec_exchangeMove ho h)
  · cases h
    exact .illegal hd d rfl

end Sys2Proof.Machine
end

section
/-! The sequencers and the lock (spec/44_serializer.md R190 to R199): a step of an instruction completes, and then its port is
free and off the lock, or goes on in a phase of that instruction, on the channel only with the lock and a sample of 1. -/

namespace Sys2Proof.Machine

/-! ### Completing and going on -/

/-- Port `p` is free, with nothing latched, and does not own the lock. -/
structure Completed (p : Port) (s' : State) : Prop where
  busy : (s'.port p).busy = false
  phase : (s'.port p).phase = .idle
  latch : (s'.port p).latch = none
  lock : s'.lockOwner ≠ some p

/-- Port `p` goes on with what it has latched, in a phase of instruction `i`. -/
structure GoesOn (i : Instr) (p : Port) (s s' : State) : Prop where
  busy : (s'.port p).busy = (s.port p).busy
  latch : (s'.port p).latch = (s.port p).latch
  fits : phaseFits i (s'.port p).phase = true
  channel : (s'.port p).phase.onChannel = true → s'.lockOwner = some p ∧ s'.sampled = true
  lock : s'.lockOwner = some p → s.lockOwner = some p ∧ (s'.port p).phase.mayHoldLock = true

theorem completed_complete (p : Port) (r : Response) (s : State) : Completed p (complete p r s) := by
  refine ⟨by simp, by simp, by simp, ?_⟩
  rw [complete_lockOwner]
  split
  · nofun
  · assumption

/-- A write of the port's registers that keeps BUSY and the latch and enters a phase off the channel. -/
theorem goesOn_off_channel {i : Instr} {p : Port} {s s' : State} {x : PortState} (hx : s'.port p = x)
    (hb : x.busy = (s.port p).busy) (hl : x.latch = (s.port p).latch) (hf : phaseFits i x.phase = true)
    (hc : x.phase.onChannel = false) (hm : s'.lockOwner = some p → s.lockOwner = some p ∧ x.phase.mayHoldLock = true) :
    GoesOn i p s s' := by
  subst hx
  exact ⟨hb, hl, hf, fun h => by simp [hc] at h, hm⟩

/-- A write of the port's registers that keeps BUSY, the latch, the lock and the sample, by a port on the channel. -/
theorem goesOn_on_channel {i : Instr} {p : Port} {s s' : State} {x : PortState} (hx : s'.port p = x)
    (hb : x.busy = (s.port p).busy) (hl : x.latch = (s.port p).latch) (hf : phaseFits i x.phase = true)
    (hm : x.phase.mayHoldLock = true) (hlo : s'.lockOwner = s.lockOwner) (hsa : s'.sampled = s.sampled)
    (ho : s.lockOwner = some p ∧ s.sampled = true) : GoesOn i p s s' := by
  subst hx
  exact ⟨hb, hl, hf, fun _ => ⟨hlo.trans ho.1, hsa.trans ho.2⟩, fun _ => ⟨ho.1, hm⟩⟩

theorem decoderTake_control {s : State} {p : Port} {x' : PortState} {o : Option DecodeOutcome}
    (h : decoderTake (s.port p).got { s.port p with got := [] } = (x', o)) :
    x'.busy = (s.port p).busy ∧ x'.latch = (s.port p).latch ∧ x'.phase = (s.port p).phase := by
  obtain ⟨hd, -, -⟩ := decoderTake_only (s.port p).got { s.port p with got := [] }
  rw [h] at hd
  exact ⟨hd.busy, hd.latch, hd.phase⟩

section
variable {i : Instr} {k : ExchangeKind} {c : Byte} {d : List Byte} {p : Port} {s s' : State}

theorem begun_goesOn (he : exchangeInstr i = true) {x : PortState} (hx : s'.port p = begun c d x)
    (hb : x.busy = (s.port p).busy) (hl : x.latch = (s.port p).latch)
    (hm : s'.lockOwner = some p → s.lockOwner = some p) : GoesOn i p s s' := by
  obtain ⟨hlat, hbusy, -, -⟩ := begun_fields c d x
  rcases begun_phase c d x with hp | hp
  · exact goesOn_off_channel hx (hbusy.trans hb) (hlat.trans hl) (by rw [hp]; exact he) (by rw [hp]; rfl)
      fun h => ⟨hm h, by rw [hp]; rfl⟩
  · exact goesOn_off_channel hx (hbusy.trans hb) (hlat.trans hl) (by rw [hp]; simp [phaseFits, he]) (by rw [hp]; rfl)
      fun h => ⟨hm h, by rw [hp]; rfl⟩

/-- A move of an exchange completes, or its port goes on. -/
theorem ExchangeMove.control (h : ExchangeMove k c d p s s') (he : exchangeInstr i = true) (hl : PortLocked s p) :
    Completed p s' ∨ GoesOn i p s s' := by
  obtain ⟨hchan, -⟩ := hl
  cases h with
  | start _ _ => exact .inr (begun_goesOn he (State.port_upd ..) rfl rfl (by simp))
  | startCounted _ _ _ _ => exact .inr (begun_goesOn he (State.port_upd ..) rfl rfl (by simp))
  | noAttempt _ _ => exact .inl (completed_complete ..)
  | wait hp =>
    exact .inr (goesOn_off_channel rfl rfl rfl (by rw [hp]; exact he) (by rw [hp]; rfl) fun h => ⟨h, by rw [hp]; rfl⟩)
  | cancel _ _ _ => exact .inl (completed_complete ..)
  | sampleOne _ hlo hsa =>
    exact .inr (goesOn_on_channel (State.port_upd ..) rfl rfl he rfl (by simp) (by simp) ⟨hlo, hsa⟩)
  | skip hp _ =>
    exact .inr (goesOn_on_channel (State.port_upd ..) rfl rfl he rfl (by simp) (by simp) (hchan (by rw [hp]; rfl)))
  | drain hp _ =>
    exact .inr (goesOn_on_channel (State.port_upd ..) (by simp) (by simp) he rfl (by simp) (by simp)
      (hchan (by rw [hp]; rfl)))
  | send hp =>
    exact .inr (goesOn_on_channel (State.port_upd ..) (by simp) (by simp) he rfl (by simp) (by simp)
      (hchan (by rw [hp]; rfl)))
  | take b rest hp _ _ =>
    exact .inr (goesOn_on_channel (State.port_upd ..) (by simp) (by simp) (by simpa [hp, phaseFits] using he)
      (by simp [hp, Phase.mayHoldLock]) (by simp) (by simp) (hchan (by rw [hp]; rfl)))
  | silent hp =>
    exact .inr (goesOn_on_channel rfl rfl rfl (by simpa [hp, phaseFits] using he) (by rw [hp]; rfl) rfl rfl
      (hchan (by rw [hp]; rfl)))
  | read x' hp ht =>
    obtain ⟨hb, hlat, hph⟩ := decoderTake_control ht
    exact .inr (goesOn_on_channel (State.port_setPort ..) hb hlat (by rw [hph, hp]; exact he) (by rw [hph, hp]; rfl)
      (by simp) (by simp) (hchan (by rw [hp]; rfl)))
  | answer x' o n r hp ht =>
    obtain ⟨hb, hlat, -⟩ := decoderTake_control ht
    exact .inr (goesOn_off_channel (State.port_setPort ..) hb hlat (by simp [phaseFits, he]) rfl (by simp [Phase.mayHoldLock]))
  | retry x' o hp ht _ =>
    obtain ⟨hb, hlat, -⟩ := decoderTake_control ht
    refine .inr (begun_goesOn he ((releaseLock_port ..).trans (State.port_setPort ..)) hb hlat fun h => ?_)
    simp [releaseLock_lockOwner] at h
  | exhaust x' o r hp ht => exact .inl (completed_complete ..)
  | post r _ => exact .inl (completed_complete ..)

/-- A step of an instruction completes, or its port goes on. -/
theorem InstrMove.control (h : InstrMove i s s') (hc : s.cur = p) (hl : PortLocked s p) :
    Completed p s' ∨ GoesOn i p s s' := by
  subst hc
  cases h with
  | enter hf hp =>
    refine .inr (goesOn_off_channel (State.port_upd ..) rfl rfl hf rfl fun h => ?_)
    have := (hl.2 (by simpa using h)).1
    rw [hp] at this
    cases this
  | run hf hp =>
    obtain ⟨r, hr⟩ := lockFreeRun_done hf (s.port s.cur)
    obtain ⟨-, hlat, hb, -, -⟩ := lockFreeRun_fields i (s.port s.cur)
    exact .inr (goesOn_off_channel (State.port_upd ..) hb hlat (by rw [hr]; simp [phaseFits, hf]) (by rw [hr]; rfl)
      fun h => ⟨by simpa using h, by rw [hr]; rfl⟩)
  | post r _ _ => exact .inl (completed_complete ..)
  | illegal _ _ _ => exact .inl (completed_complete ..)
  | exchange ho hm => exact hm.control (exchangeInstr_iff.mpr ⟨_, _, _, ho⟩) hl

end

/-! ### The invariant over a step of a sequencer -/

theorem Completed.sequenced {p : Port} {s' : State} (h : Completed p s') : PortSequenced (s'.port p) ∧ PortLocked s' p :=
  ⟨⟨fun _ => ⟨h.phase, h.latch⟩, fun hb => by simp [h.busy] at hb⟩,
    ⟨fun hc => by simp [h.phase, Phase.onChannel] at hc, fun hl => absurd hl h.lock⟩⟩

/-- A port that goes on with its latched instruction, which takes the lock if it holds it. -/
theorem GoesOn.sequenced {i : Instr} {p : Port} {r : Request} {s s' : State} (h : GoesOn i p s s')
    (hb : (s.port p).busy = true) (hl : (s.port p).latch = some r) (hi : decode r = .ok i)
    (he : s.lockOwner = some p → exchangeInstr i = true) : PortSequenced (s'.port p) ∧ PortLocked s' p := by
  refine ⟨⟨fun hf => ?_, fun _ => ⟨r, i, h.latch.trans hl, hi, h.fits⟩⟩, ⟨h.channel, fun ho => ⟨(h.lock ho).2, ?_⟩⟩⟩
  · rw [h.busy, hb] at hf
    cases hf
  · intro r' i' hr' hi'
    rw [h.latch, hl, Option.some.injEq] at hr'
    subst hr'
    rw [hi, Except.ok.injEq] at hi'
    exact hi' ▸ he (h.lock ho).1

/-- A step of port `p` leaves the other port sequenced: it keeps that port's registers and the sample, and can only free the
lock that `p` owns. -/
theorem OwnStep.other_sequenced {p q : Port} {s s' : State} (h : OwnStep p s s') (hq : q ≠ p) (hs : PortSequenced (s.port q))
    (hl : PortLocked s q) : PortSequenced (s'.port q) ∧ PortLocked s' q := by
  have hport := h.other q hq
  have hown : s'.lockOwner = some q ↔ s.lockOwner = some q := by
    rcases h.lock with h | ⟨h1, h2⟩
    · rw [h]
    · rw [h1, h2]
      simp [hq.symm]
  rw [PortLocked, hport, hown, h.sampled]
  exact ⟨hs, hl⟩

/-- What an accepting port finds: it is idle and does not own the lock. -/
theorem SequencerInv.free {s : State} {p : Port} (hs : SequencerInv s) (hb : (s.port p).busy = false) :
    (s.port p).phase = .idle ∧ s.lockOwner ≠ some p := by
  obtain ⟨hidle, -⟩ := (hs.1 p).1 hb
  refine ⟨hidle, fun hl => ?_⟩
  have := ((hs.2 p).2 hl).1
  rw [hidle] at this
  cases this

theorem acceptRequest_locked {s : State} {p : Port} (r : Request) (hs : SequencerInv s) (hb : (s.port p).busy = false) :
    PortLocked (acceptRequest p r s) p := by
  obtain ⟨hidle, hlo⟩ := hs.free hb
  refine ⟨fun h => ?_, fun h => absurd h (by simpa [acceptRequest] using hlo)⟩
  simp [hidle, Phase.onChannel] at h

/-- What a step of a sequencer can do where the sequencers and the lock agree: go on in a phase of the latched instruction,
accept an instruction or an illegal request in phase IDLE, or nothing. -/
theorem SequencerInv.portStep_cases {p : Port} {s s' : State} (hs : SequencerInv s) (hc : s.cur = p)
    (h : portStep p s = .next s') :
    (∃ r i, (s.port p).busy = true ∧ (s.port p).latch = some r ∧ decode r = .ok i ∧
      phaseFits i (s.port p).phase = true ∧ InstrMove i s s') ∨
    (∃ r i, (s.port p).busy = false ∧ (s.port p).phase = .idle ∧ decode r = .ok i ∧
      (acceptRequest p r s).cur = p ∧ InstrMove i (acceptRequest p r s) s') ∨
    (∃ r, (s.port p).busy = false ∧ (s.port p).phase = .idle ∧ s' = completeIllegal p (acceptRequest p r s)) ∨
    s' = s := by
  rcases Machine.portStep_cases h with ⟨hb, r, hl, hr⟩ | ⟨hb, r, -, hr⟩ | ⟨-, -, rfl⟩
  · obtain ⟨r', i, hl', hi, hf⟩ := (hs.1 p).2 hb
    obtain rfl : r = r' := Option.some.inj (hl.symm.trans hl')
    rcases runRequest_cases hr with ⟨j, hj, he⟩ | ⟨e, hd, -, -⟩
    · obtain rfl : i = j := Except.ok.inj (hi.symm.trans hj)
      exact .inl ⟨r, i, hb, hl, hi, hf, exec_move he⟩
    · rw [hi] at hd
      cases hd
  · have hidle := (hs.free hb).1
    have hcur : (acceptRequest p r s).cur = p := by simpa [acceptRequest] using hc
    rcases runRequest_cases hr with ⟨i, hi, he⟩ | ⟨e, -, -, rfl⟩
    · exact .inr (.inl ⟨r, i, hb, hidle, hi, hcur, exec_move he⟩)
    · exact .inr (.inr (.inl ⟨r, hb, hidle, rfl⟩))
  · exact .inr (.inr (.inr rfl))

/-- The port whose sequencer moves is sequenced after its step. -/
theorem portStep_sequenced {p : Port} {s s' : State} (hs : SequencerInv s) (hc : s.cur = p)
    (h : portStep p s = .next s') : PortSequenced (s'.port p) ∧ PortLocked s' p := by
  rcases hs.portStep_cases hc h with ⟨r, i, hb, hl, hi, -, hm⟩ | ⟨r, i, hb, -, hi, hcur, hm⟩ | ⟨r, -, -, rfl⟩ | rfl
  · rcases hm.control hc (hs.2 p) with hd | hg
    · exact hd.sequenced
    · exact hg.sequenced hb hl hi fun ho => ((hs.2 p).2 ho).2 r i hl hi
  · rcases hm.control hcur (acceptRequest_locked r hs hb) with hd | hg
    · exact hd.sequenced
    · refine hg.sequenced (by simp) (by simp) hi fun ho => absurd ho ?_
      simpa [acceptRequest] using (hs.free hb).2
  · exact (completed_complete ..).sequenced
  · exact ⟨hs.1 p, hs.2 p⟩

/-! ### The invariant over every step -/

/-- The invariant looks at BUSY, the latch, PHASE, the lock and the sample. -/
theorem SequencerInv.of_same {s s' : State} (hs : SequencerInv s)
    (hp : ∀ p, (s'.port p).busy = (s.port p).busy ∧ (s'.port p).latch = (s.port p).latch ∧
      (s'.port p).phase = (s.port p).phase)
    (hl : s'.lockOwner = s.lockOwner) (hsa : s'.sampled = s.sampled) : SequencerInv s' := by
  refine ⟨fun p => ?_, fun p => ?_⟩ <;> obtain ⟨hb, hla, hph⟩ := hp p
  · rw [PortSequenced, hb, hla, hph]
    exact hs.1 p
  · rw [PortLocked, hla, hph, hl, hsa]
    exact hs.2 p

theorem sequencerInv_afterChoice {s : State} (hs : SequencerInv s) : SequencerInv (afterChoice s) :=
  hs.of_same (by simp) (by simp) (by simp)

theorem sequencerInv_moving {s : State} (p : Port) (b : Bool) (hs : SequencerInv s) : SequencerInv (moving p b s) :=
  hs.of_same (by simp) (by simp) (by simp)

/-- A grant puts the lock, with its sample, into the hands of a waiting port. -/
theorem sequencerInv_grantLock {s : State} (p : Port) (hs : SequencerInv s) : SequencerInv (grantLock p s) := by
  rcases grantLock_cases p s with ⟨hfree, hw, h⟩ | h <;> rw [h]
  · rw [isWaiting_iff] at hw
    have hoff : ∀ q, (s.port q).phase.onChannel = false := fun q => by
      by_contra hon
      have := ((hs.2 q).1 (by simpa using hon)).1
      rw [hfree] at this
      cases this
    refine ⟨fun q => by simpa using hs.1 q, fun q => ⟨fun h => ?_, fun ho => ?_⟩⟩
    · simp [hoff q] at h
    · obtain rfl : p = q := Option.some.inj ho
      refine ⟨by simp [hw, Phase.mayHoldLock], fun r i hr hi => ?_⟩
      have hr' : (s.port p).latch = some r := by simpa using hr
      have hbusy : (s.port p).busy = true := by
        by_contra hb
        have := (hs.free (p := p) (by simpa using hb)).1
        rw [hw] at this
        cases this
      obtain ⟨r', i', hl, hd, hf⟩ := (hs.1 p).2 hbusy
      obtain rfl : r = r' := Option.some.inj (hr'.symm.trans hl)
      obtain rfl : i = i' := Except.ok.inj (hi.symm.trans hd)
      rw [hw] at hf
      exact hf
  · exact hs

theorem hostReset_port (s : State) (p : Port) : (hostReset s).port p = .reset := by cases p <;> rfl

theorem sequencerInv_hostReset (s : State) : SequencerInv (hostReset s) := by
  refine ⟨fun p => ?_, fun p => ⟨fun h => ?_, nofun⟩⟩
  · rw [hostReset_port]
    exact ⟨fun _ => ⟨rfl, rfl⟩, nofun⟩
  · rw [hostReset_port] at h
    cases h

/-- What one step of the machine can do, by the agent that moves. -/
inductive StepMove (s : State) : State → Prop
  | port {s' : State} (p : Port) (b : Bool) : nextEvent s = .port p b → portStep p (moving p b s) = .next s' → StepMove s s'
  | grant (p : Port) : nextEvent s = .grant p → StepMove s (grantLock p (afterChoice s))
  | device (b : Byte) : nextEvent s = .device b → StepMove s (deviceSend b (afterChoice s))
  | present (p : Port) (r : Request) : nextEvent s = .present p r →
      StepMove s ((afterChoice s).upd p (fun x => { x with req := some r }))
  | setRunning (b : Bool) : nextEvent s = .setRunning b → StepMove s { afterChoice s with running := b }
  | setConfig (w : Config.Write) (c : ConfigRecord) : nextEvent s = .setConfig w → s.poll.busy = false →
      s.cmd.busy = false → writeConfig w s.config = some c → StepMove s { afterChoice s with config := c }
  | reset : nextEvent s = .reset → StepMove s (hostReset (afterChoice s))

theorem step_move {s s' : State} (h : step s = .next s') : StepMove s s' := by
  cases he : nextEvent s <;> rw [step_of_event he] at h
  case port p b => exact .port p b he h
  case grant p => cases h; exact .grant p he
  case device b => cases h; exact .device b he
  case present p r =>
    obtain ⟨-, -, -, rfl⟩ := hostPresent_cases h
    exact .present p r he
  case setRunning b => cases h; exact .setRunning b he
  case setConfig w =>
    obtain ⟨hpoll, hcmd, c, hw, rfl⟩ := hostConfig_cases h
    refine .setConfig w c he ?_ ?_ ?_
    · rw [← hpoll]; exact congrArg PortState.busy (afterChoice_port s .poll).symm
    · rw [← hcmd]; exact congrArg PortState.busy (afterChoice_port s .cmd).symm
    · rw [← hw, (afterChoice_fields s).2.2.1]
  case reset => cases h; exact .reset he

/-- What a step of the machine does to the registers of port `q`: its sequencer moves, a request is presented on it, reset
comes, or they stay as they are. -/
theorem StepMove.port_cases {s s' : State} (h : StepMove s s') (q : Port) :
    (∃ b, nextEvent s = .port q b ∧ portStep q (moving q b s) = .next s') ∨
    (∃ r, s'.port q = { s.port q with req := some r }) ∨
    (nextEvent s = .reset ∧ s'.port q = .reset) ∨ s'.port q = s.port q := by
  cases h with
  | port p b he hp =>
    by_cases hq : q = p
    · subst hq
      exact .inl ⟨b, he, hp⟩
    · have hown : OwnStep p (moving p b s) s' := portStep_own rfl hp
      exact .inr (.inr (.inr ((hown.other q hq).trans (moving_port ..))))
  | grant p _ => exact .inr (.inr (.inr (by simp)))
  | device b _ => exact .inr (.inr (.inr (by simp [deviceSend])))
  | present p r _ =>
    by_cases hq : q = p
    · subst hq
      exact .inr (.inl ⟨r, by simp⟩)
    · exact .inr (.inr (.inr (by simp [State.port_upd_ne _ _ hq])))
  | setRunning b _ => exact .inr (.inr (.inr (by simp)))
  | setConfig w c _ _ _ _ => exact .inr (.inr (.inr (by simp)))
  | reset he => exact .inr (.inr (.inl ⟨he, hostReset_port ..⟩))

/-- Settles O45: the port that moves completes or goes on, and the other port keeps its registers and its lock. -/
theorem stepKeepsSequencersAndLock : Obligations.StepKeepsSequencersAndLock := by
  intro s s' hs h
  cases step_move h with
  | port p b _ hp =>
    have hs' := sequencerInv_moving p b hs
    have hown : OwnStep p (moving p b s) s' := portStep_own rfl hp
    have hq : ∀ q, PortSequenced (s'.port q) ∧ PortLocked s' q := fun q => by
      by_cases hqp : q = p
      · subst hqp
        exact portStep_sequenced hs' rfl hp
      · exact hown.other_sequenced hqp (hs'.1 q) (hs'.2 q)
    exact ⟨fun q => (hq q).1, fun q => (hq q).2⟩
  | grant p _ => exact sequencerInv_grantLock p (sequencerInv_afterChoice hs)
  | device b _ => exact hs.of_same (by simp [deviceSend]) (by simp [deviceSend]) (by simp [deviceSend])
  | present p r _ =>
    refine hs.of_same (fun q => ?_) (by simp) (by simp)
    by_cases hqp : q = p
    · subst hqp
      simp
    · simp [State.port_upd_ne _ _ hqp]
  | setRunning b _ => exact hs.of_same (by simp) (by simp) (by simp)
  | setConfig w c _ _ _ _ => exact hs.of_same (by simp) (by simp) (by simp)
  | reset _ => exact sequencerInv_hostReset _

end Sys2Proof.Machine
end

section
/-! The buffers and the decoder (spec/10_state.md R36 to R40, spec/43_decoder.md R161 to R167): a port out of phase RX rests, with
its decoder idle and no read in progress, and in phase RX each read leaves the decoder's registers in agreement. -/

namespace Sys2Proof.Machine

/-! ### The decoder's registers -/

/-- The decoder's registers agree: DDATA holds at most 250 bytes, LENGTH is legal once it has been checked, and from the trailer
on DDATA is as long as LENGTH says. -/
structure DecoderOk (x : PortState) : Prop where
  data : x.ddata.length ≤ 250
  length : x.dstate = .cmd ∨ x.dstate = .data ∨ x.dstate = .crc ∨ x.dstate = .check → 5 ≤ x.dlen.toNat
  whole : x.dstate = .crc ∨ x.dstate = .check → x.ddata.length + 5 = x.dlen.toNat

theorem decoderOk_of_early {x : PortState} (hd : x.ddata.length ≤ 250)
    (hs : x.dstate = .idle ∨ x.dstate = .sync ∨ x.dstate = .len) : DecoderOk x := by
  refine ⟨hd, fun h => ?_, fun h => ?_⟩ <;> rcases hs with hs | hs | hs <;> simp [hs] at h

/-- One state of the decoder keeps its registers in agreement, given no more bytes than it asked for. -/
theorem decoderTake_ok {r : List Byte} {x : PortState} (h : DecoderOk x) (hr : r.length ≤ readSize x) :
    DecoderOk (decoderTake r x).1 := by
  have hidle : ∀ y : PortState, y.ddata = x.ddata → y.dstate = .idle → DecoderOk y := fun y hy hs =>
    decoderOk_of_early (hy ▸ h.data) (.inl hs)
  unfold readSize at hr
  unfold decoderTake endDecode
  cases hs : x.dstate <;> simp only [hs] at hr ⊢
  case idle => exact decoderOk_of_early h.data (.inr (.inl rfl))
  case sync =>
    split
    · exact hidle _ rfl rfl
    · split_ifs
      · exact hidle _ rfl rfl
      · exact hidle _ rfl rfl
      · exact decoderOk_of_early h.data (.inr (.inr rfl))
  case len =>
    split
    · exact hidle _ rfl rfl
    · split_ifs with hl
      · exact hidle _ rfl rfl
      · exact ⟨h.data, fun _ => Nat.not_lt.mp hl, by simp⟩
  case cmd =>
    split
    · exact hidle _ rfl rfl
    · exact ⟨h.data, fun _ => h.length (.inl hs), by simp⟩
  case data =>
    have hlen : 5 ≤ x.dlen.toNat := h.length (.inr (.inl hs))
    have hlt := x.dlen.isLt
    simp only [Config.overhead] at hr ⊢
    split_ifs with hl
    · exact hidle _ rfl rfl
    · exact ⟨by show r.length ≤ 250; omega, fun _ => hlen, fun _ => by show r.length + 5 = x.dlen.toNat; omega⟩
  case crc =>
    split
    · exact ⟨h.data, fun _ => h.length (.inr (.inr (.inl hs))), fun _ => h.whole (.inl hs)⟩
    · exact hidle _ rfl rfl
  case check => exact hidle _ rfl rfl

theorem parseBytes_length_le (n : Nat) (x : PortState) : (parseBytes n x).length ≤ n := List.length_take_le ..

theorem parseLoop_ok (k : Nat) {x : PortState} (h : DecoderOk x) : DecoderOk (parseLoop k x).1 := by
  induction k generalizing x with
  | zero => exact decoderOk_of_early h.data (.inl rfl)
  | succ k ih =>
    rw [parseLoop_succ]
    have h' := decoderTake_ok (r := parseBytes (readSize x) x)
      (x := { x with parsePos := x.parsePos + (parseBytes (readSize x) x).length }) ⟨h.data, h.length, h.whole⟩
      (parseBytes_length_le ..)
    generalize decoderTake (parseBytes (readSize x) x)
      { x with parsePos := x.parsePos + (parseBytes (readSize x) x).length } = t at h'
    rcases t with ⟨x', _ | o⟩
    · exact ih h'
    · exact h'

theorem parseRun_ok (d : List Byte) {x : PortState} (h : x.ddata.length ≤ 250) : DecoderOk (parseRun d x).1 :=
  parseLoop_ok 5 (decoderOk_of_early h (.inr (.inl rfl)))

/-! ### Ports at rest -/

/-- The port's buffers hold what their lengths say, its decoder is idle, and no read is in progress. -/
structure Resting (x : PortState) : Prop where
  frame : x.txbuf.length = x.txlen.toNat
  data : x.ddata.length ≤ 250
  pos : x.parsePos ≤ x.parseIn.length
  input : x.parseIn.length ≤ 255
  dstate : x.dstate = .idle
  got : x.got = []

theorem Resting.buffersOk {x : PortState} (h : Resting x) : BuffersOk x := by
  have hd := decoderOk_of_early h.data (.inl h.dstate)
  exact ⟨h.frame, h.data, h.pos, h.input, fun _ => h.dstate, by simp [h.got], hd.length, hd.whole⟩

theorem BuffersOk.resting {x : PortState} (h : BuffersOk x) (hp : x.phase ≠ .rx) : Resting x := by
  obtain ⟨hframe, hdata, hpos, hin, hidle, hgot, -, -⟩ := h
  have hs := hidle hp
  refine ⟨hframe, hdata, hpos, hin, hs, List.length_eq_zero_iff.mp ?_⟩
  simpa [readSize, hs] using hgot

/-- A step of the decoder on a read that it has asked for: the buffers stay as they should be, and a port whose decode has ended
rests. -/
theorem decoderTake_buffers {x x' : PortState} {o : Option DecodeOutcome} (h : BuffersOk x) (hp : x.phase = .rx)
    (ht : decoderTake x.got { x with got := [] } = (x', o)) : BuffersOk x' ∧ (o.isSome = true → Resting x') := by
  obtain ⟨hframe, hdata, hpos, hin, -, hgot, hlen, hwhole⟩ := h
  obtain ⟨honly, hin', hpos'⟩ := decoderTake_only x.got { x with got := [] }
  have hok := decoderTake_ok (r := x.got) (x := { x with got := [] }) ⟨hdata, hlen, hwhole⟩ hgot
  rw [ht] at honly hin' hpos' hok
  have hf : x'.txbuf.length = x'.txlen.toNat := by rw [honly.txbuf, honly.txlen]; exact hframe
  have hpo : x'.parsePos ≤ x'.parseIn.length := by rw [hin', hpos']; exact hpos
  have hi : x'.parseIn.length ≤ 255 := by rw [hin']; exact hin
  refine ⟨⟨hf, hok.data, hpo, hi, fun hne => absurd (honly.phase.trans hp) hne,
    (congrArg List.length honly.got).trans_le (Nat.zero_le _), hok.length,
    hok.whole⟩, fun ho => ?_⟩
  obtain ⟨o, rfl⟩ := Option.isSome_iff_exists.mp ho
  exact ⟨hf, hok.data, hpo, hi, decoderTake_idle ht, honly.got⟩

theorem begun_resting (c : Byte) (d : List Byte) {x : PortState} (h : Resting x) : Resting (begun c d x) := by
  by_cases hd : d.length ≤ 250
  · rw [begun_of_le c x hd]
    exact ⟨by rw [lengthByte_toNat hd, wholeFrame_length], h.data, h.pos, h.input, h.dstate, h.got⟩
  · rw [begun_of_gt c x hd]
    exact ⟨h.frame, h.data, h.pos, h.input, h.dstate, h.got⟩

theorem counted_resting (e : ResultCode) {x : PortState} (h : Resting x) : Resting (counted e x) :=
  ⟨h.frame, h.data, h.pos, h.input, h.dstate, h.got⟩

/-- Completion leaves the port's buffers at rest. -/
theorem complete_resting {p : Port} (r : Response) {s : State} (h : Resting (s.port p)) :
    Resting ((complete p r s).port p) := by
  rw [complete_port]
  exact ⟨h.frame, h.data, h.pos, h.input, h.dstate, h.got⟩

/-- The run of a lock-free instruction that a request carries leaves the port's buffers at rest. -/
theorem lockFreeRun_resting {i : Instr} (hw : i.wellFormed = true) {x : PortState} (h : Resting x) :
    Resting (lockFreeRun i x) := by
  have hsame : ∀ y : PortState, y.txbuf = x.txbuf → y.txlen = x.txlen → y.ddata = x.ddata → y.parsePos = x.parsePos →
      y.parseIn = x.parseIn → y.dstate = x.dstate → y.got = x.got → Resting y := fun y h1 h2 h3 h4 h5 h6 h7 =>
    ⟨by rw [h1, h2]; exact h.frame, h3 ▸ h.data, by rw [h4, h5]; exact h.pos, h5 ▸ h.input, h6 ▸ h.dstate, h7 ▸ h.got⟩
  cases i
  case encode c d =>
    simp only [lockFreeRun]
    split_ifs with hd
    · exact ⟨by simp only [wholeFrame_length, lengthByte_toNat hd], h.data, h.pos, h.input, h.dstate, h.got⟩
    · exact hsame _ rfl rfl rfl rfl rfl rfl rfl
  case parse d =>
    obtain ⟨honly, hin⟩ := parseRun_only d x
    have hd : d.length ≤ 255 := by simpa [Instr.wellFormed, countFits] using hw
    refine ⟨?_, (parseRun_ok d h.data).data, ?_, ?_, parseRun_idle d x, honly.got.trans h.got⟩
    · show (parseRun d x).1.txbuf.length = (parseRun d x).1.txlen.toNat
      rw [honly.txbuf, honly.txlen]
      exact h.frame
    · show (parseRun d x).1.parsePos ≤ (parseRun d x).1.parseIn.length
      rw [hin]
      exact parseRun_pos d x
    · show (parseRun d x).1.parseIn.length ≤ 255
      rw [hin]
      exact hd
  all_goals exact hsame _ rfl rfl rfl rfl rfl rfl rfl

/-! ### The invariant over a step -/

section
variable {i : Instr} {k : ExchangeKind} {c : Byte} {d : List Byte} {p : Port} {s s' : State}

theorem ExchangeMove.buffersOk (h : ExchangeMove k c d p s s') (hb : BuffersOk (s.port p)) : BuffersOk (s'.port p) := by
  have rest : ∀ ph : Phase, (s.port p).phase = ph → ph ≠ .rx → Resting (s.port p) := fun ph hp hne =>
    hb.resting (hp ▸ hne)
  cases h with
  | start hp _ =>
    rw [State.port_upd]
    exact (begun_resting c d (rest _ hp nofun)).buffersOk
  | startCounted hp _ _ _ =>
    have hr := rest _ hp nofun
    rw [State.port_upd]
    exact (begun_resting c d (x := uncounted (s.port p)) ⟨hr.frame, hr.data, hr.pos, hr.input, hr.dstate, hr.got⟩).buffersOk
  | noAttempt hp _ =>
    have hr := rest _ hp nofun
    refine (complete_resting _ ?_).buffersOk
    rw [State.port_upd]
    exact ⟨hr.frame, hr.data, hr.pos, hr.input, hr.dstate, hr.got⟩
  | wait _ => exact hb
  | cancel hp _ _ => exact (complete_resting _ (rest _ hp nofun)).buffersOk
  | sampleOne hp _ _ =>
    have hr := rest _ hp nofun
    rw [State.port_upd]
    exact Resting.buffersOk ⟨hr.frame, hr.data, hr.pos, hr.input, hr.dstate, hr.got⟩
  | skip hp _ =>
    have hr := rest _ hp nofun
    rw [State.port_upd]
    exact Resting.buffersOk ⟨hr.frame, hr.data, hr.pos, hr.input, hr.dstate, hr.got⟩
  | drain hp _ =>
    have hr := rest _ hp nofun
    rw [State.port_upd, State.port_shared]
    exact Resting.buffersOk ⟨hr.frame, hr.data, hr.pos, hr.input, hr.dstate, hr.got⟩
  | send hp =>
    have hr := rest _ hp nofun
    rw [State.port_upd, State.port_shared]
    have hd := decoderOk_of_early (x := { s.port p with dstate := .sync }) hr.data (.inr (.inl rfl))
    exact ⟨hr.frame, hr.data, hr.pos, hr.input, fun hne => absurd rfl hne, Nat.zero_le _, hd.length, hd.whole⟩
  | take b rest hp hlt _ =>
    obtain ⟨hframe, hdata, hpos, hin, hidle, -, hlen, hwhole⟩ := hb
    rw [State.port_upd, State.port_shared]
    refine ⟨hframe, hdata, hpos, hin, hidle, ?_, hlen, hwhole⟩
    show ((s.port p).got ++ [b]).length ≤ readSize (s.port p)
    rw [List.length_append, List.length_singleton]
    exact hlt
  | silent _ => exact hb
  | read x' hp ht =>
    rw [State.port_setPort]
    exact (decoderTake_buffers hb hp ht).1
  | answer x' o n r hp ht =>
    have hr := (decoderTake_buffers hb hp ht).2 rfl
    rw [State.port_setPort]
    exact Resting.buffersOk ⟨hr.frame, hr.data, hr.pos, hr.input, hr.dstate, hr.got⟩
  | retry x' o hp ht _ =>
    have hr := (decoderTake_buffers hb hp ht).2 rfl
    rw [releaseLock_port, State.port_setPort]
    exact (begun_resting c d (counted_resting _ hr)).buffersOk
  | exhaust x' o r hp ht =>
    have hr := (decoderTake_buffers hb hp ht).2 rfl
    refine (complete_resting _ ?_).buffersOk
    rw [State.port_setPort]
    exact counted_resting _ hr
  | post r hp => exact (complete_resting _ (rest _ hp nofun)).buffersOk

/-- A step of a request's instruction, taken in phase IDLE or in one of its phases. -/
theorem InstrMove.buffersOk (h : InstrMove i s s') (hc : s.cur = p) (hw : i.wellFormed = true)
    (hf : (s.port p).phase = .idle ∨ phaseFits i (s.port p).phase = true) (hb : BuffersOk (s.port p)) :
    BuffersOk (s'.port p) := by
  subst hc
  have rest : ∀ ph : Phase, (s.port s.cur).phase = ph → ph ≠ .rx → Resting (s.port s.cur) := fun ph hp hne =>
    hb.resting (hp ▸ hne)
  cases h with
  | enter _ hp =>
    have hr := rest _ hp nofun
    rw [State.port_upd]
    exact Resting.buffersOk ⟨hr.frame, hr.data, hr.pos, hr.input, hr.dstate, hr.got⟩
  | run _ hp =>
    rw [State.port_upd]
    exact (lockFreeRun_resting hw (rest _ hp nofun)).buffersOk
  | post r _ hp => exact (complete_resting _ (rest _ hp nofun)).buffersOk
  | illegal hd d hi =>
    subst hi
    refine (complete_resting _ (hb.resting fun hp => ?_)).buffersOk
    rw [hp] at hf
    exact hf.elim nofun nofun
  | exchange _ hm => exact hm.buffersOk hb

end

/-- Settles O46: out of phase RX a port rests, and in it the decoder takes no more than it asked for. -/
theorem stepKeepsBuffers : Obligations.StepKeepsBuffers := by
  intro s s' hs hb h q
  rcases (step_move h).port_cases q with ⟨b, -, hp⟩ | ⟨r, hq⟩ | ⟨-, hq⟩ | hq
  · have hbq : BuffersOk ((moving q b s).port q) := by
      rw [moving_port]
      exact hb q
    rcases (sequencerInv_moving q b hs).portStep_cases (p := q) rfl hp with
      ⟨r, i, -, -, hi, hf, hm⟩ | ⟨r, i, -, hidle, hi, hcur, hm⟩ | ⟨r, -, hidle, rfl⟩ | rfl
    · exact hm.buffersOk rfl (encodeOfDecodeIsTheRequest r i hi).2 (.inr hf) hbq
    · refine hm.buffersOk hcur (encodeOfDecodeIsTheRequest r i hi).2 (.inl (by simpa using hidle)) ?_
      rw [acceptRequest_port]
      exact hbq
    · refine (complete_resting _ ?_).buffersOk
      have hr := hbq.resting (by rw [hidle]; nofun)
      rw [acceptRequest_port]
      exact ⟨hr.frame, hr.data, hr.pos, hr.input, hr.dstate, hr.got⟩
    · exact hbq
  · rw [hq]
    exact hb q
  · rw [hq]
    exact Resting.buffersOk ⟨rfl, Nat.zero_le _, Nat.zero_le _, Nat.zero_le _, rfl, rfl⟩
  · rw [hq]
    exact hb q

end Sys2Proof.Machine
end

section
/-! A step runs the instruction that its port has latched or accepts (spec/44_serializer.md R190, R191), and an illegal request
completes at once (spec/60_exceptions.md R239). -/

namespace Sys2Proof.Machine

theorem runRequest_of_ok {p : Port} {r : Request} {i : Instr} (h : decode r = .ok i) (s : State) :
    runRequest p r s = exec i s := by
  simp [runRequest, h]

theorem portStep_of_busy {p : Port} {s : State} {r : Request} (hb : (s.port p).busy = true)
    (hl : (s.port p).latch = some r) : portStep p s = runRequest p r s := by
  simp [portStep, hb, hl]

theorem portStep_of_free {p : Port} {s : State} {r : Request} (hb : (s.port p).busy = false)
    (hr : (s.port p).req = some r) : portStep p s = runRequest p r (acceptRequest p r s) := by
  simp [portStep, hb, hr]

theorem portStep_of_nothing {p : Port} {s : State} (hb : (s.port p).busy = false) (hr : (s.port p).req = none) :
    portStep p s = .next s := by
  simp [portStep, hb, hr]

/-- Settles O7: a busy port goes on with the request it has latched. -/
theorem stepOfBusyPortRunsLatchedInstruction : Obligations.StepOfBusyPortRunsLatchedInstruction := by
  intro s p b r i he hb hl hi
  rw [step_of_port he, portStep_of_busy (r := r) (by simpa using hb) (by simpa using hl), runRequest_of_ok hi]

/-- Settles O8: a free port accepts the request presented to it. -/
theorem stepOfFreePortAcceptsAndRuns : Obligations.StepOfFreePortAcceptsAndRuns := by
  intro s p b r i he hb hr hi
  rw [step_of_port he, portStep_of_free (r := r) (by simpa using hb) (by simpa using hr), runRequest_of_ok hi]
  rfl

theorem decode_of_decodeTableWord {nbits w : Nat} {i : Instr} (h : decodeTableWord nbits w = some i) :
    decode (requestOfWord nbits w) = .ok i := by
  unfold decodeTableWord at h
  split at h
  · rw [← Option.some.inj h]
    assumption
  · cases h

/-- Settles O9: the word's request stands on port CMD, which is free and moves next. -/
theorem fetchWordRunsItsInstruction : Obligations.FetchWordRunsItsInstruction := by
  intro s nbits w i h
  exact stepOfFreePortAcceptsAndRuns (s.withFetchWord nbits w) .cmd false (requestOfWord nbits w) i rfl rfl rfl
    (decode_of_decodeTableWord h)

/-- Settles O5: a port that does not own the lock completes by a write of its own registers. -/
theorem reservedOpCompletesIllegal : Obligations.ReservedOpCompletesIllegal :=
  fun _ _ _ hl => congrArg Host.Outcome.next (complete_of_not_owner _ hl)

theorem countOk_of_decode_error_dataCount {r : Request} (h : decode r = .error .dataCount) : r.countOk = false := by
  unfold decode at h
  split_ifs at h with hn
  · exact hn
  · cases h
  · unfold decodeLegal at h
    split at h <;> (repeat' split at h) <;> cases h

/-- An illegal request completes ILLEGAL_OP, whether its OP is reserved or another rule is broken. -/
theorem runRequest_of_illegal {p : Port} {r : Request} {s : State} (hc : s.cur = p) (hn : r.countOk = true)
    (hill : illegalRequest r) : runRequest p r s = .next (completeIllegal p s) := by
  subst hc
  unfold runRequest
  split
  · rename_i i hi
    obtain ⟨h, d, rfl⟩ := (illegalRequestsAreThoseOfTheRule r hn).mpr hill i hi
    rfl
  · rename_i hd
    rw [countOk_of_decode_error_dataCount hd] at hn
    cases hn
  · rfl

/-- Settles O4: the accepting port does not own the lock, so its completion writes its own registers alone. -/
theorem illegalRequestWritesOnlyItsResponse : Obligations.IllegalRequestWritesOnlyItsResponse := by
  intro s p b r hs he hb hr hn hill
  have hlo : (acceptRequest p r (moving p b s)).lockOwner ≠ some p := by simpa [acceptRequest] using (hs.free hb).2
  rw [step_of_port he, portStep_of_free (r := r) (by simpa using hb) (by simpa using hr),
    runRequest_of_illegal (by simp [acceptRequest]) hn hill, completeIllegal, complete_of_not_owner _ hlo, acceptRequest,
    State.upd_upd]

end Sys2Proof.Machine
end

section
/-! The whole machine, by the agent that moves: reset, the host, the device, the arbiter, and what a sequencer's step writes. -/

namespace Sys2Proof.Machine

/-! ### Reset, the grant, the device and the host -/

/-- Settles O43: reset puts every register of the table at its value. -/
theorem resetGivesTheStatedValues : Obligations.ResetGivesTheStatedValues := by
  intro s he
  refine ⟨hostReset (afterChoice s), step_of_event he, fun p => ?_, rfl, rfl, rfl, rfl, rfl, fun _ => rfl, rfl, rfl, rfl,
    (afterChoice_fields s).2.2.2.2.1⟩
  rw [State.isWaiting, hostReset_port]
  exact ⟨rfl, rfl, rfl, rfl, rfl, rfl, rfl, rfl, rfl, rfl, rfl, rfl, rfl, rfl, rfl, rfl⟩

theorem reset_port (p : Port) : State.reset.port p = .reset := by cases p <;> rfl

theorem resting_reset : Resting PortState.reset := ⟨rfl, Nat.zero_le _, Nat.zero_le _, Nat.zero_le _, rfl, rfl⟩

theorem configInv_reset {s : State} (h : s.config = .reset) : ConfigInv s := by
  rw [ConfigInv, h]
  exact ⟨Nat.succ_pos _, rfl, Nat.succ_pos _, echoWf_nil⟩

/-- Settles O44: at reset the ports are free and at rest, and the OPEN fields are one more than a number. -/
theorem resetStateIsGood : Obligations.ResetStateIsGood := by
  refine ⟨sequencerInv_hostReset State.reset, fun p => ?_, configInv_reset rfl, fun p r i c d hl => ?_⟩
  · rw [reset_port]
    exact resting_reset.buffersOk
  · rw [reset_port] at hl
    cases hl

/-- Settles O53: a grant that may happen is made whole, any other changes nothing. -/
theorem grantGivesAFreeLockToAnyWaitingPort : Obligations.GrantGivesAFreeLockToAnyWaitingPort := by
  intro s p he
  have hg : step s = .next (grantLock p (afterChoice s)) := step_of_event he
  have hw : (afterChoice s).isWaiting p = true ↔ (s.port p).phase = .waitGrant := by
    rw [isWaiting_iff, afterChoice_port]
  obtain ⟨hlo, hrun, -⟩ := afterChoice_fields s
  refine ⟨fun hfree hp => ?_, fun hne => ?_⟩
  · rw [hg, grantLock, if_pos ⟨hlo.trans hfree, hw.mpr hp⟩, ← hrun]
  · rw [hg, grantLock, if_neg]
    rintro ⟨hfree, hp⟩
    exact hne.elim (fun h => h (hlo.symm.trans hfree)) (fun h => h (hw.mp hp))

theorem step_setConfig {s : State} {w : Config.Write} (he : nextEvent s = .setConfig w) :
    step s = hostConfig w (afterChoice s) := step_of_event he

/-- Settles O58: the host's write finds a busy port before it looks at the value. -/
theorem configWriteWhileBusyIsRefused : Obligations.ConfigWriteWhileBusyIsRefused := by
  intro s w he hb
  have hpoll : (afterChoice s).poll = s.poll := afterChoice_port s .poll
  have hcmd : (afterChoice s).cmd = s.cmd := afterChoice_port s .cmd
  rw [step_setConfig he, hostConfig, hpoll, hcmd, if_pos (by simpa using hb)]

theorem not_busy_afterChoice {s : State} (hp : s.poll.busy = false) (hc : s.cmd.busy = false) :
    ¬ ((afterChoice s).poll.busy || (afterChoice s).cmd.busy) = true := by
  have hpoll : (afterChoice s).poll = s.poll := afterChoice_port s .poll
  have hcmd : (afterChoice s).cmd = s.cmd := afterChoice_port s .cmd
  simp [hpoll, hcmd, hp, hc]

/-- The host's write of a legal value to CONFIG while both ports are free. -/
theorem step_of_legal_write {s : State} {w : Config.Write} {c : ConfigRecord} (he : nextEvent s = .setConfig w)
    (hp : s.poll.busy = false) (hc : s.cmd.busy = false) (hw : writeConfig w s.config = some c) :
    step s = .next { afterChoice s with config := c } := by
  rw [step_setConfig he, hostConfig, if_neg (not_busy_afterChoice hp hc), (afterChoice_fields s).2.2.1, hw]

/-- The host's write of an illegal value to CONFIG while both ports are free. -/
theorem step_of_illegal_write {s : State} {w : Config.Write} (he : nextEvent s = .setConfig w)
    (hp : s.poll.busy = false) (hc : s.cmd.busy = false) (hw : writeConfig w s.config = none) :
    step s = .refused .configNotLegal := by
  rw [step_setConfig he, hostConfig, if_neg (not_busy_afterChoice hp hc), (afterChoice_fields s).2.2.1, hw]

/-- Settles O57: each input is the write of its register, on the state in which the choice of the agent has been made. -/
theorem inputsOfDeviceAndHostWriteOnlyTheirOwn : Obligations.InputsOfDeviceAndHostWriteOnlyTheirOwn := by
  intro s
  obtain ⟨-, -, -, -, hrx, -, -⟩ := afterChoice_fields s
  refine ⟨fun b he => ?_, fun p r he hr hb hn => ?_, fun b he => step_of_event he, fun hp hc => ?_⟩
  · rw [step_of_event he, ← hrx]
    rfl
  · have h : step s = hostPresent p r (afterChoice s) := step_of_event he
    rw [h, hostPresent, afterChoice_port, hr, hb, hn]
    rfl
  · have legal : ∀ {w c}, nextEvent s = .setConfig w → writeConfig w s.config = some c →
        step s = .next { afterChoice s with config := c } := fun he hw => step_of_legal_write he hp hc hw
    have illegal : ∀ {w}, nextEvent s = .setConfig w → writeConfig w s.config = none →
        step s = .refused .configNotLegal := fun he hw => step_of_illegal_write he hp hc hw
    refine ⟨fun n he => ?_, fun n he => ?_, fun n he => ?_, fun v he => legal he rfl, fun n he => legal he rfl,
      fun n he => ?_, fun v he => legal he rfl,
      fun c v he => ⟨echoWrite c v s.config.echo, legal he rfl, fun a => echoRead_write c v _ a⟩⟩
    · split_ifs with h
      · exact legal he (if_pos h)
      · exact illegal he (if_neg h)
    · split_ifs with h h'
      · exact legal he (if_pos h)
      · exact legal he ((if_neg h).trans (if_pos h'))
      · exact illegal he ((if_neg h).trans (if_neg h'))
    · split_ifs with h
      · exact legal he ((if_pos h).trans (by rw [h]))
      · exact illegal he (if_neg h)
    · split_ifs with h
      · exact legal he (if_pos (Nat.lt_of_succ_le h))
      · exact illegal he (if_neg fun h0 => h (Nat.succ_le_of_lt h0))

/-! ### RUNNING, CONFIG and the other port -/

/-- Settles O55: a sequencer's step is a step of its own port. -/
theorem portStepLeavesTheOtherPort : Obligations.PortStepLeavesTheOtherPort := by
  intro s s' p q b he h hq
  rw [step_of_port he] at h
  have hown : OwnStep p (moving p b s) s' := portStep_own rfl h
  refine ⟨(hown.other q hq).trans (moving_port ..), hown.running.trans ?_, hown.config.trans ?_⟩ <;> simp

/-- What a step does to RUNNING and CONFIG. -/
theorem StepMove.running_config {s s' : State} (h : StepMove s s') :
    (s'.running = s.running ∨ nextEvent s = .reset ∨ nextEvent s = .setRunning s'.running) ∧
    (s'.config = s.config ∨ (nextEvent s = .reset ∧ s'.config = .reset) ∨
      ∃ w, nextEvent s = .setConfig w ∧ s.poll.busy = false ∧ s.cmd.busy = false ∧
        writeConfig w s.config = some s'.config) := by
  obtain ⟨-, hr, hc, -⟩ := afterChoice_fields s
  cases h with
  | port p b he hp =>
    have hown : OwnStep p (moving p b s) s' := portStep_own rfl hp
    exact ⟨.inl (hown.running.trans hr), .inl (hown.config.trans hc)⟩
  | grant p _ =>
    rcases grantLock_cases p (afterChoice s) with ⟨-, -, h⟩ | h <;> rw [h] <;> exact ⟨.inl hr, .inl hc⟩
  | device b _ => exact ⟨.inl hr, .inl hc⟩
  | present p r _ => exact ⟨.inl (by simp), .inl (by simp)⟩
  | setRunning b he => exact ⟨.inr (.inr he), .inl hc⟩
  | setConfig w c he hp hcmd hw => exact ⟨.inl hr, .inr (.inr ⟨w, he, hp, hcmd, hw⟩)⟩
  | reset he => exact ⟨.inr (.inl he), .inr (.inl ⟨he, rfl⟩)⟩

/-- Settles O56: a sequencer, the arbiter and the device leave both alone. -/
theorem runningAndConfigAreTheHosts : Obligations.RunningAndConfigAreTheHosts := by
  intro s s' h
  obtain ⟨hr, hc⟩ := (step_move h).running_config
  exact ⟨fun hne => hr.resolve_left hne, fun hne => (hc.resolve_left hne).imp And.left id⟩

/-- A host write of a legal value keeps CONFIG legal. -/
theorem writeConfig_legal {w : Config.Write} {s s' : State} (hs : ConfigInv s)
    (h : writeConfig w s.config = some s'.config) : ConfigInv s' := by
  obtain ⟨ht, hd, hm, he⟩ := hs
  unfold ConfigInv
  cases w <;> simp only [writeConfig] at h
  case tRead n =>
    split_ifs at h with hn
    rw [← Option.some.inj h]
    exact ⟨hn, hd, hm, he⟩
  case baud n => split_ifs at h <;> rw [← Option.some.inj h] <;> exact ⟨ht, hd, hm, he⟩
  case dataBits n =>
    split_ifs at h with hn
    rw [← Option.some.inj h]
    exact ⟨ht, hn, hm, he⟩
  case maxAckAttempts n =>
    split_ifs at h with hn
    rw [← Option.some.inj h]
    exact ⟨ht, hd, hn, he⟩
  case echo c v =>
    rw [← Option.some.inj h]
    exact ⟨ht, hd, hm, echoWrite_wf c v he⟩
  all_goals
    rw [← Option.some.inj h]
    exact ⟨ht, hd, hm, he⟩

/-- Settles O47: CONFIG changes only by a legal write or by reset. -/
theorem stepKeepsConfigLegal : Obligations.StepKeepsConfigLegal := by
  intro s s' hs h
  rcases (step_move h).running_config.2 with hc | ⟨-, hc⟩ | ⟨w, -, -, -, hw⟩
  · rw [ConfigInv, hc]
    exact hs
  · exact configInv_reset hc
  · exact writeConfig_legal hs hw

/-! ### The lock -/

/-- Settles O52: a sequencer can only give back the lock it owns, and the arbiter grants only a free lock. -/
theorem lockChangesOnlyByGrantAndRelease : Obligations.LockChangesOnlyByGrantAndRelease := by
  intro s s' h
  obtain ⟨hl, hr, -, -, -, -, hsa⟩ := afterChoice_fields s
  cases step_move h with
  | port p b he hp =>
    have hown : OwnStep p (moving p b s) s' := portStep_own rfl hp
    refine ⟨?_, .inl (hown.sampled.trans hsa)⟩
    rcases hown.lock with h | ⟨h1, h2⟩
    · exact .inl (h.trans hl)
    · exact .inr (.inr (.inl ⟨p, b, he, hl.symm.trans h1, h2⟩))
  | grant p he =>
    rcases grantLock_cases p (afterChoice s) with ⟨hfree, hw, h⟩ | h <;> rw [h]
    · rw [isWaiting_iff, afterChoice_port] at hw
      have hfree' := hl.symm.trans hfree
      exact ⟨.inr (.inl ⟨p, he, hfree', hw, rfl⟩), .inr (.inl ⟨p, he, hfree', rfl, hr⟩)⟩
    · exact ⟨.inl hl, .inl hsa⟩
  | device b _ => exact ⟨.inl hl, .inl hsa⟩
  | present p r _ => exact ⟨.inl (by simp), .inl (by simp)⟩
  | setRunning b _ => exact ⟨.inl hl, .inl hsa⟩
  | setConfig w c _ _ _ _ => exact ⟨.inl hl, .inl hsa⟩
  | reset he => exact ⟨.inr (.inr (.inr ⟨he, rfl⟩)), .inr (.inr he)⟩

/-- An instruction in phase IDLE or in one of its phases has a next state. -/
theorem exec_next_of_fits {i : Instr} {s : State}
    (h : (s.port s.cur).phase = .idle ∨ phaseFits i (s.port s.cur).phase = true) : ∃ s', exec i s = .next s' := by
  rcases instr_kinds i with ⟨hl, ho⟩ | ⟨hl, k, c, d, ho⟩ | ⟨-, -, hd, d, rfl⟩
  · rw [exec_lockFree_eq hl, lockFree]
    cases hp : (s.port s.cur).phase <;> simp [hp, phaseFits, exchangeInstr, ho] at h ⊢
  · rw [exec_exchange_eq ho, exchangeOp]
    cases hp : (s.port s.cur).phase <;> simp [hp, phaseFits, hl] at h ⊢
  · exact ⟨_, rfl⟩

theorem runRequest_ne_fault {p : Port} {r : Request} {s : State} (f : Fault)
    (h : ∀ i, decode r = .ok i → ∃ s', exec i s = .next s') : runRequest p r s ≠ .fault f := by
  unfold runRequest
  split
  · obtain ⟨s', hs'⟩ := h _ ‹_›
    rw [hs']
    nofun
  · nofun
  · nofun

/-- Settles O49: a busy port has latched an instruction and is in one of its phases, and a free port is idle. -/
theorem sequencedMachineIsNeverStuck : Obligations.SequencedMachineIsNeverStuck := by
  intro s f hs
  cases he : nextEvent s with
  | port p b =>
    rw [step_of_port he]
    have hs' := sequencerInv_moving p b hs
    cases hb : ((moving p b s).port p).busy
    · obtain ⟨hidle, -⟩ := hs'.free hb
      cases hr : ((moving p b s).port p).req with
      | none =>
        rw [portStep_of_nothing hb hr]
        nofun
      | some r =>
        rw [portStep_of_free hb hr]
        refine runRequest_ne_fault f fun i _ => exec_next_of_fits (.inl ?_)
        simpa [acceptRequest] using hidle
    · obtain ⟨r, i, hl, hi, hf⟩ := (hs'.1 p).2 hb
      rw [portStep_of_busy hb hl]
      refine runRequest_ne_fault f fun j hj => exec_next_of_fits (.inr ?_)
      rw [hi] at hj
      exact Except.ok.inj hj ▸ hf
  | present p r =>
    rw [step_of_event he]
    simp only [agentStep, hostPresent]
    split_ifs <;> nofun
  | setConfig w =>
    rw [step_of_event he]
    simp only [agentStep, hostConfig]
    split_ifs
    · nofun
    · split <;> nofun
  | _ =>
    rw [step_of_event he]
    nofun

end Sys2Proof.Machine
end

section
/-! What a sequencer's step does to the channel and DIAG, to its port's counter and to its accumulator, by the phase it finds. -/

namespace Sys2Proof.Machine

/-! ### The channel and DIAG -/

/-- What a step of port `p` may do to TXHIST, RXFIFO and DIAG (spec/44_serializer.md R197, spec/60_exceptions.md R254). -/
structure ChannelStep (p : Port) (s s' : State) : Prop where
  tx : s'.txhist = s.txhist ∨ ((s.port p).phase = .tx ∧
    s'.txhist = s.txhist ++ (s.port p).txbuf.take (s.port p).txlen.toNat)
  rx : s'.rxfifo = s.rxfifo ∨ ((s.port p).phase = .flush ∧ s'.rxfifo = []) ∨
    ((s.port p).phase = .rx ∧ s'.rxfifo = s.rxfifo.tail)
  diag : s'.diag = s.diag ∨ ∃ e : DiagEvent, s'.diag = s.diag ++ [e] ∧ e.port = p ∧
    ((e.kind = .unexpectedBytes ∧ (s.port p).phase = .flush ∧ e.info = s.rxfifo ∧ s.rxfifo ≠ []) ∨
     (e.kind = .syncLoss ∧ (s.port p).phase = .rx ∧ (s.port p).dstate = .sync ∧
      ∃ v, e.info = [v] ∧ v ≠ 0x00 ∧ v ≠ 0xFC))

theorem channelStep_of_same {p : Port} {s s' : State} (ht : s'.txhist = s.txhist) (hr : s'.rxfifo = s.rxfifo)
    (hd : s'.diag = s.diag) : ChannelStep p s s' := ⟨.inl ht, .inl hr, .inl hd⟩

theorem channelStep_complete {p : Port} (r : Response) (s : State) : ChannelStep p s (complete p r s) :=
  channelStep_of_same (by simp) (by simp) (by simp)

/-- A state that differs from `s'` in none of TXHIST, RXFIFO and DIAG. -/
theorem ChannelStep.congr {p : Port} {s s' t : State} (h : ChannelStep p s s') (ht : t.txhist = s'.txhist)
    (hr : t.rxfifo = s'.rxfifo) (hd : t.diag = s'.diag) : ChannelStep p s t := by
  obtain ⟨h1, h2, h3⟩ := h
  exact ⟨ht ▸ h1, hr ▸ h2, hd ▸ h3⟩

/-- The end of a decode logs a SYNC_ERR, which the decoder gives in D_SYNC alone. -/
theorem channelStep_syncLoss {p : Port} {s : State} {x' : PortState} {o : DecodeOutcome} (hp : (s.port p).phase = .rx)
    (ht : decoderTake (s.port p).got { s.port p with got := [] } = (x', some o)) :
    ChannelStep p s { s with diag := s.diag ++ syncLossOf p o } := by
  refine ⟨.inl rfl, .inl rfl, ?_⟩
  cases o
  case syncErr b =>
    obtain ⟨hs, h0, hfc⟩ := decoderTake_syncErr ht
    exact .inr ⟨_, rfl, rfl, .inr ⟨rfl, hp, hs, b, rfl, h0, hfc⟩⟩
  all_goals exact .inl (List.append_nil _)

section
variable {i : Instr} {k : ExchangeKind} {c : Byte} {d : List Byte} {p : Port} {s s' : State}

theorem ExchangeMove.channel (h : ExchangeMove k c d p s s') : ChannelStep p s s' := by
  cases h with
  | noAttempt _ _ => exact channelStep_of_same (by simp) (by simp) (by simp)
  | cancel _ _ _ => exact channelStep_complete ..
  | drain hp _ =>
    refine ⟨.inl (by simp), .inr (.inl ⟨hp, by simp⟩), ?_⟩
    by_cases he : s.rxfifo = []
    · exact .inl (by simp [he])
    · exact .inr ⟨⟨.unexpectedBytes, p, s.rxfifo⟩, by simp [he], rfl, .inl ⟨rfl, hp, rfl, he⟩⟩
  | send hp => exact ⟨.inr ⟨hp, by simp⟩, .inl (by simp), .inl (by simp)⟩
  | take b rest hp _ hr => exact ⟨.inl (by simp), .inr (.inr ⟨hp, by simp [hr]⟩), .inl (by simp)⟩
  | answer x' o n r hp ht => exact (channelStep_syncLoss hp ht).congr (by simp) (by simp) (by simp)
  | retry x' o hp ht _ => exact (channelStep_syncLoss hp ht).congr (by simp) (by simp) (by simp)
  | exhaust x' o r hp ht => exact (channelStep_syncLoss hp ht).congr (by simp) (by simp) (by simp)
  | post r _ => exact channelStep_complete ..
  | _ => exact channelStep_of_same (by simp) (by simp) (by simp)

theorem InstrMove.channel (h : InstrMove i s s') (hc : s.cur = p) : ChannelStep p s s' := by
  subst hc
  cases h with
  | enter _ _ => exact channelStep_of_same (by simp) (by simp) (by simp)
  | run _ _ => exact channelStep_of_same (by simp) (by simp) (by simp)
  | post r _ _ => exact channelStep_complete ..
  | illegal _ _ _ => exact channelStep_complete ..
  | exchange _ hm => exact hm.channel

theorem runRequest_channel {r : Request} (hc : s.cur = p) (h : runRequest p r s = .next s') : ChannelStep p s s' := by
  rcases runRequest_cases h with ⟨i, -, he⟩ | ⟨e, -, -, rfl⟩
  · exact (exec_move he).channel hc
  · exact channelStep_complete ..

/-- A step of port `p`'s sequencer touches the channel and DIAG in its phases FLUSH, TX and RX alone. -/
theorem portStep_channel (hc : s.cur = p) (h : portStep p s = .next s') : ChannelStep p s s' := by
  rcases portStep_cases h with ⟨-, r, -, hr⟩ | ⟨-, r, -, hr⟩ | ⟨-, -, rfl⟩
  · exact runRequest_channel hc hr
  · obtain ⟨ht, hrx, hd⟩ := runRequest_channel (by simpa [acceptRequest] using hc) hr
    rw [acceptRequest_port] at ht hrx hd
    exact ⟨by simpa [acceptRequest] using ht, by simpa [acceptRequest] using hrx, by simpa [acceptRequest] using hd⟩
  · exact channelStep_of_same rfl rfl rfl

end

/-- Over a step of the machine: the sequencer of `p` in the terms of the state before the choice. -/
theorem channelStep_of_moving {p : Port} {b : Bool} {s s' : State} (h : portStep p (moving p b s) = .next s') :
    ChannelStep p s s' := by
  obtain ⟨ht, hr, hd⟩ := portStep_channel rfl h
  simp only [moving_port, moving_fields] at ht hr hd
  exact ⟨ht, hr, hd⟩

/-- Settles O51: a port in a phase that touches the channel owns the lock. -/
theorem channelIsTouchedOnlyByTheLockOwner : Obligations.ChannelIsTouchedOnlyByTheLockOwner := by
  intro s s' hs h
  obtain ⟨-, -, -, -, hrx, htx, -⟩ := afterChoice_fields s
  have howner : ∀ p ph, (s.port p).phase = ph → ph.onChannel = true → s.lockOwner = some p := fun p ph hp hc =>
    ((hs.2 p).1 (hp ▸ hc)).1
  cases step_move h with
  | port p b he hp =>
    obtain ⟨ht, hr, -⟩ := channelStep_of_moving hp
    refine ⟨fun hne => ?_, fun hne => ?_⟩
    · obtain ⟨hph, ht⟩ := ht.resolve_left hne
      exact .inr ⟨p, b, he, howner p _ hph rfl, hph, ht⟩
    · rcases hr.resolve_left hne with ⟨hph, hr⟩ | ⟨hph, hr⟩
      · exact .inr ⟨p, b, he, howner p _ hph rfl, .inl ⟨hph, hr⟩⟩
      · exact .inr ⟨p, b, he, howner p _ hph rfl, .inr ⟨hph, hr⟩⟩
  | grant p _ =>
    rcases grantLock_cases p (afterChoice s) with ⟨-, -, h⟩ | h <;> rw [h] <;>
      exact ⟨fun hne => absurd htx hne, fun hne => absurd hrx hne⟩
  | device b he =>
    exact ⟨fun hne => absurd htx hne, fun _ => .inl ⟨b, he, congrArg (· ++ [b]) hrx⟩⟩
  | present p r _ => exact ⟨fun hne => absurd (by simp) hne, fun hne => absurd (by simp) hne⟩
  | setRunning b _ => exact ⟨fun hne => absurd htx hne, fun hne => absurd hrx hne⟩
  | setConfig w c _ _ _ _ => exact ⟨fun hne => absurd htx hne, fun hne => absurd hrx hne⟩
  | reset he => exact ⟨fun _ => .inl ⟨he, rfl⟩, fun hne => absurd hrx hne⟩

/-- Settles O59: only a sequencer's flush and its decoder append to DIAG. -/
theorem diagOnlyGrowsByTheTwoKinds : Obligations.DiagOnlyGrowsByTheTwoKinds := by
  intro s s' h
  obtain ⟨-, -, -, hd, -, -, -⟩ := afterChoice_fields s
  cases step_move h with
  | port p b he hp =>
    rcases (channelStep_of_moving hp).diag with hsame | ⟨e, hdiag, hport, hkind⟩
    · exact .inl hsame
    · exact .inr (.inr ⟨p, b, e, he, hdiag, hport, hkind⟩)
  | grant p _ => rcases grantLock_cases p (afterChoice s) with ⟨-, -, h⟩ | h <;> rw [h] <;> exact .inl hd
  | device b _ => exact .inl hd
  | present p r _ => exact .inl (by simp)
  | setRunning b _ => exact .inl hd
  | setConfig w c _ _ _ _ => exact .inl hd
  | reset he => exact .inr (.inl ⟨he, rfl⟩)

/-! ### The accumulator -/

section
variable {i : Instr} {k : ExchangeKind} {c : Byte} {d : List Byte} {p : Port} {s s' : State}

theorem complete_crc (r : Response) : ((complete p r s).port p).crc = (s.port p).crc := by rw [complete_port]

/-- An exchange leaves its port's accumulator alone. -/
theorem ExchangeMove.crc (h : ExchangeMove k c d p s s') : (s'.port p).crc = (s.port p).crc := by
  have taken : ∀ {x' : PortState} {o : Option DecodeOutcome},
      decoderTake (s.port p).got { s.port p with got := [] } = (x', o) → x'.crc = (s.port p).crc := fun ht => by
    obtain ⟨honly, -, -⟩ := decoderTake_only (s.port p).got { s.port p with got := [] }
    rw [ht] at honly
    exact honly.crc
  have hbegun : ∀ x, (begun c d x).crc = x.crc := fun x => (begun_fields c d x).2.2.1
  cases h with
  | start _ _ => rw [State.port_upd, hbegun]
  | startCounted _ _ _ _ => rw [State.port_upd, hbegun]; rfl
  | noAttempt _ _ => rw [complete_crc, State.port_upd]; rfl
  | cancel _ _ _ => exact complete_crc _
  | read x' _ ht => rw [State.port_setPort, taken ht]
  | answer x' o n r _ ht => rw [State.port_setPort, taken ht]
  | retry x' o _ ht _ =>
    rw [releaseLock_port, State.port_setPort, hbegun, ← taken ht]
    rfl
  | exhaust x' o r _ ht =>
    rw [complete_crc, State.port_setPort, ← taken ht]
    rfl
  | post r _ => exact complete_crc _
  | _ => simp

/-- The CRC operations are the only lock-free instructions that write the accumulator (spec/10_state.md R34). -/
theorem lockFreeRun_crc (i : Instr) (x : PortState) : (lockFreeRun i x).crc = x.crc ∨
    i = .crcInit ∨ (∃ v, i = .crcByte v) ∨ ∃ d, i = .crc16 d := by
  cases i
  case crcInit => exact .inr (.inl rfl)
  case crcByte b => exact .inr (.inr (.inl ⟨b, rfl⟩))
  case crc16 d => exact .inr (.inr (.inr ⟨d, rfl⟩))
  case encode c d =>
    refine .inl ?_
    simp only [lockFreeRun]
    split_ifs <;> rfl
  case parse d => exact .inl (parseRun_only d x).1.crc
  all_goals exact .inl rfl

theorem InstrMove.crc (h : InstrMove i s s') (hc : s.cur = p) : (s'.port p).crc = (s.port p).crc ∨
    ((s.port p).phase = .run ∧ (i = .crcInit ∨ (∃ v, i = .crcByte v) ∨ ∃ d, i = .crc16 d)) := by
  subst hc
  cases h with
  | enter _ _ => exact .inl (by simp)
  | run _ hp =>
    rw [State.port_upd]
    exact (lockFreeRun_crc i (s.port s.cur)).imp_right fun hi => ⟨hp, hi⟩
  | post r _ _ => exact .inl (complete_crc _)
  | illegal _ _ _ => exact .inl (complete_crc _)
  | exchange _ hm => exact .inl hm.crc

end

/-- Settles O54: in RUN of a busy port, the latched instruction is one of the three. -/
theorem crcIsWrittenOnlyByCrcOperations : Obligations.CrcIsWrittenOnlyByCrcOperations := by
  intro s s' p hs h hne
  rcases (step_move h).port_cases p with ⟨b, he, hp⟩ | ⟨r, hq⟩ | ⟨he, -⟩ | hq
  · rcases (sequencerInv_moving p b hs).portStep_cases (p := p) rfl hp with
      ⟨r, i, -, hl, hi, -, hm⟩ | ⟨r, i, -, hidle, -, hcur, hm⟩ | ⟨r, -, -, rfl⟩ | rfl
    · rw [moving_port] at hl
      rcases hm.crc (p := p) rfl with hsame | ⟨hrun, hk⟩
      · rw [moving_port] at hsame
        exact absurd hsame hne
      · rw [moving_port] at hrun
        refine .inr ⟨b, r, he, hl, hrun, ?_⟩
        rcases hk with rfl | ⟨v, rfl⟩ | ⟨d, rfl⟩
        · exact .inl hi
        · exact .inr (.inl ⟨v, hi⟩)
        · exact .inr (.inr ⟨d, hi⟩)
    · rcases hm.crc hcur with hsame | ⟨hrun, -⟩
      · exact absurd (by simpa using hsame) hne
      · rw [acceptRequest_port, hidle] at hrun
        cases hrun
    · exact absurd ((complete_crc _).trans (by simp)) hne
    · exact absurd (by simp) hne
  · exact absurd (by rw [hq]) hne
  · exact .inl he
  · exact absurd (by rw [hq]) hne

/-! ### The counter of attempts -/

section
variable {i : Instr} {k : ExchangeKind} {c : Byte} {d : List Byte} {p : Port} {s s' : State}

/-- An XCHG_ACK that goes on in an exchange has attempts left: it starts at 0, and goes round only below the bound
(spec/44_serializer.md R205). -/
theorem ExchangeMove.attempts (h : ExchangeMove .untilAck c d p s s') (hm : 0 < s.config.maxAckAttempts)
    (ha : (s.port p).phase.inExchange = true → (s.port p).attempts < s.config.maxAckAttempts)
    (hx : (s'.port p).phase.inExchange = true) : (s'.port p).attempts < s.config.maxAckAttempts := by
  have hidle : ∀ {r t}, ((complete p r t).port p).phase.inExchange ≠ true := by
    intro r t
    rw [complete_port]
    nofun
  have hin : ∀ ph, (s.port p).phase = ph → ph.inExchange = true → (s.port p).attempts < s.config.maxAckAttempts :=
    fun ph hp he => ha (hp ▸ he)
  have taken : ∀ {x' : PortState} {o : Option DecodeOutcome}, (s.port p).phase = .rx →
      decoderTake (s.port p).got { s.port p with got := [] } = (x', o) → x'.attempts < s.config.maxAckAttempts := by
    intro x' o hp ht
    obtain ⟨honly, -, -⟩ := decoderTake_only (s.port p).got { s.port p with got := [] }
    rw [ht] at honly
    rw [honly.attempts]
    exact hin _ hp rfl
  have hbegun : ∀ x, (begun c d x).attempts = x.attempts := fun x => (begun_fields c d x).2.2.2
  cases h with
  | start _ hd =>
    rw [State.port_upd, begun_of_gt c _ (hd.resolve_left (not_not_intro rfl))] at hx
    cases hx
  | startCounted _ _ _ _ =>
    rw [State.port_upd, hbegun]
    exact hm
  | noAttempt _ _ => exact absurd hx hidle
  | wait hp => exact hin _ hp rfl
  | cancel _ _ _ => exact absurd hx hidle
  | sampleOne hp _ _ => simpa using hin _ hp rfl
  | skip hp _ => simpa using hin _ hp rfl
  | drain hp _ => simpa using hin _ hp rfl
  | send hp => simpa using hin _ hp rfl
  | take b rest hp _ _ => simpa using hin _ hp rfl
  | silent hp => exact hin _ hp rfl
  | read x' hp ht =>
    rw [State.port_setPort]
    exact taken hp ht
  | answer x' o n r _ _ =>
    rw [State.port_setPort] at hx
    cases hx
  | retry x' o hp ht hne =>
    rw [releaseLock_port, State.port_setPort, hbegun]
    exact Nat.lt_of_le_of_ne (taken hp ht) hne
  | exhaust x' o r _ _ => exact absurd hx hidle
  | post r _ => exact absurd hx hidle

theorem lockFreeInstr_of_exchangeOperands (ho : exchangeOperands i = some (k, c, d)) : lockFreeInstr i = false := by
  rcases instr_kinds i with ⟨-, h⟩ | ⟨h, -⟩ | ⟨h, -⟩
  · rw [h] at ho
    cases ho
  · exact h
  · exact h

theorem InstrMove.attempts (h : InstrMove i s s') (hc : s.cur = p) (ho : exchangeOperands i = some (.untilAck, c, d))
    (hm : 0 < s.config.maxAckAttempts)
    (ha : (s.port p).phase.inExchange = true → (s.port p).attempts < s.config.maxAckAttempts)
    (hx : (s'.port p).phase.inExchange = true) : (s'.port p).attempts < s.config.maxAckAttempts := by
  subst hc
  have hl := lockFreeInstr_of_exchangeOperands ho
  cases h with
  | enter hf _ => simp [hl] at hf
  | run hf _ => simp [hl] at hf
  | post _ hf _ => simp [hl] at hf
  | illegal _ _ hi =>
    subst hi
    cases ho
  | exchange ho' hmove =>
    obtain ⟨rfl, rfl, rfl⟩ : _ ∧ _ ∧ _ := by simpa using ho.symm.trans ho'
    exact hmove.attempts hm ha hx

end

/-- If port registers `x` have an XCHG_ACK latched that is performing an exchange, it has made fewer than `m` attempts. -/
def AttemptsOk (m : Nat) (x : PortState) : Prop :=
  ∀ r i c d, x.latch = some r → decode r = .ok i → exchangeOperands i = some (.untilAck, c, d) →
    x.phase.inExchange = true → x.attempts < m

theorem attemptsInv_iff (s : State) : AttemptsInv s ↔ ∀ p, AttemptsOk s.config.maxAckAttempts (s.port p) := Iff.rfl

theorem attemptsOk_of_unlatched {m : Nat} {x : PortState} (h : x.latch = none) : AttemptsOk m x := by
  intro r i c d hl
  rw [h] at hl
  cases hl

/-- Over a move of the instruction that stays latched, if the port does not complete. -/
theorem InstrMove.attemptsOk {i : Instr} {p : Port} {r : Request} {s s' : State} (h : InstrMove i s s') (hc : s.cur = p)
    (hl : (s.port p).latch = some r) (hi : decode r = .ok i) (hlock : PortLocked s p) (hm : 0 < s.config.maxAckAttempts)
    (ha : AttemptsOk s.config.maxAckAttempts (s.port p)) : AttemptsOk s.config.maxAckAttempts (s'.port p) := by
  rcases h.control hc hlock with hd | hg
  · exact attemptsOk_of_unlatched hd.latch
  · intro r' i' c d hl' hi' ho hx
    obtain rfl : r = r' := Option.some.inj (hl.symm.trans (hg.latch.symm.trans hl'))
    obtain rfl : i = i' := Except.ok.inj (hi.symm.trans hi')
    exact h.attempts hc ho hm (ha r i c d hl hi ho) hx

theorem portStep_attemptsOk {p : Port} {s s' : State} (hs : SequencerInv s) (hc : s.cur = p)
    (hm : 0 < s.config.maxAckAttempts) (ha : AttemptsOk s.config.maxAckAttempts (s.port p))
    (h : portStep p s = .next s') : AttemptsOk s.config.maxAckAttempts (s'.port p) := by
  rcases hs.portStep_cases hc h with ⟨r, i, -, hl, hi, -, hmove⟩ | ⟨r, i, hb, hidle, hi, hcur, hmove⟩ | ⟨r, -, -, rfl⟩ | rfl
  · exact hmove.attemptsOk hc hl hi (hs.2 p) hm ha
  · have hcfg : (acceptRequest p r s).config = s.config := by simp [acceptRequest]
    rw [← hcfg] at hm ⊢
    refine hmove.attemptsOk hcur (by simp) hi (acceptRequest_locked r hs hb) hm fun r' i' c d _ _ _ hx => ?_
    rw [acceptRequest_port, hidle] at hx
    cases hx
  · exact attemptsOk_of_unlatched (by simp [completeIllegal])
  · exact ha

/-- Settles O48: CONFIG is written only while both ports have nothing latched. -/
theorem stepKeepsAttemptsBelowBound : Obligations.StepKeepsAttemptsBelowBound := by
  intro s s' hs hcfg ha h
  rw [attemptsInv_iff] at ha ⊢
  obtain ⟨-, -, hc, -⟩ := afterChoice_fields s
  intro q
  cases step_move h with
  | port p b _ hp =>
    have hmov : (moving p b s).config = s.config := (moving_fields p b s).2.2.2.2.1
    have hown : OwnStep p (moving p b s) s' := portStep_own rfl hp
    rw [hown.config, hmov]
    by_cases hq : q = p
    · subst hq
      have := portStep_attemptsOk (p := q) (sequencerInv_moving q b hs) rfl (hmov ▸ hcfg.2.2.1)
        (by rw [hmov, moving_port]; exact ha q) hp
      rwa [hmov] at this
    · rw [hown.other q hq, moving_port]
      exact ha q
  | grant p _ =>
    have hg : (grantLock p (afterChoice s)).config = s.config := by
      rcases grantLock_cases p (afterChoice s) with ⟨-, -, h⟩ | h <;> rw [h] <;> exact hc
    rw [hg, grantLock_port, afterChoice_port]
    exact ha q
  | device b _ => simpa [deviceSend] using ha q
  | present p r _ =>
    rw [State.upd_config, hc]
    by_cases hq : q = p
    · subst hq
      rw [State.port_upd, afterChoice_port]
      exact ha q
    · rw [State.port_upd_ne _ _ hq, afterChoice_port]
      exact ha q
  | setRunning b _ => simpa using ha q
  | setConfig w c _ hpoll hcmd _ =>
    have hfree : (s.port q).busy = false := by
      cases q
      · exact hpoll
      · exact hcmd
    refine attemptsOk_of_unlatched ?_
    rw [State.port_config, afterChoice_port]
    exact ((hs.1 q).1 hfree).2
  | reset _ => exact attemptsOk_of_unlatched (by rw [hostReset_port]; rfl)

/-! ### Admission -/

/-- A step of an instruction from DONE completes. -/
theorem InstrMove.idle_of_done {i : Instr} {p : Port} {s s' : State} {r : Response} (h : InstrMove i s s')
    (hc : s.cur = p) (hp : (s.port p).phase = .done r) : (s'.port p).phase = .idle := by
  subst hc
  cases h with
  | enter _ h => simp [hp] at h
  | run _ h => simp [hp] at h
  | post _ _ _ => simp
  | illegal _ _ _ => simp [completeIllegal]
  | exchange _ hm =>
    cases hm with
    | post _ _ => simp
    | _ => simp_all

theorem portStep_idle_of_done {p : Port} {s s' : State} {r : Response} (hs : SequencerInv s) (hc : s.cur = p)
    (hp : (s.port p).phase = .done r) (h : portStep p s = .next s') : (s'.port p).phase = .idle := by
  rcases Machine.portStep_cases h with ⟨_, r', hl, hr⟩ | ⟨hb, -⟩ | ⟨hb, -⟩
  · rcases runRequest_cases hr with ⟨i, -, he⟩ | ⟨_, _, _, rfl⟩
    · exact (exec_move he).idle_of_done hc hp
    · simp [completeIllegal]
  · rw [(hs.free hb).1] at hp
    cases hp
  · rw [(hs.free hb).1] at hp
    cases hp

/-- The owner of the lock, granted it with RUNNING 1, is past its sample point unless its outcome is known. -/
theorem SequencerInv.admitted_or_done {s : State} {p : Port} (hs : SequencerInv s) (ho : s.lockOwner = some p)
    (hsa : s.sampled = true) : Admitted s p ∨ ∃ r, (s.port p).phase = .done r := by
  have hm := ((hs.2 p).2 ho).1
  cases hp : (s.port p).phase <;> rw [hp] at hm
  case done r => exact .inr ⟨r, rfl⟩
  case waitGrant => exact .inl ⟨ho, hsa, .inl hp⟩
  case idle => cases hm
  case run => cases hm
  all_goals exact .inl ⟨ho, hsa, .inr (by rw [hp]; rfl)⟩

/-- While RUNNING is 0, a step makes no exchange one that is past its sample point with 1. -/
theorem StepMove.admitted {s s' : State} {p : Port} (h : StepMove s s') (hs : SequencerInv s) (hr : s.running = false)
    (ha : Admitted s' p) : Admitted s p := by
  obtain ⟨hl, hrun, -, -, -, -, hsa⟩ := afterChoice_fields s
  have same : ∀ t : State, t.lockOwner = s.lockOwner → t.sampled = s.sampled → (t.port p).phase = (s.port p).phase →
      Admitted t p → Admitted s p := fun t h1 h2 h3 ht => by
    rwa [Admitted, h1, h2, h3] at ht
  cases h with
  | port q b _ hp =>
    have hown : OwnStep q (moving q b s) s' := portStep_own rfl hp
    obtain ⟨ho', hsa', hph⟩ := ha
    have ho : s.lockOwner = some p := by
      rcases hown.lock with h | ⟨-, h⟩
      · rw [h] at ho'
        simpa using ho'
      · rw [h] at ho'
        cases ho'
    have hsam : s.sampled = true := by
      rw [hown.sampled] at hsa'
      simpa using hsa'
    rcases hs.admitted_or_done ho hsam with hadm | ⟨r, hd⟩
    · exact hadm
    · by_cases hq : p = q
      · subst hq
        have hidle := portStep_idle_of_done (p := p) (sequencerInv_moving p b hs) rfl (by simpa using hd) hp
        rw [hidle] at hph
        exact absurd hph (by simp [Phase.onChannel])
      · rw [hown.other p hq, moving_port, hd] at hph
        exact absurd hph (by simp [Phase.onChannel])
  | grant q _ =>
    rcases grantLock_cases q (afterChoice s) with ⟨-, -, h⟩ | h <;> rw [h] at ha
    · obtain ⟨-, hsa', -⟩ := ha
      simp [hr] at hsa'
    · exact same _ hl hsa (by simp) ha
  | device b _ => exact same _ hl hsa (by simp) ha
  | present q r _ =>
    refine same _ (by simp) (by simp) ?_ ha
    by_cases hq : p = q
    · subst hq
      simp
    · simp [State.port_upd_ne _ _ hq]
  | setRunning b _ => exact same _ hl hsa (by simp) ha
  | setConfig w c _ _ _ _ => exact same _ hl hsa (by simp) ha
  | reset _ => exact absurd ha.1 nofun

/-- Settles O50: a port on the channel owns the lock with a sample of 1, and the lock has one owner. -/
theorem noExchangeEntersChannelWhileNotRunning : Obligations.NoExchangeEntersChannelWhileNotRunning := by
  intro s s' p hs hr h
  have hkeep : Admitted s' p → Admitted s p := (step_move h).admitted hs hr
  refine ⟨hkeep, fun hc => ?_, fun q hp hq => Option.some.inj (hp.1.symm.trans hq.1)⟩
  obtain ⟨ho, hsa⟩ := ((stepKeepsSequencersAndLock s s' hs h).2 p).1 hc
  exact hkeep ⟨ho, hsa, .inr hc⟩

end Sys2Proof.Machine
end

section
/-! What the CRC tells (spec/41_crc.md R139): the step of a byte is linear and loses nothing, so the residue is 0 for one trailer
only, and a change of one byte is never lost. -/

namespace Sys2Proof.Machine

/-- Settles O10: the table's entry is eight shifts of its index. -/
theorem crcTableIsBitSerial : Obligations.CrcTableIsBitSerial := by
  intro i
  rw [crcBitStep_eq_iterate, romRead_eq_crcShift_iterate]
  exact congrArg _ BitVec.zero_xor.symm

/-! ### The shifts lose nothing -/

/-- The bit that a shift takes out comes back as the polynomial's highest. -/
theorem getLsbD_crcShift_top (c : Half) : (crcShift c).getLsbD 15 = c.getLsbD 0 := by
  rw [crcShift_eq_xor, BitVec.getLsbD_xor, BitVec.getLsbD_ushiftRight, BitVec.getLsbD_of_ge c (1 + 15) (Nat.le_refl _)]
  cases c.getLsbD 0 <;> rfl

theorem eq_zero_of_crcShift_eq_zero {c : Half} (h : crcShift c = 0) : c = 0 := by
  have hlsb : c.getLsbD 0 = false := by rw [← getLsbD_crcShift_top, h]; rfl
  rw [crcShift_of_lsb_clear hlsb] at h
  refine BitVec.eq_of_getLsbD_eq fun i _ => ?_
  cases i with
  | zero => exact hlsb
  | succ i =>
    rw [Nat.add_comm, ← BitVec.getLsbD_ushiftRight, h]
    exact BitVec.getLsbD_zero.trans BitVec.getLsbD_zero.symm

theorem crcShift_injective : Function.Injective crcShift := by
  intro a b h
  have h0 : crcShift (a ^^^ b) = 0 := by rw [crcShift_xor, h, BitVec.xor_self]; rfl
  exact BitVec.xor_eq_zero_iff.mp (eq_zero_of_crcShift_eq_zero h0)

theorem crcStep_eq_iterate (c : Half) (b : Byte) : crcStep c b = crcShift^[8] (c ^^^ b.setWidth 16) :=
  (crcStep_eq_crcBitStep c b).trans (crcBitStep_eq_iterate c b)

/-- For one byte, different registers give different registers. -/
theorem crcStep_left_injective (b : Byte) : Function.Injective (crcStep · b) := by
  intro c c' h
  simp only [crcStep_eq_iterate] at h
  exact (BitVec.xor_left_inj _).mp (crcShift_injective.iterate 8 h)

theorem setWidth_injective : Function.Injective (fun b : Byte => b.setWidth 16) := by
  intro b b' h
  have := congrArg BitVec.toNat h
  simp only [BitVec.toNat_setWidth] at this
  refine BitVec.eq_of_toNat_eq ?_
  have := b.isLt
  have := b'.isLt
  omega

/-- From one register, different bytes give different registers. -/
theorem crcStep_right_injective (c : Half) : Function.Injective (crcStep c) := by
  intro b b' h
  rw [crcStep_eq_iterate, crcStep_eq_iterate] at h
  exact setWidth_injective ((BitVec.xor_right_inj _).mp (crcShift_injective.iterate 8 h))

theorem crcFrom_injective (m : List Byte) : Function.Injective (crcFrom · m) := by
  induction m with
  | nil => exact fun _ _ h => h
  | cons b m ih => exact fun c c' h => crcStep_left_injective b (ih h)

/-! ### The residue -/

/-- The register's own bytes are the only two that bring it to 0. -/
theorem crcFrom_two_eq_zero_iff (v : Half) (lo hi : Byte) : crcFrom v [lo, hi] = 0 ↔ halfOf lo hi = v := by
  have htrailer : crcFrom (halfOf lo hi) [lo, hi] = 0 := by
    simpa using crcFrom_trailer (halfOf lo hi)
  constructor
  · intro h
    exact crcFrom_injective [lo, hi] (htrailer.trans h.symm)
  · intro h
    rw [← h, htrailer]

/-- Settles O12: the two bytes are folded into the message's CRC. -/
theorem crcResidueIsZeroIffTrailerMatches : Obligations.CrcResidueIsZeroIffTrailerMatches := by
  intro m lo hi
  rw [crc16_append, crcFrom_two_eq_zero_iff]

/-! ### Linearity -/

theorem crcStep_xor (c c' : Half) (b b' : Byte) : crcStep (c ^^^ c') (b ^^^ b') = crcStep c b ^^^ crcStep c' b' := by
  rw [crcStep_eq_iterate, crcStep_eq_iterate, crcStep_eq_iterate, ← crcShift_iterate_xor, BitVec.setWidth_xor]
  congr 1
  ac_rfl

theorem crcFrom_xor (c c' : Half) (a b : List Byte) (h : a.length = b.length) :
    crcFrom (c ^^^ c') (List.zipWith (· ^^^ ·) a b) = crcFrom c a ^^^ crcFrom c' b := by
  induction a generalizing c c' b with
  | nil =>
    obtain rfl : b = [] := List.length_eq_zero_iff.mp h.symm
    rfl
  | cons x a ih =>
    cases b with
    | nil => cases h
    | cons y b =>
      rw [List.zipWith_cons_cons, crcFrom, crcStep_xor]
      exact ih _ _ b (Nat.succ.inj h)

/-- Settles O13: the two messages start from 0, whose exclusive or is 0. -/
theorem crcIsLinear : Obligations.CrcIsLinear :=
  fun a b h => crcFrom_xor 0 0 a b h

/-! ### A change of one byte -/

/-- Settles O14: the registers differ after the changed byte, and the bytes after it keep them apart. -/
theorem crcDetectsSingleByteChange : Obligations.CrcDetectsSingleByteChange := by
  intro m k b hk hb heq
  have hm : m = m.take k ++ m[k] :: m.drop (k + 1) := by
    rw [List.getElem_cons_drop, List.take_append_drop]
  rw [List.set_eq_take_append_cons_drop, if_pos hk, crc16_append] at heq
  conv at heq => rhs; rw [hm, crc16_append]
  exact hb (crcStep_right_injective _ (crcFrom_injective _ heq))

/-- CRC16's fold is the bit-serial one (spec/41_crc.md R131, R135). -/
theorem crcFrom_eq_foldl (c : Half) (m : List Byte) : crcFrom c m = m.foldl crcBitStep c := by
  induction m generalizing c with
  | nil => rfl
  | cons b m ih => rw [crcFrom, ih, crcStep_eq_crcBitStep, List.foldl_cons]

end Sys2Proof.Machine
end

section
/-! The lock-free instructions from acceptance to response (spec/44_serializer.md R191, R192), and what each posts. -/

namespace Sys2Proof.Machine

/-! ### One step, and three -/

/-- The run does not look at PHASE, which it sets. -/
theorem lockFreeRun_phase {i : Instr} (h : lockFreeInstr i = true) (x : PortState) (ph : Phase) :
    lockFreeRun i { x with phase := ph } = lockFreeRun i x := by
  cases i <;> simp only [lockFreeInstr, reduceCtorEq] at h
  case parse d => simp only [lockFreeRun, parseRun_phase]
  all_goals rfl

section
variable {i : Instr} {s : State}

theorem exec_of_run (h : lockFreeInstr i = true) (hp : (s.port s.cur).phase = .run) :
    exec i s = .next (s.upd s.cur (lockFreeRun i)) := by
  rw [exec_lockFree_eq h, lockFree_of_run hp]

/-- Three steps from acceptance: the run's registers, with the response that it decided posted. -/
theorem execTimes_lockFreeRun (h : lockFreeInstr i = true) (hidle : (s.port s.cur).phase = .idle)
    (hlock : s.lockOwner ≠ some s.cur) {r : Response} (hr : (lockFreeRun i (s.port s.cur)).phase = .done r) :
    execTimes i 3 s = .next (s.setPort s.cur (posted r (lockFreeRun i (s.port s.cur)))) := by
  refine execTimes_lockFree (exec_lockFree_eq h) hidle hlock ?_
  rw [finish_eq, State.setPhase_eq, State.upd_upd, State.upd, State.upd, lockFreeRun_phase h, State.port_setPort,
    State.setPort_setPort, ← hr]

end

/-- Settles O18: a lock-free operation starts with `PHASE <- RUN`. -/
theorem lockFreeInstructionStartsInRun : Obligations.LockFreeInstructionStartsInRun := by
  intro i s h hp
  rw [exec_lockFree_eq h, lockFree_of_idle hp]
  rfl

/-! ### The CRC engine and the encoder -/

/-- Settles O15: the run clears the accumulator and decides the answer 0. -/
theorem crcInitClearsTheAccumulator : Obligations.CrcInitClearsTheAccumulator :=
  fun _ => ⟨fun hp => exec_of_run rfl hp, fun hidle hlock => execTimes_lockFreeRun rfl hidle hlock rfl⟩

/-- Settles O16: the table's step is the bit-serial step. -/
theorem crcByteFoldsOneByte : Obligations.CrcByteFoldsOneByte := by
  intro s b
  simp only [← crcStep_eq_crcBitStep]
  exact ⟨fun hp => exec_of_run rfl hp, fun hidle hlock => execTimes_lockFreeRun rfl hidle hlock rfl⟩

/-- Settles O17: the table's fold is the bit-serial fold. -/
theorem crc16ChecksumsItsData : Obligations.Crc16ChecksumsItsData := by
  intro s d
  simp only [← crcFrom_eq_foldl]
  exact ⟨fun hp => exec_of_run rfl hp, fun hidle hlock => execTimes_lockFreeRun rfl hidle hlock rfl⟩

theorem lockFreeRun_encode_of_le (c : Byte) {d : List Byte} (hd : d.length ≤ 250) (x : PortState) :
    lockFreeRun (.encode c d) x =
      { x with
        txbuf := wholeFrame c d, txlen := BitVec.ofNat 8 (5 + d.length)
        phase := .done { code := .ok, value := crc16 (frameBody c d), data := wholeFrame c d } } := if_pos hd

theorem lockFreeRun_encode_of_gt (c : Byte) {d : List Byte} (hd : ¬ d.length ≤ 250) (x : PortState) :
    lockFreeRun (.encode c d) x = { x with phase := .done (encErrResponse d.length) } := if_neg hd

/-- Settles O19: the frame, written out byte by byte, is the whole frame. -/
theorem encodeBuildsTheFrame : Obligations.EncodeBuildsTheFrame := by
  intro s c d hd
  refine ⟨fun hp => ?_, fun hidle hlock => ?_⟩
  · rw [exec_of_run rfl hp, State.upd, lockFreeRun_encode_of_le c hd]
    rfl
  · have hx := lockFreeRun_encode_of_le c hd (s.port s.cur)
    rw [execTimes_lockFreeRun rfl hidle hlock (by rw [hx]), hx]
    rfl

/-! ### PARSE -/

theorem DecoderOnly.eq_with {x x' : PortState} {d : List Byte} (h : DecoderOnly x x') (hin : x'.parseIn = d)
    (hs : x'.dstate = .idle) :
    x' = { x with
      parseIn := d, parsePos := x'.parsePos, dstate := .idle, dlen := x'.dlen, dcmd := x'.dcmd, ddata := x'.ddata
      dcrc := x'.dcrc } := by
  rw [← hin, ← hs, ← h.req, ← h.latch, ← h.busy, ← h.rsp, ← h.crc, ← h.phase, ← h.txbuf, ← h.txlen, ← h.attempts, ← h.got,
    ← h.flushed, ← h.last]

/-- Settles O23: PARSE writes its own registers and the decoder's. -/
theorem parseCompletesOnAnyData : Obligations.ParseCompletesOnAnyData := by
  intro s d
  obtain ⟨honly, hin⟩ := parseRun_only d (s.port s.cur)
  refine ⟨hin, parseRun_pos d _, parseRun_idle d _, ?_, fun hp => exec_of_run rfl hp,
    fun hidle hlock => ⟨_, execTimes_lockFreeRun rfl hidle hlock rfl, rfl⟩⟩
  exact honly.eq_with hin (parseRun_idle d _)

/-- The first read of a PARSE, when it ends the decode. -/
theorem parseRun_first {b : Byte} (rest : List Byte) (x : PortState) (hb : b ≠ 0xFC) :
    parseRun (b :: rest) x =
      ({ x with parseIn := b :: rest, parsePos := 1, dstate := .idle }, if b = 0x00 then .noop else .syncErr b) := by
  unfold parseRun
  rw [parseLoop_read (r := [b]) rfl]
  simp only [decoderTake, Config.noop, Config.sync, endDecode]
  split_ifs
  · rfl
  · rfl

/-- The first two reads of a PARSE of a sync byte and a LENGTH below 5. -/
theorem parseRun_lenErr {l : Byte} (rest : List Byte) (x : PortState) (hl : l.toNat < 5) :
    parseRun (0xFC :: l :: rest) x =
      ({ x with parseIn := 0xFC :: l :: rest, parsePos := 2, dstate := .idle, dlen := l }, .lenErr l) := by
  unfold parseRun
  rw [parseLoop_read (r := [0xFC]) rfl]
  show parseLoop 4 { x with parseIn := 0xFC :: l :: rest, parsePos := 1, dstate := .len } = _
  rw [parseLoop_read (r := [l]) rfl]
  simp only [decoderTake, Config.overhead, hl, if_true, endDecode]
  rfl

/-- The first three reads of a PARSE that ends after its LENGTH. -/
theorem parseRun_noCmd {l : Byte} (x : PortState) (hl : 5 ≤ l.toNat) :
    parseRun [0xFC, l] x =
      ({ x with parseIn := [0xFC, l], parsePos := 2, dstate := .idle, dlen := l }, .truncated .cmd 0) := by
  unfold parseRun
  rw [parseLoop_read (r := [0xFC]) rfl]
  show parseLoop 4 { x with parseIn := [0xFC, l], parsePos := 1, dstate := .len } = _
  rw [parseLoop_read (r := [l]) rfl]
  simp only [decoderTake, Config.overhead, Nat.not_lt.mpr hl, if_false]
  rfl

/-- A PARSE that finds part of the payload. -/
theorem parseRun_shortData {l c : Byte} {d : List Byte} (x : PortState) (hl : 5 ≤ l.toNat)
    (hd : d.length < l.toNat - 5) :
    parseRun (0xFC :: l :: c :: d) x =
      ({ x with parseIn := 0xFC :: l :: c :: d, parsePos := 3 + d.length, dstate := .idle, dlen := l, dcmd := c },
        .truncated .data d.length) := by
  rw [parseRun_header d x hl]
  exact parseLoop_data_short 1 rfl hd rfl

/-- A PARSE that finds the payload and part of the trailer. -/
theorem parseRun_shortCrc {l c : Byte} {d k : List Byte} (x : PortState) (hl : 5 ≤ l.toNat)
    (hd : d.length = l.toNat - 5) (hk : k.length < 2) :
    parseRun (0xFC :: l :: c :: (d ++ k)) x =
      ({ x with
          parseIn := 0xFC :: l :: c :: (d ++ k), parsePos := 3 + d.length + k.length, dstate := .idle, dlen := l
          dcmd := c, ddata := d }, .truncated .crc k.length) := by
  rw [parseRun_header (d ++ k) x hl, parseLoop_data (d := d) (t := k) 1 rfl hd rfl]
  exact parseLoop_crc_short rfl hk (by simp [show 3 + d.length = d.length + 1 + 1 + 1 by omega])

/-- What the statement on a PARSE looks at, of a run that is known. -/
theorem parseRun_parts {m : List Byte} {x x' : PortState} {o : DecodeOutcome} (h : parseRun m x = (x', o)) :
    ((parseRun m x).2, (parseRun m x).1.parsePos) = (o, x'.parsePos) ∧
    ((parseRun m x).1.dlen, (parseRun m x).1.dcmd, (parseRun m x).1.ddata, (parseRun m x).1.dcrc) =
      (x'.dlen, x'.dcmd, x'.ddata, x'.dcrc) := by
  rw [h]
  exact ⟨rfl, rfl⟩

/-- Settles O22: each shape of the input, read by read. -/
theorem parseOutcomeIsDecidedByItsBytes : Obligations.ParseOutcomeIsDecidedByItsBytes := by
  intro x b l c d k rest lo hi
  refine ⟨⟨rfl, rfl⟩, parseRun_parts (parseRun_first rest x (by decide)), fun h0 hfc => ?_, ⟨rfl, rfl⟩,
    fun hl => parseRun_parts (parseRun_lenErr rest x hl), fun hl => parseRun_parts (parseRun_noCmd x hl),
    fun hl hd => parseRun_parts (parseRun_shortData x hl hd), fun hl hd hk => parseRun_parts (parseRun_shortCrc x hl hd hk),
    fun hl hd => parseRun_parts (parseRun_frame rest x hl hd)⟩
  have h := parseRun_first rest x hfc
  rw [if_neg h0] at h
  exact parseRun_parts h

/-! ### A corrupted frame -/

/-- A list of `n + 3` bytes is a byte, `n` bytes and two more. -/
theorem exists_parts {n : Nat} {g : List Byte} (h : g.length = n + 3) :
    ∃ c d lo hi, g = c :: (d ++ [lo, hi]) ∧ d.length = n := by
  match g with
  | c :: t =>
    have ht : t.length = n + 2 := Nat.succ.inj h
    have hdrop : (t.drop n).length = 2 := by rw [List.length_drop]; omega
    obtain ⟨lo, hi, hlh⟩ := List.length_eq_two.mp hdrop
    exact ⟨c, t.take n, lo, hi, by rw [← hlh, List.take_append_drop], by rw [List.length_take]; omega⟩

/-- Settles O24: the changed bytes are still read as a frame of that LENGTH, whose residue is no longer 0. -/
theorem corruptedByteGivesCrcError : Obligations.CorruptedByteGivesCrcError := by
  intro x c d f v k b hf hk hlt hb
  obtain ⟨hd, rfl, -⟩ := encodeFrame_eq_some_iff.mp hf
  have hne : crc16 ((wholeFrame c d).set k b) ≠ 0 := by
    rw [← crc16_wholeFrame c d]
    exact crcDetectsSingleByteChange _ k b hlt hb
  obtain ⟨j, rfl⟩ := Nat.exists_eq_add_of_le' hk
  have hset : (wholeFrame c d).set (j + 2) b =
      0xFC :: BitVec.ofNat 8 (5 + d.length) ::
        (c :: (d ++ [loByte (crc16 (frameBody c d)), hiByte (crc16 (frameBody c d))])).set j b := by
    simp [wholeFrame, frameBody]
  obtain ⟨c', d', lo, hi, hg, hd'⟩ := exists_parts (n := d.length)
    (g := (c :: (d ++ [loByte (crc16 (frameBody c d)), hiByte (crc16 (frameBody c d))])).set j b) (by simp)
  have hl := lengthByte_toNat hd
  rw [hset, hg] at hne ⊢
  rw [parseRun_frame [] x (by omega) (by omega), if_neg]
  · exact ⟨_, _, rfl⟩
  · intro hcrc
    refine hne ((crcResidueIsZeroIffTrailerMatches (0xFC :: BitVec.ofNat 8 (5 + d.length) :: c' :: d') lo hi).mpr hcrc.symm)

/-! ### A lock-free instruction sees its own port -/

/-- The registers that a step of lock-free instruction `i` leaves in its port, if it does not own the lock. -/
def lockFreeStep (i : Instr) (x : PortState) : Option PortState :=
  match x.phase with
  | .idle => some { x with phase := .run }
  | .run => some (lockFreeRun i x)
  | .done r => some (posted r x)
  | _ => none

/-- A step of a lock-free instruction is a write of its port's registers, by those registers. -/
theorem exec_eq_lockFreeStep {i : Instr} {s : State} (h : lockFreeInstr i = true) (hl : s.lockOwner ≠ some s.cur) :
    exec i s = (lockFreeStep i (s.port s.cur)).elim (.fault .phaseNotOfOperation)
      (fun y => .next (s.setPort s.cur y)) := by
  rw [exec_lockFree_eq h, lockFree, lockFreeStep]
  cases (s.port s.cur).phase with
  | done r => exact congrArg Host.Outcome.next (complete_of_not_owner r hl)
  | _ => rfl

/-- Settles O60: the step is a function of the port's registers. -/
theorem lockFreeSeesOnlyItsOwnPort : Obligations.LockFreeSeesOnlyItsOwnPort := by
  intro i s t s' h hs ht hst he
  rw [exec_eq_lockFreeStep h hs] at he
  rw [exec_eq_lockFreeStep h ht, ← hst]
  cases hx : lockFreeStep i (s.port s.cur) with
  | none =>
    rw [hx] at he
    cases he
  | some y =>
    rw [hx] at he
    cases he
    rw [State.port_setPort]
    exact ⟨rfl, rfl⟩

end Sys2Proof.Machine
end

section
/-! The phases of an exchange, one step each (spec/44_serializer.md R199 to R205). -/

namespace Sys2Proof.Machine

/-! ### Completion -/

theorem complete_eq (p : Port) (r : Response) (s : State) :
    complete p r s =
      { s with lockOwner := if s.lockOwner = some p then none else s.lockOwner }.upd p (posted r) := by
  cases p <;> rfl

/-- Settles O33: every instruction in DONE completes with the response it carries. -/
theorem completionPostsAndReleases : Obligations.CompletionPostsAndReleases := by
  refine ⟨complete_eq, fun i s r hi hp => ?_⟩
  rcases hi with hl | he
  · rw [exec_lockFree_eq hl, lockFree_of_done hp]
  · obtain ⟨k, c, d, ho⟩ := exchangeInstr_iff.mp he
    exact exec_of_done ho hp

/-- A completion sets PHASE, RSP, BUSY and the latch, whatever they were. -/
theorem complete_upd_congr {p : Port} {r : Response} {f g : PortState → PortState} {s : State}
    (h : posted r (f (s.port p)) = posted r (g (s.port p))) : complete p r (s.upd p f) = complete p r (s.upd p g) := by
  have hc : ∀ f : PortState → PortState,
      complete p r (s.upd p f) = releaseLock p (s.setPort p (posted r (f (s.port p)))) := fun f =>
    congrArg (releaseLock p) (State.upd_upd ..)
  rw [hc, hc, h]

/-! ### The start -/

theorem startOf_of_gt (k : ExchangeKind) (c : Byte) {d : List Byte} (p : Port) (s : State) (hd : ¬ d.length ≤ 250) :
    startOf k c d p s = s.upd p (fun x => { x with phase := .done (encErrResponse d.length) }) := by
  have hb : s.upd p (begun c d) = s.upd p (fun x => { x with phase := .done (encErrResponse d.length) }) :=
    State.upd_congr fun x => begun_of_gt c x hd
  by_cases hk : k = .untilAck
  · subst hk
    exact (ackStart_of_gt c p s hd).trans hb
  · exact (startOf_of_ne_untilAck c d p s hk).trans hb

/-- Settles O25: the start loads the frame; that of XCHG_ACK first zeroes its counter. -/
theorem exchangeStartsByBuildingItsFrame : Obligations.ExchangeStartsByBuildingItsFrame := by
  intro i k c d s ho hd hm hp
  rw [exec_of_idle ho hp, Nat.add_comm d.length 5]
  refine congrArg Host.Outcome.next ?_
  by_cases hk : k = .untilAck
  · subst hk
    rw [startOf, ackStart_of_le c _ hd (Nat.pos_iff_ne_zero.mp hm)]
    exact State.upd_congr fun x => begun_of_le c (uncounted x) hd
  · rw [startOf_of_ne_untilAck c d _ s hk]
    refine State.upd_congr fun x => ?_
    rw [begun_of_le c x hd, if_neg hk, if_neg hk]

/-- Settles O26: ENC_ERR is decided before the lock, and then posted. -/
theorem oversizedPayloadGivesOnlyEncErr : Obligations.OversizedPayloadGivesOnlyEncErr := by
  refine ⟨fun i k c d s ho hd hidle hlock => ?_, fun c d s hd hidle hlock => ?_⟩
  · have hstart : exec i s = .next (s.upd s.cur (fun x => { x with phase := .done (encErrResponse d.length) })) := by
      rw [exec_of_idle ho hidle, startOf_of_gt k c _ s (Nat.not_le.mpr hd)]
    have hpost := exec_of_done (s := s.upd s.cur (fun x => { x with phase := .done (encErrResponse d.length) }))
      (r := encErrResponse d.length) ho (by simp)
    rw [execTimes_succ_of_next hstart, execTimes_succ_of_next hpost, State.upd_cur,
      complete_of_not_owner _ (by simpa using hlock), State.upd_upd]
    rfl
  · have hx := lockFreeRun_encode_of_gt c (Nat.not_le.mpr hd) (s.port s.cur)
    rw [execTimes_lockFreeRun rfl hidle hlock (by rw [hx]), hx]
    rfl

/-! ### The wait and the sample -/

/-- Settles O27: the port looks at the lock's owner alone. -/
theorem waitingPortStaysAsItIs : Obligations.WaitingPortStaysAsItIs := by
  intro i s he hp hl
  obtain ⟨k, c, d, ho⟩ := exchangeInstr_iff.mp he
  rw [exec_of_waitGrant ho hp, if_neg hl]

/-- Settles O28: the sample of 0 completes. -/
theorem sampleOfZeroCancels : Obligations.SampleOfZeroCancels := by
  intro i k c d s ho hp hl hs
  rw [exec_of_waitGrant ho hp, if_pos hl, sampleStep, if_neg (by simp [hs]), complete_eq, if_pos hl]

/-- Settles O29: the sample of 1 goes on. -/
theorem sampleOfOneGoesToFlush : Obligations.SampleOfOneGoesToFlush := by
  intro i s he hp hl hs
  obtain ⟨k, c, d, ho⟩ := exchangeInstr_iff.mp he
  rw [exec_of_waitGrant ho hp, if_pos hl, sampleStep, if_pos hs]

/-! ### The flush, the frame and the read -/

theorem flushes_iff {c : Byte} {s : State} : flushes c s = true ↔ c = 0x11 ∨ s.config.flushAll = true := by
  simp [flushes, Config.statusReq]

/-- Settles O30: the two clauses are whether the exchange flushes. -/
theorem flushDrainsForStatusRequests : Obligations.FlushDrainsForStatusRequests := by
  intro i k c d s ho hp
  refine ⟨fun hf => ?_, fun hc hf => ?_⟩
  · rw [exec_of_flush ho hp, flushStep_of_flushes _ (flushes_iff.mpr hf)]
  · have hn : flushes c s = false := by
      rw [← Bool.not_eq_true, flushes_iff, not_or]
      exact ⟨hc, by simp [hf]⟩
    rw [exec_of_flush ho hp, flushStep_of_not_flushes _ hn]

/-- Settles O31: the frame is as long as TXLEN says. -/
theorem frameIsWrittenWhole : Obligations.FrameIsWrittenWhole := by
  intro i s he hp hlen
  obtain ⟨k, c, d, ho⟩ := exchangeInstr_iff.mp he
  rw [exec_of_tx ho hp, txStep_eq, List.take_of_length_le hlen.le]

/-- Settles O32: a read that lacks bytes does not return. -/
theorem readTakesTheHeadOrWaits : Obligations.ReadTakesTheHeadOrWaits := by
  intro i s he hp hlt
  obtain ⟨k, c, d, ho⟩ := exchangeInstr_iff.mp he
  have hle : ¬ readSize (s.port s.cur) ≤ (s.port s.cur).got.length := Nat.not_le.mpr hlt
  rw [receives_endingOf ho s hp, rxStep, if_neg hle]
  refine ⟨fun b rest hr => ?_, fun hr hd => ?_⟩
  · simp [hr, State.upd]
  · rw [hr, hd]
    rfl

end Sys2Proof.Machine
end

section
/-! Whole receptions (spec/43_decoder.md R161, spec/44_serializer.md R200, R205, R207): what each kind of exchange makes of the
outcome of its decode, and of a whole frame. -/

namespace Sys2Proof.Machine

/-! ### The endings -/

/-- XCHG answers with the outcome and the count flushed (R200). -/
theorem xchgEnding_eq (p : Port) (o : DecodeOutcome) (s : State) :
    xchgEnding p o s = s.upd p (fun x => { x with phase := .done (o.response none (some x.flushed) none) }) := rfl

/-- XCHG_ECHO passes a decode error through and accepts the echo (R207). -/
theorem echoEnding_of_accepted {c : Byte} {d : List Byte} {o : DecodeOutcome} (p : Port) {s : State}
    (h : o.code.isError = true ∨ isEcho c d o s = true) :
    echoEnding c d p o s = s.upd p (fun x => { x with phase := .done (o.response none (some x.flushed) none) }) := by
  rw [echoEnding, if_pos (by simpa using h)]
  rfl

/-- XCHG_ECHO answers ACK_ERR to everything else (R207). -/
theorem echoEnding_of_refused {c : Byte} {d : List Byte} {o : DecodeOutcome} (p : Port) {s : State}
    (h : ¬ (o.code.isError = true ∨ isEcho c d o s = true)) :
    echoEnding c d p o s = s.upd p (fun x => { x with phase := .done (ackErrResponse c o) }) := by
  rw [echoEnding, if_neg (by simpa using h)]
  rfl

theorem isEcho_iff {c : Byte} {d : List Byte} {o : DecodeOutcome} {s : State} :
    isEcho c d o s = true ↔ o = .ok (echoRead s.config.echo c) d := by
  cases o <;> simp [isEcho]

theorem isError_code_iff (o : DecodeOutcome) :
    o.code.isError = true ↔ o.code ∈ [.syncErr, .truncated, .lenErr, .crcErr] := by
  cases o <;> simp [DecodeOutcome.code, ResultCode.isError]

theorem isAck_eq_false {o : DecodeOutcome} (h : ∀ r, o ≠ .ok 0x50 r) : isAck o = false := by
  cases o with
  | ok st r =>
    have hst : st ≠ 0x50 := fun e => h r (by rw [e])
    simpa [isAck, Config.ack] using hst
  | _ => rfl

theorem afterDecode_config (x' : PortState) (o : DecodeOutcome) (s : State) :
    (afterDecode x' o s).config = s.config := State.upd_config ..

theorem afterDecode_port (x' : PortState) (o : DecodeOutcome) (s : State) :
    (afterDecode x' o s).port s.cur = decoded x' (s.port s.cur) := by
  rw [afterDecode, State.port_upd, State.port_shared]

/-- What the giving back of the lock and a write of the port make of the state after a decode. -/
theorem releaseLock_afterDecode (x' : PortState) (o : DecodeOutcome) (s : State) (f : PortState → PortState) :
    releaseLock s.cur ((afterDecode x' o s).upd s.cur f) =
      { s with
          rxfifo := s.rxfifo.drop x'.parsePos, diag := s.diag ++ syncLossOf s.cur o
          lockOwner := if s.lockOwner = some s.cur then none else s.lockOwner }.upd s.cur (fun x => f (decoded x' x)) := by
  rw [afterDecode, State.upd_upd, ← releaseLock_upd]
  rfl

/-! ### The wire against PARSE -/

/-- Settles O42: the reception ends with PARSE's outcome, which the kind's ending takes. -/
theorem wireDecodeAgreesWithParse : Obligations.WireDecodeAgreesWithParse := by
  intro i k c d s x' o ho ha hr hd
  obtain ⟨n, hn⟩ := receive (receives_endingOf ho) ha hr hd
  refine ⟨fun hk => ⟨n, ?_⟩, fun hk => ⟨n, ?_⟩, fun hk r hor => ⟨n, ?_⟩⟩ <;> subst hk <;> rw [hn]
  · rfl
  · refine congrArg Host.Outcome.next ?_
    have hiff : (o.code.isError = true ∨ isEcho c d o (afterDecode x' o s) = true) ↔
        (o.code ∈ [.syncErr, .truncated, .lenErr, .crcErr] ∨ o = .ok (echoRead s.config.echo c) d) := by
      rw [isError_code_iff, isEcho_iff, afterDecode_config]
    by_cases h : o.code ∈ [.syncErr, .truncated, .lenErr, .crcErr] ∨ o = .ok (echoRead s.config.echo c) d
    · simp only [if_pos h]
      exact echoEnding_of_accepted s.cur (hiff.mpr h)
    · simp only [if_neg h]
      exact echoEnding_of_refused s.cur (fun h' => h (hiff.mp h'))
  · subst hor
    exact congrArg Host.Outcome.next (ackEnding_of_ack (o := .ok 0x50 r) c d s.cur _ rfl)

/-- Settles O36: XCHG_ACK begins again. -/
theorem xchgAckRetriesOnEveryOtherOutcome : Obligations.XchgAckRetriesOnEveryOtherOutcome := by
  intro i c d s x' o ho hd ha hr hdraw hack hm
  obtain ⟨n, hn⟩ := receive (receives_endingOf ho) ha hr hdraw
  refine ⟨n, hn.trans (congrArg Host.Outcome.next ?_)⟩
  rw [endingOf, ackEnding_of_retry c d s.cur (isAck_eq_false hack) (by rw [afterDecode_port, afterDecode_config]; exact hm),
    releaseLock_afterDecode, Nat.add_comm d.length 5]
  exact State.upd_congr fun x => begun_of_le c _ hd

/-! ### A silent device -/

theorem decoderTake_nil_of_sync {x : PortState} (h : x.dstate = .sync) :
    decoderTake [] x = ({ x with dstate := .idle }, some .noResponse) := by
  simp [decoderTake, h, endDecode]

theorem decoderTake_of_wrong_byte {x : PortState} {b : Byte} (h : x.dstate = .sync) (h0 : b ≠ 0x00) (hfc : b ≠ 0xFC) :
    decoderTake [b] x = ({ x with dstate := .idle }, some (.syncErr b)) := by
  rw [decoderTake, h]
  simp only [Config.noop, Config.sync, if_neg h0, if_pos hfc, endDecode]

/-- With nothing waiting and a timeout drawn, the first read ends the decode in one step. -/
theorem receive_silent {i : Instr} {e : Port → DecodeOutcome → State → State} (H : Receives i e) {s : State}
    (ha : atReceive (s.port s.cur)) (hrx : s.rxfifo = []) (hd : s.draw = true) :
    execTimes i 1 s = .next (e s.cur .noResponse (s.upd s.cur (fun x => { x with dstate := .idle }))) := by
  obtain ⟨hp, hs, hg⟩ := ha
  have h := read_stage H s [] (s.port s.cur) hp hg (.inl hd)
  have hself : atRead s [] (s.port s.cur) = s := by rw [← hrx]; exact atRead_self s
  have hread : ∀ y, atRead s [] y = s.setPort s.cur y := fun y => by rw [← atRead_setPort s [] (s.port s.cur), hself]
  rw [List.take_nil, List.drop_nil, decoderTake_nil_of_sync hs, hself] at h
  exact h.trans (congrArg (fun t => Host.Outcome.next (e s.cur .noResponse t)) (hread _))

theorem exec_of_execTimes_one {i : Instr} {s t : State} (h : execTimes i 1 s = .next t) : exec i s = .next t := by
  simp only [execTimes] at h
  split at h
  · rename_i he
    rw [he, h]
  · cases h
  · cases h

/-- Settles O40: the outcome is NO_RESPONSE. -/
theorem silentDeviceGivesNoResponse : Obligations.SilentDeviceGivesNoResponse := by
  intro i k c d s ho ha hrx hd
  have h := exec_of_execTimes_one (receive_silent (receives_endingOf ho) ha hrx hd)
  refine ⟨fun hk => ?_, fun hk => ?_⟩ <;> subst hk <;> rw [h] <;> refine congrArg Host.Outcome.next ?_
  · exact (xchgEnding_eq ..).trans (State.upd_upd ..)
  · exact (echoEnding_of_refused s.cur (by simp [DecodeOutcome.code, ResultCode.isError, isEcho])).trans (State.upd_upd ..)

/-- A silent reception leaves what the decode of no bytes leaves. -/
theorem afterDecode_of_silent {s : State} {x' : PortState} {o : DecodeOutcome} (hg : (s.port s.cur).got = [])
    (hrx : s.rxfifo = []) (hr : parseRun s.rxfifo (s.port s.cur) = (x', o)) :
    o = .noResponse ∧ afterDecode x' o s = s.upd s.cur (fun x => { x with dstate := .idle }) := by
  have hempty : parseRun [] (s.port s.cur) =
      ({ s.port s.cur with parseIn := [], parsePos := 0, dstate := .idle }, .noResponse) := rfl
  rw [hrx, hempty, Prod.mk.injEq] at hr
  obtain ⟨rfl, rfl⟩ := hr
  refine ⟨rfl, ?_⟩
  have hs : ({ s with rxfifo := s.rxfifo.drop 0, diag := s.diag ++ syncLossOf s.cur .noResponse } : State) = s := by
    rw [List.drop_zero, show s.diag ++ syncLossOf s.cur .noResponse = s.diag from List.append_nil _]
  rw [afterDecode]
  simp only
  rw [hs, State.upd, State.upd, decoded, hg]

/-- Settles O37: XCHG_ACK has no attempt left; a silent device takes one step. -/
theorem lastAttemptExhaustsRetries : Obligations.LastAttemptExhaustsRetries := by
  intro i c d s x' o ho ha hr hdraw hack hm
  have hreach : ∃ n, (s.rxfifo = [] → n = 1) ∧
      execTimes i n s = .next (endingOf .untilAck c d s.cur o (afterDecode x' o s)) := by
    by_cases hrx : s.rxfifo = []
    · obtain ⟨rfl, hafter⟩ := afterDecode_of_silent ha.2.2 hrx hr
      rw [hafter]
      exact ⟨1, fun _ => rfl, receive_silent (receives_endingOf ho) ha hrx (hdraw.resolve_right nofun)⟩
    · obtain ⟨n, hn⟩ := receive (receives_endingOf ho) ha hr hdraw
      exact ⟨n, fun h => absurd h hrx, hn⟩
  obtain ⟨n, h1, hn⟩ := hreach
  refine ⟨n, h1, hn.trans (congrArg Host.Outcome.next ?_)⟩
  rw [endingOf, ackEnding_of_last c d s.cur (isAck_eq_false hack) (by rw [afterDecode_port, afterDecode_config]; exact hm),
    afterDecode_config, complete, State.upd_upd, releaseLock_afterDecode]
  rfl

/-! ### A wrong first byte -/

/-- A first byte that is neither 0x00 nor 0xFC is taken in one step and ends the decode in the next. -/
theorem receive_wrong_byte {i : Instr} {e : Port → DecodeOutcome → State → State} (H : Receives i e) {s : State} {b : Byte}
    {rest : List Byte} (ha : atReceive (s.port s.cur)) (hrx : s.rxfifo = b :: rest) (h0 : b ≠ 0x00) (hfc : b ≠ 0xFC) :
    execTimes i 2 s = .next (e s.cur (.syncErr b)
      ({ s with rxfifo := rest, diag := s.diag ++ [DiagEvent.mk .syncLoss s.cur [b]] }.upd s.cur
        (fun x => { x with dstate := .idle }))) := by
  obtain ⟨hp, hs, hg⟩ := ha
  have hsize : readSize (s.port s.cur) = 1 := by rw [readSize, hs]
  have h := read_stage H s (b :: rest) (s.port s.cur) hp hg (.inr (by simp [hsize]))
  have hself : atRead s (b :: rest) (s.port s.cur) = s := by rw [← hrx]; exact atRead_self s
  rw [hsize, hself, List.take_succ_cons, List.take_zero, decoderTake_of_wrong_byte hs h0 hfc] at h
  refine h.trans (congrArg (fun t => Host.Outcome.next (e s.cur (.syncErr b) t)) ?_)
  rw [atRead, noteSyncLoss_setPort, State.upd, State.port_shared]
  rfl

/-- Settles O41: SYNC_ERR is an error, which XCHG_ECHO passes through too. -/
theorem wrongFirstByteIsSyncErrorAndLogged : Obligations.WrongFirstByteIsSyncErrorAndLogged := by
  intro i k c d s b rest ho hk ha hrx h0 hfc
  rw [receive_wrong_byte (receives_endingOf ho) ha hrx h0 hfc]
  refine congrArg Host.Outcome.next ?_
  cases k
  · exact (xchgEnding_eq ..).trans (State.upd_upd ..)
  · exact absurd rfl hk
  · exact (echoEnding_of_accepted s.cur (.inl rfl)).trans (State.upd_upd ..)

/-! ### A whole frame -/

/-- A reception of a whole frame, with whatever follows it left in RXFIFO. -/
theorem receive_frame {i : Instr} {e : Port → DecodeOutcome → State → State} (H : Receives i e) {s : State} {st : Byte}
    {r rest : List Byte} (ha : atReceive (s.port s.cur)) (hr : r.length ≤ 250) (hrx : s.rxfifo = wholeFrame st r ++ rest) :
    ∃ n, execTimes i n s = .next (e s.cur (.ok st r) ({ s with rxfifo := rest }.upd s.cur (frameTaken st r))) := by
  have hl := lengthByte_toNat hr
  have hsplit : wholeFrame st r ++ rest =
      0xFC :: BitVec.ofNat 8 (5 + r.length) :: st ::
        (r ++ loByte (crc16 (frameBody st r)) :: hiByte (crc16 (frameBody st r)) :: rest) := by
    simp [wholeFrame, frameBody]
  have hparse := parseRun_frame (c := st) (lo := loByte (crc16 (frameBody st r)))
    (hi := hiByte (crc16 (frameBody st r))) rest (s.port s.cur) (l := BitVec.ofNat 8 (5 + r.length)) (d := r) (by omega)
    (by omega)
  rw [halfOf_lo_hi, ← hsplit, ← hrx] at hparse
  have hok : crc16 (0xFC :: BitVec.ofNat 8 (5 + r.length) :: st :: r) = crc16 (frameBody st r) := rfl
  rw [if_pos hok] at hparse
  obtain ⟨n, hn⟩ := receive H ha hparse (.inr rfl)
  refine ⟨n, hn.trans (congrArg (fun t => Host.Outcome.next (e s.cur (.ok st r) t)) ?_)⟩
  have hdrop : s.rxfifo.drop (5 + r.length) = rest := by
    rw [hrx]
    exact List.drop_left' (wholeFrame_length st r)
  rw [afterDecode]
  simp only [hl, hdrop, syncLossOf, List.append_nil]
  refine State.upd_congr fun x => ?_
  rw [decoded, frameTaken, Nat.add_comm r.length 5]

/-- From a decided response, one more step completes. -/
theorem execTimes_post {i : Instr} {k : ExchangeKind} {c : Byte} {d : List Byte} {n : Nat} {r : Response} {s t : State}
    {x : PortState} {f g : PortState → PortState} (ho : exchangeOperands i = some (k, c, d)) (hc : t.cur = s.cur)
    (hx : t.port s.cur = x) (h : execTimes i n s = .next (t.upd s.cur g)) (hr : (g x).phase = .done r)
    (hf : posted r (g x) = posted r (f x)) : execTimes i (n + 1) s = .next (complete s.cur r (t.upd s.cur f)) := by
  subst hx
  have hcur : (t.upd s.cur g).cur = s.cur := (State.upd_cur ..).trans hc
  have hpost := exec_of_done (s := t.upd s.cur g) (r := r) ho (by rw [hcur, State.port_upd, hr])
  rw [hcur, complete_upd_congr hf] at hpost
  rw [execTimes_add h 1, execTimes_succ_of_next hpost]
  rfl

/-- Settles O34: XCHG answers with the frame. -/
theorem xchgReturnsTheFrameReceived : Obligations.XchgReturnsTheFrameReceived := by
  intro i c d s st r rest ho ha hr hrx
  obtain ⟨n, hn⟩ := receive_frame (receives_endingOf ho) ha hr hrx
  rw [endingOf, xchgEnding_eq, State.upd_upd] at hn
  exact ⟨n + 1, execTimes_post ho rfl (State.port_rxfifo ..) hn rfl rfl⟩

/-- Settles O35: a frame of status 0x50 is an ACK. -/
theorem xchgAckCompletesOnAck : Obligations.XchgAckCompletesOnAck := by
  intro i c d s r rest ho ha hr hrx
  obtain ⟨n, hn⟩ := receive_frame (receives_endingOf ho) ha hr hrx
  rw [endingOf, ackEnding_of_ack (o := .ok 0x50 r) c d _ _ rfl, State.upd_upd] at hn
  exact ⟨n + 1, execTimes_post ho rfl (State.port_rxfifo ..) hn rfl rfl⟩

/-- Settles O38: the frame is the echo. -/
theorem xchgEchoAcceptsTheEcho : Obligations.XchgEchoAcceptsTheEcho := by
  intro i c d s rest ho ha hd hrx
  obtain ⟨n, hn⟩ := receive_frame (receives_endingOf ho) ha hd hrx
  rw [endingOf, echoEnding_of_accepted _ (.inr (isEcho_iff.mpr (by rw [State.upd_config]))), State.upd_upd] at hn
  exact ⟨n + 1, execTimes_post ho rfl (State.port_rxfifo ..) hn rfl rfl⟩

/-- Settles O39: the frame is neither an error nor the echo. -/
theorem xchgEchoRejectsAnotherFrame : Obligations.XchgEchoRejectsAnotherFrame := by
  intro i c d s st r rest ho ha hr hne hrx
  obtain ⟨n, hn⟩ := receive_frame (receives_endingOf ho) ha hr hrx
  have hrefused : ¬ ((DecodeOutcome.ok st r).code.isError = true ∨
      isEcho c d (.ok st r) ({ s with rxfifo := rest }.upd s.cur (frameTaken st r)) = true) := by
    rintro (h | h)
    · cases h
    · rw [isEcho_iff, State.upd_config, DecodeOutcome.ok.injEq] at h
      exact hne.elim (fun hst => hst h.1) (fun hd => hd h.2)
  rw [endingOf, echoEnding_of_refused _ hrefused, State.upd_upd] at hn
  exact ⟨n + 1, execTimes_post ho rfl (State.port_rxfifo ..) hn rfl rfl⟩

end Sys2Proof.Machine
end
